-- ==== Sys2Proof/Word.lean ====
section
/-! DEFINITION. The word types of the AR sequencer (00_scope.md R6, R8). -/

namespace Sys2Proof

/-- `u8` (R8). -/
abbrev Byte := BitVec 8

/-- `u32`, and the bit pattern of an `i32` (R8). -/
abbrev Word := BitVec 32

/-- The 25-bit `gcaddr` field of a command word (30_encoding.md R81). -/
abbrev GcAddr := BitVec 25

end Sys2Proof
end

