-- ==== Sys2Proof/Config.lean ====
section
/-! DEFINITION. The open parameters of 00_scope.md R6, as plain data, and the free values of the model. -/

namespace Sys2Proof

/-- `OOW_POLICY` (20_memory.md R55): what an access outside the RAM window does. -/
inductive OowPolicy where
  | modelFault
  | flat
  deriving DecidableEq, Repr

/-- `SIGNED_NARROW` (44_conditionals.md R239): the signed view of an 8- or 16-bit operand. -/
inductive SignedNarrow where
  | signAtWidth
  | zeroExtend
  deriving DecidableEq, Repr

/-- `SELFMOD_BASIS` (40_sequencer.md R126): what the self-modification guard looks at. -/
inductive SelfmodBasis where
  | gcaddr
  | raw
  deriving DecidableEq, Repr

/-- `F32_ADD_U32` (42_normal_codes.md R185): the spec's default reading, IEEE-754 binary32 with
round-to-nearest-even, or any other function of the two words (`Config.f32AddOther`). Entry 8. -/
inductive F32Reading where
  | nearestEven
  | other
  deriving DecidableEq, Repr

/-- The parameters R6 leaves open. No step writes them (entry 1). `ramEnd` is `RAM_END`, the
exclusive end of the RAM window (20_memory.md R51), a 32-bit guest address (entry 21). -/
structure Config where
  ramEnd       : Word
  oowPolicy    : OowPolicy
  signedNarrow : SignedNarrow
  f32Add       : F32Reading
  selfmodBasis : SelfmodBasis
  deriving DecidableEq, Repr

/-- The defaults R6 lists. -/
def Config.default : Config where
  ramEnd       := 0x81800000
  oowPolicy    := .modelFault
  signedNarrow := .signAtWidth
  f32Add       := .nearestEven
  selfmodBasis := .gcaddr

/-- FREE VALUE (entry 7): the word drawn for the `n`-th NaN result (R185: "a NaN whose bits are a
draw"). `nanBits` of Machine/Float.lean keeps it a NaN. -/
opaque Config.freeNaN (n : Nat) : Word

/-- FREE VALUE (entry 16): whether the `n`-th finished run read a stale value of
`USE_INTERNAL_LOG` (60_exceptions.md R276: "reading a stale value is acceptable"). -/
opaque Config.freeStaleRead (n : Nat) : Bool

/-- FREE VALUE (entry 16): the lines the `n`-th finished run adds to `SELF_LOG` if it logs, which may
depend on `LOG_LATCH` (93_implementation_defined.md I11: "`any value` for log text and order"). -/
opaque Config.freeLogLines (n : Nat) (latch : Bool) : List String

/-- FREE VALUE (entry 8): `F32_ADD_U32` where the parameter is not the default reading. -/
opaque Config.f32AddOther (m d : Word) : Word

end Sys2Proof
end

