-- ==== Sys2Proof/Syntax.lean ====
section
/-! DEFINITION. Entries and instructions: one constructor of `Instr` per row of the opcode table.
Ignored bits (30_encoding.md R92) are operands too, so that no bit of an entry is lost. -/

namespace Sys2Proof

/-- One entry `(cmd_addr, value)` of a code (30_encoding.md R80). -/
structure Entry where
  cmd   : Word
  value : Word
  deriving DecidableEq, Repr

/-- The `size` field (R81): 8-bit, 16-bit, 32-bit, 32-bit float. -/
inductive Size where
  | s8
  | s16
  | s32
  | f32
  deriving DecidableEq, Repr

/-- The `subtype` field of a conditional: what a false compare does (44_conditionals.md R231). -/
inductive OnFalse where
  | skipOne
  | skipTwo
  | untilEndif
  | skipAll
  deriving DecidableEq, Repr

/-- The instructions of 30_encoding.md R98. `low` is the 29 ignored bits of a zero-code, `t2` the
bits [28:27] of a selector word (R85), `g` the field gcaddr, and `top` the seven bits [31:25] of a
command word that the instruction does not look at. -/
inductive Instr where
  -- zero-codes, 41_zero_codes.md R151 to R156
  | zend (low : BitVec 29)
  | zunk1 (low : BitVec 29)
  | znorm (low : BitVec 29)
  | zrow (low : BitVec 29)
  | zfs8 (t2 : BitVec 2) (addr : GcAddr)
  | zfs16 (t2 : BitVec 2) (addr : GcAddr)
  | zfs32 (t2 : BitVec 2) (addr : GcAddr)
  | zmcpy (t2 : BitVec 2) (addr : GcAddr)
  | zunk5 (low : BitVec 29)
  | zunk6 (low : BitVec 29)
  | zunk7 (low : BitVec 29)
  -- sequencer, 40_sequencer.md R124, R126
  | endif
  | selfmod (top : BitVec 7) (low : BitVec 12) (value : Word)
  -- RAM write and fill, 42_normal_codes.md R170 to R173
  | wr8 (g : GcAddr) (reps : BitVec 24) (data : Byte)
  | wr16 (g : GcAddr) (reps : BitVec 16) (data : BitVec 16)
  | wr32 (g : GcAddr) (data : Word)
  | wrf32 (g : GcAddr) (data : Word)
  -- write to pointer, R176 to R179
  | pwr8 (g : GcAddr) (offset : BitVec 24) (data : Byte)
  | pwr16 (g : GcAddr) (index : BitVec 16) (data : BitVec 16)
  | pwr32 (g : GcAddr) (data : Word)
  | pwrf32 (g : GcAddr) (data : Word)
  -- add in place, R182 to R185
  | add8 (g : GcAddr) (addend : Word)
  | add16 (g : GcAddr) (addend : Word)
  | add32 (g : GcAddr) (addend : Word)
  | addf32 (g : GcAddr) (addend : Word)
  -- master code, R186
  | master (size : Size) (g : GcAddr) (value : Word)
  -- conditionals, 44_conditionals.md R232 to R238
  | ceq (onFalse : OnFalse) (size : Size) (g : GcAddr) (value : Word)
  | cne (onFalse : OnFalse) (size : Size) (g : GcAddr) (value : Word)
  | clts (onFalse : OnFalse) (size : Size) (g : GcAddr) (value : Word)
  | cgts (onFalse : OnFalse) (size : Size) (g : GcAddr) (value : Word)
  | cltu (onFalse : OnFalse) (size : Size) (g : GcAddr) (value : Word)
  | cgtu (onFalse : OnFalse) (size : Size) (g : GcAddr) (value : Word)
  | cand (onFalse : OnFalse) (size : Size) (g : GcAddr) (value : Word)
  -- composite follow-ups, 43_composites.md R200, R210
  | fsdata (val : Word) (valIncr : Byte) (writeNum : Byte) (addrIncr : BitVec 16)
  | mcdata (top : BitVec 7) (src : GcAddr) (ptr : Byte) (check : Byte) (bit15 : BitVec 1)
      (numBytes : BitVec 15)
  deriving DecidableEq, Repr

end Sys2Proof
end

