-- ==== Sys2Proof/Decode.lean ====
section
/-! DEFINITION. The Address Decoder (30_encoding.md R81 to R93) and the encoder. Decoding is total:
in the dispatch context and in a composite's follow-up every entry is an instruction; while an
endif marker is sought, an entry that is not the marker is rejected by name. -/

namespace Sys2Proof

/-! ## Fields of a command word (R81) -/

def cmdGcaddr (w : Word) : GcAddr := w.extractLsb' 0 25
def cmdSize (w : Word) : BitVec 2 := w.extractLsb' 25 2
def cmdType (w : Word) : BitVec 3 := w.extractLsb' 27 3
def cmdSubtype (w : Word) : BitVec 2 := w.extractLsb' 30 2

/-- A command word from its fields (R81): `{subtype, type, size, gcaddr}`. -/
def cmdWord (subtype : BitVec 2) (type : BitVec 3) (size : BitVec 2) (g : GcAddr) : Word :=
  subtype ++ type ++ size ++ g

/-- `size`: 0 = 8-bit, 1 = 16-bit, 2 = 32-bit, 3 = 32-bit float (R81). -/
def Size.ofBits (b : BitVec 2) : Size :=
  if b = 0 then .s8 else if b = 1 then .s16 else if b = 2 then .s32 else .f32

def Size.bits : Size → BitVec 2
  | .s8 => 0
  | .s16 => 1
  | .s32 => 2
  | .f32 => 3

/-- `subtype` of a conditional: 0 = skip one, 1 = skip two, 2 = until endif, 3 = all
(44_conditionals.md R231). -/
def OnFalse.ofBits (b : BitVec 2) : OnFalse :=
  if b = 0 then .skipOne else if b = 1 then .skipTwo else if b = 2 then .untilEndif else .skipAll

def OnFalse.bits : OnFalse → BitVec 2
  | .skipOne => 0
  | .skipTwo => 1
  | .untilEndif => 2
  | .skipAll => 3

/-! ## The self-modification guard's test (40_sequencer.md R126) -/

/-- `SelfModHit(a)`: the address `[0x2000, 0x3000)`, of gcaddr or of the raw word (D13). -/
def selfModHit (basis : SelfmodBasis) (w : Word) : Bool :=
  match basis with
  | .gcaddr => 0x2000 ≤ (cmdGcaddr w).toNat && (cmdGcaddr w).toNat < 0x3000
  | .raw => 0x2000 ≤ w.toNat && w.toNat < 0x3000

/-! ## Decoding -/

/-- Which of R88's rows may apply: SKIP = SKIP_UNTIL_ENDIF (row 3), PEND = FILL_SLIDE (row 4),
PEND = MEM_COPY (row 5), or none of these (rows 6 to 9). -/
inductive Context where
  | untilEndif
  | fillSlide
  | memCopy
  | dispatch
  deriving DecidableEq, Repr

/-- Why an entry is no instruction in its context. -/
inductive Reject where
  /-- Raised by `decode` while an endif marker is sought and the entry is not the marker (R124);
  safe, since the sequencer skips the entry, as the spec says. -/
  | notTheMarker
  deriving DecidableEq, Repr

/-- The endif marker `(0x00000000, 0x40000000)`, compared raw (R86). -/
def endifMarker : Entry := ⟨0, 0x40000000⟩

/-- A zero-code, by `zcode = value[31:29]` (R84) and, for zcode 4, `sel = value[26:25]` (R85). -/
def decodeZero (v : Word) : Instr :=
  let zcode := v.extractLsb' 29 3
  let low := v.extractLsb' 0 29
  if zcode = 0 then .zend low
  else if zcode = 1 then .zunk1 low
  else if zcode = 2 then .znorm low
  else if zcode = 3 then .zrow low
  else if zcode = 4 then
    match Size.ofBits (cmdSize v) with
    | .s8 => .zfs8 (v.extractLsb' 27 2) (cmdGcaddr v)
    | .s16 => .zfs16 (v.extractLsb' 27 2) (cmdGcaddr v)
    | .s32 => .zfs32 (v.extractLsb' 27 2) (cmdGcaddr v)
    | .f32 => .zmcpy (v.extractLsb' 27 2) (cmdGcaddr v)
  else if zcode = 5 then .zunk5 low
  else if zcode = 6 then .zunk6 low
  else .zunk7 low

/-- A normal code, by `subtype` and `size` (R88), its value word split as R87 says. -/
def decodeNormal (a v : Word) : Instr :=
  let g := cmdGcaddr a
  let size := Size.ofBits (cmdSize a)
  if cmdSubtype a = 0 then
    match size with
    | .s8 => .wr8 g (v.extractLsb' 8 24) (v.extractLsb' 0 8)
    | .s16 => .wr16 g (v.extractLsb' 16 16) (v.extractLsb' 0 16)
    | .s32 => .wr32 g v
    | .f32 => .wrf32 g v
  else if cmdSubtype a = 1 then
    match size with
    | .s8 => .pwr8 g (v.extractLsb' 8 24) (v.extractLsb' 0 8)
    | .s16 => .pwr16 g (v.extractLsb' 16 16) (v.extractLsb' 0 16)
    | .s32 => .pwr32 g v
    | .f32 => .pwrf32 g v
  else if cmdSubtype a = 2 then
    match size with
    | .s8 => .add8 g v
    | .s16 => .add16 g v
    | .s32 => .add32 g v
    | .f32 => .addf32 g v
  else .master size g v

/-- A conditional, by `type` 1 to 7 (R88). -/
def decodeConditional (a v : Word) : Instr :=
  let type := cmdType a
  let onFalse := OnFalse.ofBits (cmdSubtype a)
  let size := Size.ofBits (cmdSize a)
  let g := cmdGcaddr a
  if type = 1 then .ceq onFalse size g v
  else if type = 2 then .cne onFalse size g v
  else if type = 3 then .clts onFalse size g v
  else if type = 4 then .cgts onFalse size g v
  else if type = 5 then .cltu onFalse size g v
  else if type = 6 then .cgtu onFalse size g v
  else .cand onFalse size g v

/-- Rows 6 to 9 of R88: the guard, then the raw compare with zero, then `type`. -/
def decodeDispatch (basis : SelfmodBasis) (e : Entry) : Instr :=
  if selfModHit basis e.cmd then
    .selfmod (e.cmd.extractLsb' 25 7) (e.cmd.extractLsb' 0 12) e.value
  else if e.cmd = 0 then decodeZero e.value
  else if cmdType e.cmd = 0 then decodeNormal e.cmd e.value
  else decodeConditional e.cmd e.value

/-- The fill-and-slide follow-up (R89): every bit is an operand. -/
def decodeFillSlide (e : Entry) : Instr :=
  .fsdata e.cmd (e.value.extractLsb' 24 8) (e.value.extractLsb' 16 8) (e.value.extractLsb' 0 16)

/-- The memory-copy follow-up (R90): every bit is an operand. -/
def decodeMemCopy (e : Entry) : Instr :=
  .mcdata (e.cmd.extractLsb' 25 7) (cmdGcaddr e.cmd) (e.value.extractLsb' 24 8)
    (e.value.extractLsb' 16 8) (e.value.extractLsb' 15 1) (e.value.extractLsb' 0 15)

/-- What an entry is in its context (R88, rows 3 to 9). -/
def decode (basis : SelfmodBasis) (c : Context) (e : Entry) : Except Reject Instr :=
  match c with
  | .untilEndif => if e = endifMarker then .ok .endif else .error .notTheMarker
  | .fillSlide => .ok (decodeFillSlide e)
  | .memCopy => .ok (decodeMemCopy e)
  | .dispatch => .ok (decodeDispatch basis e)

/-! ## Encoding -/

/-- A zero-code's entry (R84). -/
def zeroEntry (zcode : BitVec 3) (low : BitVec 29) : Entry := ⟨0, zcode ++ low⟩

/-- A selector's entry (R85): `{0b100, t2, sel, addr}`. -/
def selectorEntry (sel : BitVec 2) (t2 : BitVec 2) (addr : GcAddr) : Entry :=
  ⟨0, (4#3 ++ t2 ++ sel ++ addr : Word)⟩

/-- The two words of an instruction (R80 to R90). -/
def encode : Instr → Entry
  | .zend low => zeroEntry 0 low
  | .zunk1 low => zeroEntry 1 low
  | .znorm low => zeroEntry 2 low
  | .zrow low => zeroEntry 3 low
  | .zfs8 t2 addr => selectorEntry 0 t2 addr
  | .zfs16 t2 addr => selectorEntry 1 t2 addr
  | .zfs32 t2 addr => selectorEntry 2 t2 addr
  | .zmcpy t2 addr => selectorEntry 3 t2 addr
  | .zunk5 low => zeroEntry 5 low
  | .zunk6 low => zeroEntry 6 low
  | .zunk7 low => zeroEntry 7 low
  | .endif => endifMarker
  | .selfmod top low value => ⟨(top ++ 0x2#13 ++ low : Word), value⟩
  | .wr8 g reps data => ⟨cmdWord 0 0 0 g, (reps ++ data : Word)⟩
  | .wr16 g reps data => ⟨cmdWord 0 0 1 g, (reps ++ data : Word)⟩
  | .wr32 g data => ⟨cmdWord 0 0 2 g, data⟩
  | .wrf32 g data => ⟨cmdWord 0 0 3 g, data⟩
  | .pwr8 g offset data => ⟨cmdWord 1 0 0 g, (offset ++ data : Word)⟩
  | .pwr16 g index data => ⟨cmdWord 1 0 1 g, (index ++ data : Word)⟩
  | .pwr32 g data => ⟨cmdWord 1 0 2 g, data⟩
  | .pwrf32 g data => ⟨cmdWord 1 0 3 g, data⟩
  | .add8 g addend => ⟨cmdWord 2 0 0 g, addend⟩
  | .add16 g addend => ⟨cmdWord 2 0 1 g, addend⟩
  | .add32 g addend => ⟨cmdWord 2 0 2 g, addend⟩
  | .addf32 g addend => ⟨cmdWord 2 0 3 g, addend⟩
  | .master size g value => ⟨cmdWord 3 0 size.bits g, value⟩
  | .ceq onFalse size g value => ⟨cmdWord onFalse.bits 1 size.bits g, value⟩
  | .cne onFalse size g value => ⟨cmdWord onFalse.bits 2 size.bits g, value⟩
  | .clts onFalse size g value => ⟨cmdWord onFalse.bits 3 size.bits g, value⟩
  | .cgts onFalse size g value => ⟨cmdWord onFalse.bits 4 size.bits g, value⟩
  | .cltu onFalse size g value => ⟨cmdWord onFalse.bits 5 size.bits g, value⟩
  | .cgtu onFalse size g value => ⟨cmdWord onFalse.bits 6 size.bits g, value⟩
  | .cand onFalse size g value => ⟨cmdWord onFalse.bits 7 size.bits g, value⟩
  | .fsdata val valIncr writeNum addrIncr => ⟨val, (valIncr ++ writeNum ++ addrIncr : Word)⟩
  | .mcdata top src ptr check bit15 numBytes =>
      ⟨(top ++ src : Word), (ptr ++ check ++ bit15 ++ numBytes : Word)⟩

/-- The context in which an instruction is decoded (R88). -/
def Instr.context : Instr → Context
  | .endif => .untilEndif
  | .fsdata _ _ _ _ => .fillSlide
  | .mcdata _ _ _ _ _ _ => .memCopy
  | .zend _ | .zunk1 _ | .znorm _ | .zrow _ | .zfs8 _ _ | .zfs16 _ _ | .zfs32 _ _ | .zmcpy _ _
  | .zunk5 _ | .zunk6 _ | .zunk7 _ | .selfmod _ _ _
  | .wr8 _ _ _ | .wr16 _ _ _ | .wr32 _ _ | .wrf32 _ _
  | .pwr8 _ _ _ | .pwr16 _ _ _ | .pwr32 _ _ | .pwrf32 _ _
  | .add8 _ _ | .add16 _ _ | .add32 _ _ | .addf32 _ _ | .master _ _ _
  | .ceq _ _ _ _ | .cne _ _ _ _ | .clts _ _ _ _ | .cgts _ _ _ _
  | .cltu _ _ _ _ | .cgtu _ _ _ _ | .cand _ _ _ _ => .dispatch

/-! ## The opcode table's view (30_encoding.md R80, D17) -/

/-- `W = {cmd_addr, value}`, `cmd_addr` in bits [63:32]. -/
def Entry.bits (e : Entry) : BitVec 64 := e.cmd ++ e.value

/-- The entry whose `W` is the low `nbits` bits of `w`, every bit above zero (entry 11). -/
def entryOfTableWord (nbits w : Nat) : Entry :=
  let W := BitVec.ofNat 64 (w % 2 ^ nbits)
  ⟨W.extractLsb' 32 32, W.extractLsb' 0 32⟩

/-- What the decoder reads from a word of the opcode table at the start of a run, where SKIP is 0,
PEND is NONE and SELFMOD_BASIS has its default (entries 11, 12). -/
def decodeTableWord (nbits w : Nat) : Option Instr :=
  match decode .gcaddr .dispatch (entryOfTableWord nbits w) with
  | .ok i => some i
  | .error _ => none

end Sys2Proof
end

