-- ==== Sys2Proof/Machine/Operands.lean ====
section
/-! DEFINITION. Operand forms: effective addresses, access widths, extensions and masks. -/

namespace Sys2Proof.Machine

/-- The `n` of `MemRead(addr, n)` and `MemWrite(addr, n, v)`: 1, 2 or 4 bytes (00_scope.md R9). -/
inductive Width where
  | byte
  | half
  | word
  deriving DecidableEq, Repr

def Width.bytes : Width → Nat
  | .byte => 1
  | .half => 2
  | .word => 4

/-- The access width of `size` (44_conditionals.md R230, 20_memory.md R58). -/
def sizeWidth : Size → Width
  | .s8 => .byte
  | .s16 => .half
  | .s32 => .word
  | .f32 => .word

/-- `EA(w) = (w & 0x01FFFFFF) | 0x80000000` (30_encoding.md R83). -/
def eaWord (w : Word) : Word := (w &&& 0x01FFFFFF) ||| 0x80000000

/-- The direct effective address `gcaddr | 0x80000000` (R83). -/
def ea (g : GcAddr) : Word := g.setWidth 32 ||| 0x80000000

/-- The value word masked to the width: `d & 0xFF`, `d & 0xFFFF` or `d` (44_conditionals.md R230). -/
def maskTo : Width → Word → Word
  | .byte, v => v &&& 0xFF
  | .half, v => v &&& 0xFFFF
  | .word, v => v

/-- PWR8's offset `D >> 8`, unsigned (42_normal_codes.md R176). -/
def byteOffset (offset : BitVec 24) : Word := offset.setWidth 32

/-- PWR16's offset `(D >> 16) << 1` (R177). -/
def halfOffset (index : BitVec 16) : Word := index.setWidth 32 <<< 1

/-- Fill-and-slide's cursor step: `addr_incr`, sign-extended, times 1, 2 or 4
(43_composites.md R201 to R203). -/
def cursorStep (w : Width) (addrIncr : BitVec 16) : Word :=
  BitVec.ofNat 32 w.bytes * addrIncr.signExtend 32

/-- Fill-and-slide's value step: `val_incr`, sign-extended (R200). -/
def valueStep (valIncr : Byte) : Word := valIncr.signExtend 32

/-- Memory copy's destination `VLAST & ~0x06000000` (30_encoding.md R90). -/
def copyDest (vlast : Word) : Word := vlast &&& 0xF9FFFFFF

end Sys2Proof.Machine
end

