-- ==== Sys2Proof/Machine/State.lean ====
section
/-! DEFINITION. The state of the AR sequencer, its host and guest memory (10_state.md R20 to R35),
as plain data, and the state after reset (70_reset_and_hazards.md R290, R291). -/

namespace Sys2Proof.Machine

/-- Guest memory `M` (10_state.md R33): the bytes that differ from `resetByte`, addresses rising. -/
abbrev Memory := List Host.Cell

/-- What an address that memory does not list reads as. DESIGN CHOICE, unsafe (entry 2). -/
def resetByte : Byte := 0

/-- `PEND` (10_state.md R24). -/
inductive Pend where
  | none
  | fillSlide
  | memCopy
  deriving DecidableEq, Repr

/-- The failure kinds of 60_exceptions.md R260. -/
inductive FailKind where
  | selfModify
  | unsupportedRow
  | unknownZcode
  | masterCode
  | memcpyBadValue
  | invalidSize
  deriving DecidableEq, Repr

/-- The numeric codes of R260 (the spec's own, D11). -/
def FailKind.code : FailKind → Nat
  | .selfModify => 1
  | .unsupportedRow => 2
  | .unknownZcode => 3
  | .masterCode => 4
  | .memcpyBadValue => 5
  | .invalidSize => 6

/-- `info` of a failure (R261): the offending value, the failing entry's index and its two words. -/
structure FailInfo where
  value : Word
  index : Nat
  entry : Entry
  deriving DecidableEq, Repr

/-- `RESULT` (10_state.md R28). -/
inductive RunResult where
  | running
  | success
  | failure (kind : FailKind) (info : FailInfo)
  deriving DecidableEq, Repr

/-- A code: "a named ordered list of 64-bit instructions" (00_scope.md R11) with the `active` flag
that the host operations read (60_exceptions.md R270, R273). -/
structure Code where
  name   : String
  active : Bool
  ops    : List Entry
  deriving DecidableEq, Repr

/-- No code is being run (entry 6). -/
def Code.empty : Code := ⟨"", false, []⟩

/-- `Report(code name, kind, info)` (60_exceptions.md R261). -/
structure Report where
  name : String
  kind : FailKind
  info : FailInfo
  deriving DecidableEq, Repr

/-- Where the host stands (60_exceptions.md R272): between ticks, or inside `run_all_active` with
the codes that have not yet run and the survivors so far. -/
inductive Phase where
  | idle
  | inPass (todo survivors : List Code)
  deriving DecidableEq, Repr

/-- What the outside does between passes (60_exceptions.md R270 to R277; entries 14, 20). -/
inductive HostOp where
  | applyCodes (newList : List Code)
  | addCode (code : Code)
  | runAllActive
  | setCheatsEnabled (on : Bool)
  | enableSelfLogging (on : Bool)
  | getSelfLog
  | clearSelfLog
  | guestWrite (addr : Word) (value : Byte)
  deriving DecidableEq, Repr

/-- Everything the spec gives the machine; INVENTORY.md lists each field with its rule. -/
structure State where
  cfg            : Config        -- the open parameters, 00_scope.md R6
  idx            : Nat           -- IDX, R21
  skip           : Word          -- SKIP, the bits of an i32, R22
  pend           : Pend          -- PEND, R24
  vlast          : Word          -- VLAST, R25
  result         : RunResult     -- RESULT, R28
  code           : Code          -- the code being run; its `ops` is the instruction store, R32
  mem            : Memory        -- M, R33
  active         : List Code     -- ACTIVE, R31
  phase          : Phase         -- the pass in progress, R272
  cheatsEnabled  : Bool          -- CHEATS_ENABLED, R31
  useInternalLog : Bool          -- USE_INTERNAL_LOG, R31
  logLatch       : Bool          -- LOG_LATCH, R31
  selfLog        : List String   -- SELF_LOG, R280
  reports        : List Report   -- reports emitted, oldest first, R261
  inputs         : List HostOp   -- the model's own: host operations to come, entry 14
  nanDraws       : Nat           -- the model's own: NaN results drawn, entry 7
  logFlagMoved   : Bool          -- the model's own: USE_INTERNAL_LOG has held both values, entry 16
  logDraws       : Nat           -- the model's own: finished runs, entry 16
  deriving DecidableEq, Repr

/-- The state after process start, before the first host operation (R291), with the sequencer
registers at their values at run start (R30). The values the spec does not give are named in
entries 2, 5, 6, 7, 14, 16 and 19. -/
def State.reset : State where
  cfg            := Config.default
  idx            := 0
  skip           := 0
  pend           := .none
  vlast          := 0
  result         := .running
  code           := Code.empty
  mem            := []
  active         := []
  phase          := .idle
  cheatsEnabled  := true
  useInternalLog := false
  logLatch       := false
  selfLog        := []
  reports        := []
  inputs         := []
  nanDraws       := 0
  logFlagMoved   := false
  logDraws       := 0

/-- Why the model gives no next state. -/
inductive Fault where
  /-- `model_fault OOW(addr)` (20_memory.md R55): raised by `memRead` and `memWrite` for an access
  with a byte outside the RAM window while OOW_POLICY is `modelFault`. `mem` is memory as the
  access found it: the writes before it have been made (42_normal_codes.md R170). Safe: the model
  stops where the hardware goes on silently (entry 3). -/
  | outOfWindow (addr : Word) (mem : Memory)
  deriving DecidableEq, Repr

/-- Refusals. -/
inductive Refusal where
  /-- Raised by an arm of `exec` whose instruction has no meaning yet; no arm is left so. Safe. -/
  | notModelled (mnemonic : String)
  deriving DecidableEq, Repr

end Sys2Proof.Machine
end

