-- ==== Sys2Proof/Machine/Ops.lean ====
section
/-! DEFINITION. The shared operations: register writes, guest memory and its accesses, the loops
over it, and taking a failure. -/

namespace Sys2Proof.Machine

/-- The outcome of a meaning. -/
abbrev Out := Host.Outcome State Fault Refusal

/-! ## Register writes -/

/-- `IDX <- IDX + 1` (40_sequencer.md R120). -/
def State.advance (s : State) : State := { s with idx := s.idx + 1 }
/-- `SKIP <- v`. -/
def State.setSkip (s : State) (v : Word) : State := { s with skip := v }
/-- `PEND <- p; VLAST <- v`, both at once (10_state.md R25). -/
def State.setPending (s : State) (p : Pend) (v : Word) : State := { s with pend := p, vlast := v }
/-- `PEND <- NONE` (40_sequencer.md R125). -/
def State.clearPend (s : State) : State := { s with pend := .none }
/-- `RESULT <- r`. -/
def State.setResult (s : State) (r : RunResult) : State := { s with result := r }
/-- Guest memory becomes `m`. -/
def State.setMem (s : State) (m : Memory) : State := { s with mem := m }
/-- The model's own count of NaN draws (entry 7). -/
def State.setNanDraws (s : State) (n : Nat) : State := { s with nanDraws := n }

/-! ## Guest memory, byte by byte -/

/-- The byte at an address. -/
def Memory.get : Memory → Nat → Byte
  | [], _ => resetByte
  | (k, b) :: m, a => if k = a then b else Memory.get m a

/-- Memory with the byte `b` at address `a`, in canonical form. -/
def Memory.set : Memory → Nat → Byte → Memory
  | [], a, b => if b = resetByte then [] else [(a, b)]
  | (k, c) :: m, a, b =>
    if a < k then (if b = resetByte then (k, c) :: m else (a, b) :: (k, c) :: m)
    else if a = k then (if b = resetByte then m else (a, b) :: m)
    else (k, c) :: Memory.set m a b

/-- Every address is at least `lo`, the addresses rise strictly and stay below 2^32, and no byte
listed is what an unlisted address reads as. -/
def Memory.wfFrom : Nat → Memory → Bool
  | _, [] => true
  | lo, (k, b) :: m => decide (lo ≤ k) && decide (k < 2 ^ 32) && b != resetByte && Memory.wfFrom (k + 1) m

/-- The canonical form of memory. -/
def Memory.wf (m : Memory) : Bool := Memory.wfFrom 0 m

/-- The byte at a 32-bit guest address. -/
def Memory.byteAt (m : Memory) (a : Word) : Byte := Memory.get m a.toNat

/-! ## The memory port (20_memory.md R51 to R55) -/

/-- `InWindow(a, n)`: `0x80000000 <= a` and `a + n <= RAM_END`, computed without wrap (R51). -/
def inWindow (cfg : Config) (a : Word) (n : Nat) : Bool :=
  decide (0x80000000 ≤ a.toNat) && decide (a.toNat + n ≤ cfg.ramEnd.toNat)

/-- An access the model gives a meaning to (R55). -/
def accessible (cfg : Config) (a : Word) (n : Nat) : Bool :=
  inWindow cfg a n || decide (cfg.oowPolicy = .flat)

/-- R52's loop: `v <- (v << 8) | M[addr + k]`, the byte at the lowest address first. -/
def loadLoop (m : Memory) : Nat → Word → Word → Word
  | 0, _, v => v
  | n + 1, a, v => loadLoop m n (a + 1#32) ((v <<< 8) ||| (Memory.byteAt m a).setWidth 32)

/-- R53's loop: with `n` bytes still to write, the next is `v[8(n-1)+7 : 8(n-1)]`. -/
def storeLoop : Nat → Word → Word → Memory → Memory
  | 0, _, _, m => m
  | n + 1, a, v, m => storeLoop n (a + 1#32) v (Memory.set m a.toNat (v.extractLsb' (8 * n) 8))

/-- The big-endian unsigned value of `n` bytes. -/
def loadBE (m : Memory) (a : Word) (n : Nat) : Word := loadLoop m n a 0

/-- `MemRead(addr, n)` (R52). -/
def memRead (cfg : Config) (m : Memory) (a : Word) (w : Width) : Except Fault Word :=
  if accessible cfg a w.bytes then .ok (loadBE m a w.bytes) else .error (.outOfWindow a m)

/-- `MemWrite(addr, n, v)` (R53): the low `8n` bits of `v`, big-endian. -/
def memWrite (cfg : Config) (m : Memory) (a : Word) (w : Width) (v : Word) : Except Fault Memory :=
  if accessible cfg a w.bytes then .ok (storeLoop w.bytes a v m) else .error (.outOfWindow a m)

/-! ## Loops over memory -/

/-- `n` writes of width `w`: write `val` at `cur`, then the cursor advances by `dcur`, then the
value by `dval`, modulo 2^32 (43_composites.md R200). A fill is the case `dval = 0`. -/
def slide (cfg : Config) (w : Width) (dcur dval : Word) :
    Nat → Word → Word → Memory → Except Fault Memory
  | 0, _, _, m => .ok m
  | n + 1, cur, val, m =>
    match memWrite cfg m cur w val with
    | .ok m' => slide cfg w dcur dval n (cur + dcur) (val + dval) m'
    | .error f => .error f

/-- `repeat + 1` writes of one value, ascending (42_normal_codes.md R170, R171). -/
def fill (cfg : Config) (w : Width) (reps : Nat) (a v : Word) (m : Memory) : Except Fault Memory :=
  slide cfg w (BitVec.ofNat 32 w.bytes) 0 (reps + 1) a v m

/-- `n` bytes copied one at a time, ascending, each read just before it is written
(43_composites.md R210, R211). -/
def copyBytes (cfg : Config) : Nat → Word → Word → Memory → Except Fault Memory
  | 0, _, _, m => .ok m
  | n + 1, src, dest, m =>
    match memRead cfg m src .byte with
    | .error f => .error f
    | .ok b =>
      match memWrite cfg m dest .byte b with
      | .error f => .error f
      | .ok m' => copyBytes cfg n (src + 1#32) (dest + 1#32) m'

/-! ## Outcomes -/

/-- The instruction ends with memory as the access left it, or with the model's fault. -/
def putMem (s : State) : Except Fault Memory → Out
  | .ok m => .next (s.setMem m)
  | .error f => .fault f

/-- Write to pointer (42_normal_codes.md R176 to R179): `P <- MemRead(E, 4)`, then
`MemWrite(P + off, n, v)`. -/
def pointerWrite (w : Width) (e off v : Word) (s : State) : Out :=
  match memRead s.cfg s.mem e .word with
  | .error f => .fault f
  | .ok p => putMem s (memWrite s.cfg s.mem (p + off) w v)

/-- Add in place (R182 to R184): `v <- MemRead(E, n)`, then `MemWrite(E, n, v + D)`, whose low `8n`
bits are the sum modulo `2^(8n)`. -/
def addInPlace (w : Width) (e d : Word) (s : State) : Out :=
  match memRead s.cfg s.mem e w with
  | .error f => .fault f
  | .ok v => putMem s (memWrite s.cfg s.mem e w (v + d))

/-! ## Taking a failure

There is no return from a failure (60_exceptions.md R265), so no operation stands beside this one. -/

/-- `raise Failure(kind, info)` (60_exceptions.md R261, R264): the run ends with
`RESULT = FAILURE(kind, info)`, where `info` is the offending value, the index `IDX - 1` of the
failing entry and its two words; nothing else changes. There is no handler, vector or saved
program counter. The pass then reports it and drops the code (Machine/HostPass.lean). -/
def raiseFailure (kind : FailKind) (value : Word) (entry : Entry) (s : State) : Out :=
  .next (s.setResult (.failure kind ⟨value, s.idx - 1, entry⟩))

/-- `return Success` (00_scope.md R9). -/
def returnSuccess (s : State) : Out := .next (s.setResult .success)

end Sys2Proof.Machine
end

