-- ==== Sys2Proof/Machine/Composites.lean ====
section
/-! DEFINITION. The composites' follow-ups FSDATA and MCDATA (40_sequencer.md R125,
43_composites.md R200 to R212). Each resets PEND and then runs the composite that the selector word
in VLAST began. -/

namespace Sys2Proof.Machine

/-- One fill-and-slide loop (R201 to R203) from `E = EA(VLAST)`. -/
def slideFrom (w : Width) (val : Word) (valIncr writeNum : Byte) (addrIncr : BitVec 16)
    (s : State) : Out :=
  putMem s (slide s.cfg w (cursorStep w addrIncr) (valueStep valIncr) writeNum.toNat
    (eaWord s.vlast) val s.mem)

/-- `FillAndSlide(VLAST, a, d)` (R200): the loop by `size = VLAST[26:25]`; size 3 is the arm that
R204 shows to be unreachable (entry 22). -/
def fillAndSlide (val : Word) (valIncr writeNum : Byte) (addrIncr : BitVec 16) (s : State) : Out :=
  match Size.ofBits (cmdSize s.vlast) with
  | .s8 => slideFrom .byte val valIncr writeNum addrIncr s
  | .s16 => slideFrom .half val valIncr writeNum addrIncr s
  | .s32 => slideFrom .word val valIncr writeNum addrIncr s
  | .f32 => raiseFailure .invalidSize 3 (encode (.fsdata val valIncr writeNum addrIncr)) s

/-- FSDATA (R125, R200). -/
def execFsdata (val : Word) (valIncr writeNum : Byte) (addrIncr : BitVec 16) (s : State) : Out :=
  fillAndSlide val valIncr writeNum addrIncr s.clearPend

/-- `MemoryCopy` after its check (R210): in pointer mode `dest` and then `src` are read first
(R212); then `n` bytes are copied (R211). -/
def memoryCopy (pointers : Bool) (dest src : Word) (n : Nat) (s : State) : Out :=
  if pointers then
    match memRead s.cfg s.mem dest .word with
    | .error f => .fault f
    | .ok dest' =>
      match memRead s.cfg s.mem src .word with
      | .error f => .fault f
      | .ok src' => putMem s (copyBytes s.cfg n src' dest' s.mem)
  else putMem s (copyBytes s.cfg n src dest s.mem)

/-- MCDATA (R125, R210): the check of `d[23:16]` comes before any access; its offending value is
`d & 0x00FF0000`. Bits [31:25] of the command word and bit 15 of the value word are ignored. -/
def execMcdata (top : BitVec 7) (src : GcAddr) (ptr check : Byte) (bit15 : BitVec 1)
    (numBytes : BitVec 15) (s : State) : Out :=
  if check ≠ 0 then
    raiseFailure .memcpyBadValue (check.setWidth 32 <<< 16)
      (encode (.mcdata top src ptr check bit15 numBytes)) s.clearPend
  else
    memoryCopy (decide (ptr ≠ 0)) (copyDest s.vlast) (ea src) numBytes.toNat s.clearPend

end Sys2Proof.Machine
end

