-- ==== Sys2Proof/Machine/Flags.lean ====
section
/-! DEFINITION. The condition state: the values of SKIP (10_state.md R22), the comparisons that set
it (44_conditionals.md R230 to R239) and the pending composite's context. There are no other flags
(10_state.md R27). -/

namespace Sys2Proof.Machine

/-- `SKIP_UNTIL_ENDIF` = -2 (00_scope.md R6). -/
def skipUntilEndif : Word := -2
/-- `SKIP_ALL` = -3 (R6). -/
def skipAll : Word := -3

/-- `SetSkip(s)`: 1, 2, -2, -3 for subtype 0, 1, 2, 3 (R231). -/
def onFalseSkip : OnFalse → Word
  | .skipOne => 1
  | .skipTwo => 2
  | .untilEndif => skipUntilEndif
  | .skipAll => skipAll

/-- `S_w(v)` (R239): two's complement at 32 bits; at 8 and 16 bits as SIGNED_NARROW says. -/
def signedView (cfg : Config) (w : Width) (v : Word) : Int :=
  match w, cfg.signedNarrow with
  | .word, _ => v.toInt
  | .half, .signAtWidth => (v.setWidth 16).toInt
  | .byte, .signAtWidth => (v.setWidth 8).toInt
  | .half, .zeroExtend => (v.setWidth 16).toNat
  | .byte, .zeroExtend => (v.setWidth 8).toNat

/-- `x == y` (R232). -/
def cmpEq (_ : Config) (_ : Width) (x y : Word) : Bool := decide (x = y)
/-- `x != y` (R233). -/
def cmpNe (_ : Config) (_ : Width) (x y : Word) : Bool := decide (x ≠ y)
/-- `S_w(x) < S_w(y)` (R234). -/
def cmpLts (cfg : Config) (w : Width) (x y : Word) : Bool :=
  decide (signedView cfg w x < signedView cfg w y)
/-- `S_w(x) > S_w(y)` (R235). -/
def cmpGts (cfg : Config) (w : Width) (x y : Word) : Bool :=
  decide (signedView cfg w x > signedView cfg w y)
/-- `x < y`, unsigned (R236). -/
def cmpLtu (_ : Config) (_ : Width) (x y : Word) : Bool := decide (x.toNat < y.toNat)
/-- `x > y`, unsigned (R237). -/
def cmpGtu (_ : Config) (_ : Width) (x y : Word) : Bool := decide (x.toNat > y.toNat)
/-- `(x & y) != 0` (R238). -/
def cmpAnd (_ : Config) (_ : Width) (x y : Word) : Bool := decide (x &&& y ≠ 0)

/-- `Conditional(a, d)` (R230, R231): read memory at `E` with the width of `size`, mask the value
word to that width, compare; SKIP is written only when the compare is false. -/
def conditional (cmp : Config → Width → Word → Word → Bool) (onFalse : OnFalse) (size : Size)
    (e d : Word) (s : State) : Out :=
  match memRead s.cfg s.mem e (sizeWidth size) with
  | .error f => .fault f
  | .ok x =>
    if cmp s.cfg (sizeWidth size) x (maskTo (sizeWidth size) d) then .next s
    else .next (s.setSkip (onFalseSkip onFalse))

/-- The context PEND gives an entry that is not skipped (40_sequencer.md R121, stages 2 to 4). -/
def pendContext : Pend → Context
  | .fillSlide => .fillSlide
  | .memCopy => .memCopy
  | .none => .dispatch

end Sys2Proof.Machine
end

