-- ==== Sys2Proof/Machine/Conditionals.lean ====
section
/-! DEFINITION. The seven conditionals (44_conditionals.md R232 to R238). -/

namespace Sys2Proof.Machine

/-- CEQ (R232): equal. -/
def execCeq (onFalse : OnFalse) (size : Size) (g : GcAddr) (value : Word) (s : State) : Out :=
  conditional cmpEq onFalse size (ea g) value s

/-- CNE (R233): not equal. -/
def execCne (onFalse : OnFalse) (size : Size) (g : GcAddr) (value : Word) (s : State) : Out :=
  conditional cmpNe onFalse size (ea g) value s

/-- CLTS (R234): signed less-than. -/
def execClts (onFalse : OnFalse) (size : Size) (g : GcAddr) (value : Word) (s : State) : Out :=
  conditional cmpLts onFalse size (ea g) value s

/-- CGTS (R235): signed greater-than. -/
def execCgts (onFalse : OnFalse) (size : Size) (g : GcAddr) (value : Word) (s : State) : Out :=
  conditional cmpGts onFalse size (ea g) value s

/-- CLTU (R236): unsigned less-than. -/
def execCltu (onFalse : OnFalse) (size : Size) (g : GcAddr) (value : Word) (s : State) : Out :=
  conditional cmpLtu onFalse size (ea g) value s

/-- CGTU (R237): unsigned greater-than. -/
def execCgtu (onFalse : OnFalse) (size : Size) (g : GcAddr) (value : Word) (s : State) : Out :=
  conditional cmpGtu onFalse size (ea g) value s

/-- CAND (R238): bitwise AND non-zero. -/
def execCand (onFalse : OnFalse) (size : Size) (g : GcAddr) (value : Word) (s : State) : Out :=
  conditional cmpAnd onFalse size (ea g) value s

end Sys2Proof.Machine
end

