-- ==== Sys2Proof/Machine/Guards.lean ====
section
/-! DEFINITION. The sequencer's own rows: ENDIF and SELFMOD (40_sequencer.md R124, R126), and the
master code (42_normal_codes.md R186). -/

namespace Sys2Proof.Machine

/-- ENDIF (R124): `SKIP <- 0`; the marker is consumed silently. -/
def execEndif (s : State) : Out := .next (s.setSkip 0)

/-- SELFMOD (R126): `raise Failure(ERR_SELF_MODIFY, a)`; no memory access. -/
def execSelfmod (top : BitVec 7) (low : BitVec 12) (value : Word) (s : State) : Out :=
  raiseFailure .selfModify (encode (.selfmod top low value)).cmd (encode (.selfmod top low value)) s

/-- MASTER (R186): `raise Failure(ERR_MASTER_CODE, a)`; no memory access. -/
def execMaster (size : Size) (g : GcAddr) (value : Word) (s : State) : Out :=
  raiseFailure .masterCode (encode (.master size g value)).cmd (encode (.master size g value)) s

end Sys2Proof.Machine
end

