-- ==== Sys2Proof/Machine/Float.lean ====
section
/-! DEFINITION. `F32_ADD_U32` (42_normal_codes.md R185). The default reading works on exact
integers: every finite binary32 value is a whole number of units of 2^-149, the sum is taken
exactly, and one rounding narrows it (round to nearest, ties to even; subnormals kept). -/

namespace Sys2Proof.Machine

/-- The bits of positive infinity. -/
def f32Infinity : Nat := 0x7F800000

/-- A NaN: exponent all ones, fraction not zero. -/
def isNaN (m : Word) : Bool := decide (f32Infinity < (m &&& 0x7FFFFFFF).toNat)

/-- An infinity of either sign. -/
def isInf (m : Word) : Bool := decide ((m &&& 0x7FFFFFFF).toNat = f32Infinity)

/-- The magnitude of a finite binary32 value in units of 2^-149, from its bits without the sign:
`frac` when the exponent is 0, `(2^23 + frac) * 2^(exp - 1)` otherwise. -/
def f32Units (bits : Nat) : Nat :=
  if bits < 2 ^ 23 then bits else (2 ^ 23 + bits % 2 ^ 23) * 2 ^ (bits / 2 ^ 23 - 1)

/-- The exact value of a finite binary32 word in units of 2^-149. -/
def f32Value (m : Word) : Int :=
  let u := f32Units (m &&& 0x7FFFFFFF).toNat
  if m.msb then -(u : Int) else u

/-- A magnitude in units of 2^-149 rounded to binary32, as bits without the sign. Below 2^24 units
it is exact. Above, the lowest bits that do not fit in 24 significant bits are rounded away, to
nearest and ties to even; the carry of the rounding runs into the exponent by itself, and what is
too large is infinity. -/
def f32Round (u : Nat) : Nat :=
  if u < 2 ^ 24 then u
  else
    let k := Nat.log2 u - 23
    let q := u / 2 ^ k
    let r := u % 2 ^ k
    let up := if 2 * r > 2 ^ k ∨ (2 * r = 2 ^ k ∧ q % 2 = 1) then 1 else 0
    min (k * 2 ^ 23 + q + up) f32Infinity

/-- A signed value in units of 2^-149 rounded to a binary32 word; an exact zero is +0. -/
def f32OfValue (v : Int) : Word :=
  BitVec.ofNat 32 (f32Round v.natAbs + if v < 0 then 2 ^ 31 else 0)

/-- `roundToF32(D as unsigned integer)`. -/
def f32OfU32 (d : Word) : Word := f32OfValue ((d.toNat * 2 ^ 149 : Nat) : Int)

/-- The bits of a NaN result: the free value of `k` where it is a NaN, and a NaN in any case
(R185: "a NaN whose bits are a draw"; entry 7). -/
def nanBits (k : Nat) : Word :=
  if isNaN (Config.freeNaN k) then Config.freeNaN k else 0x7FC00000

/-- The default reading where the memory word is no NaN: an infinity absorbs the addend, which is
always finite; otherwise the exact sum, rounded once. -/
def f32AddFinite (m d : Word) : Word :=
  if isInf m then m else f32OfValue (f32Value m + f32Value (f32OfU32 d))

/-- `F32_ADD_U32(m, D)`, and the number of NaN draws after it. -/
def f32AddU32 (cfg : Config) (k : Nat) (m d : Word) : Word × Nat :=
  match cfg.f32Add with
  | .other => (Config.f32AddOther m d, k)
  | .nearestEven => if isNaN m then (nanBits k, k + 1) else (f32AddFinite m d, k)

end Sys2Proof.Machine
end

