-- ==== Sys2Proof/Machine/NormalCodes.lean ====
section
/-! DEFINITION. The normal codes: RAM write and fill, write to pointer, add in place
(42_normal_codes.md R170 to R185). -/

namespace Sys2Proof.Machine

/-! ## RAM write and fill -/

/-- WR8 (R170): `repeat + 1` bytes from `E`, ascending. -/
def execWr8 (g : GcAddr) (reps : BitVec 24) (data : Byte) (s : State) : Out :=
  putMem s (fill s.cfg .byte reps.toNat (ea g) (data.setWidth 32) s.mem)

/-- WR16 (R171): `repeat + 1` half-words from `E`, ascending. -/
def execWr16 (g : GcAddr) (reps : BitVec 16) (data : BitVec 16) (s : State) : Out :=
  putMem s (fill s.cfg .half reps.toNat (ea g) (data.setWidth 32) s.mem)

/-- WR32 (R172): `MemWrite(E, 4, D)`. -/
def execWr32 (g : GcAddr) (data : Word) (s : State) : Out :=
  putMem s (memWrite s.cfg s.mem (ea g) .word data)

/-- WRF32 (R173): as WR32, the bits stored raw. -/
def execWrf32 (g : GcAddr) (data : Word) (s : State) : Out :=
  putMem s (memWrite s.cfg s.mem (ea g) .word data)

/-! ## Write to pointer -/

/-- PWR8 (R176): a byte at `P + (D >> 8)`. -/
def execPwr8 (g : GcAddr) (offset : BitVec 24) (data : Byte) (s : State) : Out :=
  pointerWrite .byte (ea g) (byteOffset offset) (data.setWidth 32) s

/-- PWR16 (R177): a half-word at `P + ((D >> 16) << 1)`. -/
def execPwr16 (g : GcAddr) (index : BitVec 16) (data : BitVec 16) (s : State) : Out :=
  pointerWrite .half (ea g) (halfOffset index) (data.setWidth 32) s

/-- PWR32 (R178): a word at `P`. -/
def execPwr32 (g : GcAddr) (data : Word) (s : State) : Out := pointerWrite .word (ea g) 0 data s

/-- PWRF32 (R179): as PWR32, with raw bits. -/
def execPwrf32 (g : GcAddr) (data : Word) (s : State) : Out := pointerWrite .word (ea g) 0 data s

/-! ## Add in place -/

/-- ADD8 (R182). -/
def execAdd8 (g : GcAddr) (addend : Word) (s : State) : Out := addInPlace .byte (ea g) addend s

/-- ADD16 (R183). -/
def execAdd16 (g : GcAddr) (addend : Word) (s : State) : Out := addInPlace .half (ea g) addend s

/-- ADD32 (R184). -/
def execAdd32 (g : GcAddr) (addend : Word) (s : State) : Out := addInPlace .word (ea g) addend s

/-- ADDF32 (R185): `m <- MemRead(E, 4)`, then `MemWrite(E, 4, F32_ADD_U32(m, D))`. -/
def execAddf32 (g : GcAddr) (addend : Word) (s : State) : Out :=
  match memRead s.cfg s.mem (ea g) .word with
  | .error f => .fault f
  | .ok m =>
    putMem (s.setNanDraws (f32AddU32 s.cfg s.nanDraws m addend).2)
      (memWrite s.cfg s.mem (ea g) .word (f32AddU32 s.cfg s.nanDraws m addend).1)

end Sys2Proof.Machine
end

