-- ==== Sys2Proof/Machine/ZeroCodes.lean ====
section
/-! DEFINITION. The zero-codes (41_zero_codes.md R150 to R156). -/

namespace Sys2Proof.Machine

/-- ZEND (R151): `return Success`. -/
def execZend (_low : BitVec 29) (s : State) : Out := returnSuccess s

/-- ZNORM (R152): a no-op. -/
def execZnorm (_low : BitVec 29) (s : State) : Out := .next s

/-- ZROW (R153): `raise Failure(ERR_UNSUPPORTED_ROW, 3)`. -/
def execZrow (low : BitVec 29) (s : State) : Out :=
  raiseFailure .unsupportedRow 3 (encode (.zrow low)) s

/-- ZUNK1 (R156): `raise Failure(ERR_UNKNOWN_ZCODE, 1)`. -/
def execZunk1 (low : BitVec 29) (s : State) : Out :=
  raiseFailure .unknownZcode 1 (encode (.zunk1 low)) s

/-- ZUNK5 (R156). -/
def execZunk5 (low : BitVec 29) (s : State) : Out :=
  raiseFailure .unknownZcode 5 (encode (.zunk5 low)) s

/-- ZUNK6 (R156). -/
def execZunk6 (low : BitVec 29) (s : State) : Out :=
  raiseFailure .unknownZcode 6 (encode (.zunk6 low)) s

/-- ZUNK7 (R156). -/
def execZunk7 (low : BitVec 29) (s : State) : Out :=
  raiseFailure .unknownZcode 7 (encode (.zunk7 low)) s

/-- ZFS8 (R154): `PEND <- FILL_SLIDE; VLAST <- d`, the whole value word. -/
def execZfs8 (t2 : BitVec 2) (addr : GcAddr) (s : State) : Out :=
  .next (s.setPending .fillSlide (encode (.zfs8 t2 addr)).value)

/-- ZFS16 (R154). -/
def execZfs16 (t2 : BitVec 2) (addr : GcAddr) (s : State) : Out :=
  .next (s.setPending .fillSlide (encode (.zfs16 t2 addr)).value)

/-- ZFS32 (R154). -/
def execZfs32 (t2 : BitVec 2) (addr : GcAddr) (s : State) : Out :=
  .next (s.setPending .fillSlide (encode (.zfs32 t2 addr)).value)

/-- ZMCPY (R155): `PEND <- MEM_COPY; VLAST <- d`. -/
def execZmcpy (t2 : BitVec 2) (addr : GcAddr) (s : State) : Out :=
  .next (s.setPending .memCopy (encode (.zmcpy t2 addr)).value)

end Sys2Proof.Machine
end

