-- ==== Sys2Proof/Machine/Dispatch.lean ====
section
/-! DEFINITION. One arm per constructor of `Instr` (40_sequencer.md R127 and the rows of R88). -/

namespace Sys2Proof.Machine

def exec (i : Instr) (s : State) : Host.Outcome State Fault Refusal :=
  match i with
  -- zero-codes, 41_zero_codes.md
  | .zend low => Sys2Proof.Machine.execZend low s
  | .zunk1 low => Sys2Proof.Machine.execZunk1 low s
  | .znorm low => Sys2Proof.Machine.execZnorm low s
  | .zrow low => Sys2Proof.Machine.execZrow low s
  | .zfs8 t2 addr => Sys2Proof.Machine.execZfs8 t2 addr s
  | .zfs16 t2 addr => Sys2Proof.Machine.execZfs16 t2 addr s
  | .zfs32 t2 addr => Sys2Proof.Machine.execZfs32 t2 addr s
  | .zmcpy t2 addr => Sys2Proof.Machine.execZmcpy t2 addr s
  | .zunk5 low => Sys2Proof.Machine.execZunk5 low s
  | .zunk6 low => Sys2Proof.Machine.execZunk6 low s
  | .zunk7 low => Sys2Proof.Machine.execZunk7 low s
  -- sequencer, 40_sequencer.md
  | .endif => Sys2Proof.Machine.execEndif s
  | .selfmod top low value => Sys2Proof.Machine.execSelfmod top low value s
  -- normal codes, 42_normal_codes.md
  | .wr8 g reps data => Sys2Proof.Machine.execWr8 g reps data s
  | .wr16 g reps data => Sys2Proof.Machine.execWr16 g reps data s
  | .wr32 g data => Sys2Proof.Machine.execWr32 g data s
  | .wrf32 g data => Sys2Proof.Machine.execWrf32 g data s
  | .pwr8 g offset data => Sys2Proof.Machine.execPwr8 g offset data s
  | .pwr16 g index data => Sys2Proof.Machine.execPwr16 g index data s
  | .pwr32 g data => Sys2Proof.Machine.execPwr32 g data s
  | .pwrf32 g data => Sys2Proof.Machine.execPwrf32 g data s
  | .add8 g addend => Sys2Proof.Machine.execAdd8 g addend s
  | .add16 g addend => Sys2Proof.Machine.execAdd16 g addend s
  | .add32 g addend => Sys2Proof.Machine.execAdd32 g addend s
  | .addf32 g addend => Sys2Proof.Machine.execAddf32 g addend s
  | .master size g value => Sys2Proof.Machine.execMaster size g value s
  -- conditionals, 44_conditionals.md
  | .ceq onFalse size g value => Sys2Proof.Machine.execCeq onFalse size g value s
  | .cne onFalse size g value => Sys2Proof.Machine.execCne onFalse size g value s
  | .clts onFalse size g value => Sys2Proof.Machine.execClts onFalse size g value s
  | .cgts onFalse size g value => Sys2Proof.Machine.execCgts onFalse size g value s
  | .cltu onFalse size g value => Sys2Proof.Machine.execCltu onFalse size g value s
  | .cgtu onFalse size g value => Sys2Proof.Machine.execCgtu onFalse size g value s
  | .cand onFalse size g value => Sys2Proof.Machine.execCand onFalse size g value s
  -- composites, 43_composites.md
  | .fsdata val valIncr writeNum addrIncr => Sys2Proof.Machine.execFsdata val valIncr writeNum addrIncr s
  | .mcdata top src ptr check bit15 numBytes => Sys2Proof.Machine.execMcdata top src ptr check bit15 numBytes s

end Sys2Proof.Machine
end

