-- ==== Sys2Proof/Machine/HostPass.lean ====
section
/-! DEFINITION. The host around the runs (60_exceptions.md R270 to R277): the per-tick pass and the
host operations. -/

namespace Sys2Proof.Machine

/-! ## The pass `run_all_active` (R272) -/

/-- The sequencer registers at the start of a run (10_state.md R30). -/
def State.freshRun (s : State) (c : Code) : State :=
  { s with code := c, idx := 0, skip := 0, pend := .none, vlast := 0, result := .running }

/-- The run of the code `c` starts; `todo` and `survivors` are the pass's lists. -/
def startRun (c : Code) (todo survivors : List Code) (s : State) : State :=
  { s.freshRun c with phase := .inPass todo survivors }

/-- The end of the pass: `ACTIVE <- survivors; LOG_LATCH <- set`. No code is being run and the
sequencer registers are discarded (10_state.md R29; entry 6). -/
def endPass (survivors : List Code) (s : State) : State :=
  { s.freshRun Code.empty with active := survivors, logLatch := true, phase := .idle }

/-- The next code of the pass starts, or the pass ends. -/
def nextCode (todo survivors : List Code) (s : State) : State :=
  match todo with
  | [] => endPass survivors s
  | c :: rest => startRun c rest survivors s

/-- `run_all_active` is called: the gate is sampled once (R271), then the first code starts. -/
def runAllActive (s : State) : State :=
  if s.cheatsEnabled then nextCode s.active [] s else s

/-- The value of USE_INTERNAL_LOG that a run reads: "a relaxed atomic flag", of which "reading a
stale value is acceptable" (R276). A stale value is one the flag has held, so until the flag first
changes there is no other; from then on the read is free (I11; entry 16). -/
def State.readLogFlag (s : State) : Bool :=
  xor s.useInternalLog (s.logFlagMoved && Config.freeStaleRead s.logDraws)

/-- The lines a run adds to SELF_LOG: free lines where it reads the flag as on (R280, I11). -/
def State.logLines (s : State) : List String :=
  if s.readLogFlag then Config.freeLogLines s.logDraws s.logLatch else []

/-- What a finished run has left in the logging state (R276, R280; entry 16). DESIGN CHOICE (entry
28): the spec does not say who adds lines while logging is on; here a finished run does, at its
hand-over, and no host operation, no start or end of a pass and no single entry does. -/
def State.logRun (s : State) : State :=
  { s with selfLog := s.selfLog ++ s.logLines, logDraws := s.logDraws + 1 }

/-- `emit Report(c.name, r.kind, r.info)` (R261). -/
def State.emitReport (s : State) (kind : FailKind) (info : FailInfo) : State :=
  { s with reports := s.reports ++ [⟨s.code.name, kind, info⟩] }

/-- A finished run is handed to the host (R272): a failing code is reported and dropped, any other
joins the survivors; then the pass goes on. -/
def retireRun (todo survivors : List Code) (s : State) : State :=
  match s.result with
  | .failure kind info => nextCode todo survivors (s.logRun.emitReport kind info)
  | .success => nextCode todo (survivors ++ [s.code]) s.logRun
  | .running => s

/-! ## Host operations between passes -/

/-- `apply_codes(new_list)` (R270), a no-op when the gate is closed (R271). -/
def applyCodes (newList : List Code) (s : State) : State :=
  if s.cheatsEnabled then { s with active := newList.filter (·.active), logLatch := false } else s

/-- `add_code(code)` (R273). -/
def addCode (c : Code) (s : State) : State :=
  if s.cheatsEnabled && c.active then { s with active := s.active ++ [c] } else s

/-- `enable_self_logging(on)` (R276), a mutating operation the gate closes (R271; entry 17). A flag
that changes has held both values (entry 16). -/
def enableSelfLogging (on : Bool) (s : State) : State :=
  if s.cheatsEnabled then
    { s with useInternalLog := on, logFlagMoved := s.logFlagMoved || on != s.useInternalLog }
  else s

/-- `clear_self_log()` (R276; entry 17). -/
def clearSelfLog (s : State) : State :=
  if s.cheatsEnabled then { s with selfLog := [] } else s

/-- One host operation, outside a pass (R275, R277). `get_self_log` answers the field SELF_LOG and
changes nothing; the guest may change any byte (entry 20). -/
def hostOp (op : HostOp) (s : State) : State :=
  match op with
  | .applyCodes newList => applyCodes newList s
  | .addCode c => addCode c s
  | .runAllActive => runAllActive s
  | .setCheatsEnabled on => { s with cheatsEnabled := on }
  | .enableSelfLogging on => enableSelfLogging on s
  | .getSelfLog => s
  | .clearSelfLog => clearSelfLog s
  | .guestWrite addr value => s.setMem (Memory.set s.mem addr.toNat value)

/-- Between passes: the next operation on the tape is performed; with an empty tape the machine
waits (entry 26). -/
def hostStep (s : State) : State :=
  match s.inputs with
  | [] => s
  | op :: rest => hostOp op { s with inputs := rest }

end Sys2Proof.Machine
end

