-- ==== Sys2Proof/Machine/Sequencer.lean ====
section
/-! DEFINITION. One entry step in its four stages (40_sequencer.md R121), one step of a run (R120),
and how an entry is put where the next step takes it. -/

namespace Sys2Proof.Machine

/-- An entry in a context (30_encoding.md R88, rows 3 to 9): decoded and executed, or, where it is
not the marker sought, skipped with no effect (R124). -/
def runEntry (c : Context) (e : Entry) (s : State) : Out :=
  match decode s.cfg.selfmodBasis c e with
  | .ok i => exec i s
  | .error .notTheMarker => .next s

/-- `Step(a, d)` (R121). Stage 1 is skip handling (R122 to R124); stages 2 to 4 are the context that
PEND gives. A SKIP outside R23's values, which no run reaches, falls through stage 1 as R121's text
has it (entry 18). -/
def entryStep (e : Entry) (s : State) : Out :=
  if 0 < s.skip.toInt then .next (s.setSkip (s.skip - 1))
  else if s.skip = skipAll then returnSuccess s
  else if s.skip = skipUntilEndif then runEntry .untilEndif e s
  else runEntry (pendContext s.pend) e s

/-- One step of `Run(ops)` (R120): the entry at IDX, after `IDX <- IDX + 1`; at the end of the list
`return Success`. -/
def runStep (s : State) : Out :=
  match s.code.ops[s.idx]? with
  | none => returnSuccess s
  | some e => entryStep e s.advance

/-- Inside a pass: a run that is RUNNING takes a step; one that has ended is handed to the host. -/
def passStep (todo survivors : List Code) (s : State) : Out :=
  match s.result with
  | .running => runStep s
  | .success => .next (retireRun todo survivors s)
  | .failure _ _ => .next (retireRun todo survivors s)

/-- `ops` with the entry `e` at index `i`, padded with no-ops (ZNORM, R152) where it is shorter. -/
def putEntry (ops : List Entry) (i : Nat) (e : Entry) : List Entry :=
  ops.take i ++ List.replicate (i - ops.length) endifMarker ++ e :: ops.drop (i + 1)

/-- The pass a run is in: the one in progress, or else one with no other code. -/
def Phase.entered : Phase → Phase
  | .idle => .inPass [] []
  | .inPass todo survivors => .inPass todo survivors

/-- `s` about to take the entry `e` as an instruction: `e` stands at IDX, a run is in progress, and
neither a skip nor a composite is pending (entry 13). -/
def State.withEntry (s : State) (e : Entry) : State :=
  { s with
    code := { s.code with ops := putEntry s.code.ops s.idx e }
    skip := 0
    pend := .none
    result := .running
    phase := s.phase.entered }

end Sys2Proof.Machine
end

