-- ==== Sys2Proof/Machine/Step.lean ====
section
/-! DEFINITION. The step of the machine, and the host's way to place an instruction. -/

namespace Sys2Proof.Machine

/-- One step: inside a pass the sequencer or the executor moves (40_sequencer.md R120,
60_exceptions.md R272); between passes the next host operation is performed (R277). -/
def step (s : State) : Host.Outcome State Fault Refusal :=
  match s.phase with
  | .idle => .next (hostStep s)
  | .inPass todo survivors => passStep todo survivors s

/-- `s` with the instruction of a table word where the very next step takes it (entry 13). -/
def State.withFetchWord (s : State) (nbits w : Nat) : State :=
  s.withEntry (entryOfTableWord nbits w)

end Sys2Proof.Machine
end

