-- ==== Sys2Proof/Safety.lean ====
section
/-! DEFINITION. The terms claims use: when a run is taking entries, which bytes an access touches,
and the invariants of the machine. -/

namespace Sys2Proof.Machine

/-- A run is taking entries: a pass is in progress and RESULT is RUNNING (10_state.md R28). -/
def State.Running (s : State) : Prop :=
  (∃ todo survivors, s.phase = .inPass todo survivors) ∧ s.result = .running

/-- The entry at IDX (40_sequencer.md R120). -/
def State.entryAt (s : State) : Option Entry := s.code.ops[s.idx]?

/-- `x` is one of the `n` bytes from address `a` on, addresses modulo 2^32
(20_memory.md R56, R57). -/
def InBytes (a : Word) (n : Nat) (x : Word) : Prop := ∃ k < n, x = a + BitVec.ofNat 32 k

/-- The bytes from `a` on hold the low `8n` bits of `v`, big-endian (20_memory.md R53, R54). -/
def Holds (m : Memory) (a : Word) (w : Width) (v : Word) : Prop :=
  ∀ k < w.bytes, Memory.byteAt m (a + BitVec.ofNat 32 k) = v.extractLsb' (8 * (w.bytes - 1 - k)) 8

/-- Every byte outside `P` reads in `m'` as it reads in `m`. -/
def SameOutside (P : Word → Prop) (m m' : Memory) : Prop :=
  ∀ x, ¬ P x → Memory.byteAt m' x = Memory.byteAt m x

/-- The outcome of one store: a next state in which the bytes from `a` on hold `v`, every other
byte of memory is as before, and nothing but memory has changed. -/
def StoresAt (s : State) (o : Out) (a : Word) (w : Width) (v : Word) : Prop :=
  ∃ m, o = .next { s with mem := m } ∧ Memory.wf m = true ∧ Holds m a w v ∧
    SameOutside (InBytes a w.bytes) s.mem m

/-- The address of the `i`-th write of a fill or a slide that starts at `a` and moves by `d`. -/
def stepAddr (a d : Word) (i : Nat) : Word := a + BitVec.ofNat 32 i * d

/-- The bytes of the first `n` writes of such a loop. -/
def SlideBytes (a d : Word) (w : Width) (n : Nat) (x : Word) : Prop :=
  ∃ i < n, InBytes (stepAddr a d i) w.bytes x

/-- Memory after `n` writes of such a loop, of `v`, `v + dv`, ...: each byte of a write holds its value
unless a later write touches it (43_composites.md R200 to R203). -/
def SlideHolds (m : Memory) (a d : Word) (w : Width) (v dv : Word) (n : Nat) : Prop :=
  ∀ i < n, ∀ k < w.bytes,
    (∀ j < n, i < j → ¬ InBytes (stepAddr a d j) w.bytes (stepAddr a d i + BitVec.ofNat 32 k)) →
    Memory.byteAt m (stepAddr a d i + BitVec.ofNat 32 k) =
      (stepAddr v dv i).extractLsb' (8 * (w.bytes - 1 - k)) 8

/-- The outcome of one conditional whose compare is true exactly when `r` holds
(44_conditionals.md R230, R231): where its operand has a meaning, the state is left as it is or SKIP
alone is set from the subtype; otherwise the access is the model's fault. -/
def Compares (i : Instr) (onFalse : OnFalse) (size : Size) (g : GcAddr) (r : Prop) (s : State) :
    Prop :=
  (accessible s.cfg (ea g) (sizeWidth size).bytes = true →
    (r → exec i s = .next s) ∧ (¬ r → exec i s = .next { s with skip := onFalseSkip onFalse })) ∧
  (accessible s.cfg (ea g) (sizeWidth size).bytes = false →
    exec i s = .fault (.outOfWindow (ea g) s.mem))

/-- The operand a conditional reads at `E` (44_conditionals.md R230). -/
def condOperand (s : State) (size : Size) (g : GcAddr) : Word :=
  loadBE s.mem (ea g) (sizeWidth size).bytes

/-- Memory `m` after `n` bytes were copied over memory `m0` (43_composites.md R210, R211). Only
destination bytes have changed. A source byte that no earlier byte of the copy has overwritten
arrives as it was; one that the copy itself wrote arrives as written. -/
def BytesCopied (m0 m : Memory) (src dest : Word) (n : Nat) : Prop :=
  SameOutside (InBytes dest n) m0 m ∧
  ∀ i < n,
    ((∀ j < i, src + BitVec.ofNat 32 i ≠ dest + BitVec.ofNat 32 j) →
      Memory.byteAt m (dest + BitVec.ofNat 32 i) = Memory.byteAt m0 (src + BitVec.ofNat 32 i)) ∧
    (∀ j < i, src + BitVec.ofNat 32 i = dest + BitVec.ofNat 32 j →
      Memory.byteAt m (dest + BitVec.ofNat 32 i) = Memory.byteAt m (dest + BitVec.ofNat 32 j))

/-- The `i`-th byte of a copy can be read and written. -/
def CopyAccessible (cfg : Config) (src dest : Word) (i : Nat) : Prop :=
  accessible cfg (src + BitVec.ofNat 32 i) 1 = true ∧
    accessible cfg (dest + BitVec.ofNat 32 i) 1 = true

/-- The outcome of a copy of `n` bytes: where all of them are accessible, a next state in which PEND
is NONE and memory is as copied; where the `j`-th is the first that is not, the model's fault at the
source byte, or else at the destination byte, after `j` bytes were copied. -/
def CopyOutcome (s : State) (o : Out) (src dest : Word) (n : Nat) : Prop :=
  ((∀ i < n, CopyAccessible s.cfg src dest i) →
    ∃ m, o = .next { s with pend := .none, mem := m } ∧ Memory.wf m = true ∧
      BytesCopied s.mem m src dest n) ∧
  (∀ j < n, (∀ i < j, CopyAccessible s.cfg src dest i) → ¬ CopyAccessible s.cfg src dest j →
    ∃ m, BytesCopied s.mem m src dest j ∧
      o = .fault (.outOfWindow
        (if accessible s.cfg (src + BitVec.ofNat 32 j) 1 then dest + BitVec.ofNat 32 j
         else src + BitVec.ofNat 32 j) m))

/-- The seven conditionals (44_conditionals.md R232 to R238). -/
def isConditional : Instr → Bool
  | .ceq _ _ _ _ | .cne _ _ _ _ | .clts _ _ _ _ | .cgts _ _ _ _ | .cltu _ _ _ _ | .cgtu _ _ _ _
  | .cand _ _ _ _ => true
  | .zend _ | .zunk1 _ | .znorm _ | .zrow _ | .zfs8 _ _ | .zfs16 _ _ | .zfs32 _ _ | .zmcpy _ _
  | .zunk5 _ | .zunk6 _ | .zunk7 _ | .endif | .selfmod _ _ _
  | .wr8 _ _ _ | .wr16 _ _ _ | .wr32 _ _ | .wrf32 _ _
  | .pwr8 _ _ _ | .pwr16 _ _ _ | .pwr32 _ _ | .pwrf32 _ _
  | .add8 _ _ | .add16 _ _ | .add32 _ _ | .addf32 _ _ | .master _ _ _
  | .fsdata _ _ _ _ | .mcdata _ _ _ _ _ _ => false

/-- The zero-code 4 selectors (41_zero_codes.md R154, R155). -/
def isSelector : Instr → Bool
  | .zfs8 _ _ | .zfs16 _ _ | .zfs32 _ _ | .zmcpy _ _ => true
  | .zend _ | .zunk1 _ | .znorm _ | .zrow _ | .zunk5 _ | .zunk6 _ | .zunk7 _ | .endif
  | .selfmod _ _ _
  | .wr8 _ _ _ | .wr16 _ _ _ | .wr32 _ _ | .wrf32 _ _
  | .pwr8 _ _ _ | .pwr16 _ _ _ | .pwr32 _ _ | .pwrf32 _ _
  | .add8 _ _ | .add16 _ _ | .add32 _ _ | .addf32 _ _ | .master _ _ _
  | .ceq _ _ _ _ | .cne _ _ _ _ | .clts _ _ _ _ | .cgts _ _ _ _ | .cltu _ _ _ _ | .cgtu _ _ _ _
  | .cand _ _ _ _ | .fsdata _ _ _ _ | .mcdata _ _ _ _ _ _ => false

/-- The follow-ups of a composite (43_composites.md R200, R210). -/
def isFollowUp (i : Instr) : Bool :=
  i.context == .fillSlide || i.context == .memCopy

/-- The instructions that write memory (20_memory.md R58). -/
def writesMemory : Instr → Bool
  | .wr8 _ _ _ | .wr16 _ _ _ | .wr32 _ _ | .wrf32 _ _
  | .pwr8 _ _ _ | .pwr16 _ _ _ | .pwr32 _ _ | .pwrf32 _ _
  | .add8 _ _ | .add16 _ _ | .add32 _ _ | .addf32 _ _
  | .fsdata _ _ _ _ | .mcdata _ _ _ _ _ _ => true
  | .zend _ | .zunk1 _ | .znorm _ | .zrow _ | .zfs8 _ _ | .zfs16 _ _ | .zfs32 _ _ | .zmcpy _ _
  | .zunk5 _ | .zunk6 _ | .zunk7 _ | .endif | .selfmod _ _ _ | .master _ _ _
  | .ceq _ _ _ _ | .cne _ _ _ _ | .clts _ _ _ _ | .cgts _ _ _ _ | .cltu _ _ _ _ | .cgtu _ _ _ _
  | .cand _ _ _ _ => false

/-- The instructions that may end the run (41_zero_codes.md R151, R153, R156; 40_sequencer.md R126;
42_normal_codes.md R186; 43_composites.md R204, R210). -/
def mayEndRun : Instr → Bool
  | .zend _ | .zunk1 _ | .zrow _ | .zunk5 _ | .zunk6 _ | .zunk7 _ | .selfmod _ _ _ | .master _ _ _
  | .fsdata _ _ _ _ | .mcdata _ _ _ _ _ _ => true
  | .znorm _ | .zfs8 _ _ | .zfs16 _ _ | .zfs32 _ _ | .zmcpy _ _ | .endif
  | .wr8 _ _ _ | .wr16 _ _ _ | .wr32 _ _ | .wrf32 _ _
  | .pwr8 _ _ _ | .pwr16 _ _ _ | .pwr32 _ _ | .pwrf32 _ _
  | .add8 _ _ | .add16 _ _ | .add32 _ _ | .addf32 _ _
  | .ceq _ _ _ _ | .cne _ _ _ _ | .clts _ _ _ _ | .cgts _ _ _ _ | .cltu _ _ _ _ | .cgtu _ _ _ _
  | .cand _ _ _ _ => false

/-- The values SKIP takes in a run (10_state.md R23). -/
def SkipLegal (v : Word) : Prop := v = skipAll ∨ v = skipUntilEndif ∨ v = 0 ∨ v = 1 ∨ v = 2

/-- What holds between any two steps. -/
structure State.Inv (s : State) : Prop where
  /-- Memory is in its canonical form. -/
  mem_wf : Memory.wf s.mem = true
  /-- SKIP is one of R23's five values. -/
  skip_legal : SkipLegal s.skip
  /-- A pending composite is never skipped (10_state.md R26). -/
  pend_skip : s.pend ≠ .none → s.skip = 0
  /-- A pending composite came from a zero-code 4 selector (30_encoding.md R85). -/
  pend_selector : s.pend ≠ .none → s.vlast.extractLsb' 29 3 = 4
  /-- A pending fill-and-slide has size 0, 1 or 2 (43_composites.md R204). -/
  fill_size : s.pend = .fillSlide → cmdSize s.vlast ≠ 3
  /-- A pending memory copy has `sel = 3` (30_encoding.md R85). -/
  copy_size : s.pend = .memCopy → cmdSize s.vlast = 3
  /-- IDX is at most `len(ops)` (10_state.md R21). -/
  idx_le : s.idx ≤ s.code.ops.length
  /-- A failure names an entry of the code, and is never the unreachable kind 6
  (60_exceptions.md R260, R261). -/
  failure_named : ∀ kind info, s.result = .failure kind info →
    kind ≠ .invalidSize ∧ s.code.ops[info.index]? = some info.entry

/-- Inside a pass ACTIVE is the codes already run, the code being run and the codes still to run,
and the survivors stand among the codes already run, in their order (60_exceptions.md R272, R274). -/
def State.PassInv (s : State) : Prop :=
  ∀ todo survivors, s.phase = .inPass todo survivors →
    ∃ done, s.active = done ++ s.code :: todo ∧ survivors.Sublist done

/-- `s` with the logging state left out (60_exceptions.md R276). -/
def State.eraseLog (s : State) : State :=
  { s with useInternalLog := false, logLatch := false, selfLog := [], logFlagMoved := false,
           logDraws := 0 }

/-- Steps that surely bring a pass in state `s` to its end: the entries left, the end of the list
and the hand-over, and the same for every code still to run (70_reset_and_hazards.md R305). -/
def passBound (s : State) (todo : List Code) : Nat :=
  (s.code.ops.length - s.idx + 2) + (todo.map fun c => c.ops.length + 2).sum

end Sys2Proof.Machine
end

