-- ==== Sys2Proof/WellFormed.lean ====
section
/-! DEFINITION. Which terms of `Instr` are instructions the decoder can answer: an entry with
`cmd_addr = 0` is a zero-code and never a WR8 (30_encoding.md R84), and an entry the guard catches
is SELFMOD and never a normal code or a conditional (R88, row 6). -/

namespace Sys2Proof

/-- The guard lets the instruction's own command word pass. -/
def Instr.unguarded (basis : SelfmodBasis) (i : Instr) : Bool :=
  !selfModHit basis (encode i).cmd

/-- Well-formed instructions; the guard's basis is a parameter (40_sequencer.md R126). -/
def Instr.wf (basis : SelfmodBasis) (i : Instr) : Bool :=
  match i with
  | .zend _ | .zunk1 _ | .znorm _ | .zrow _ | .zfs8 _ _ | .zfs16 _ _ | .zfs32 _ _ | .zmcpy _ _
  | .zunk5 _ | .zunk6 _ | .zunk7 _ | .endif | .fsdata _ _ _ _ | .mcdata _ _ _ _ _ _ => true
  | .selfmod _ _ _ => selfModHit basis (encode i).cmd
  | .wr8 g _ _ => g != 0 && i.unguarded basis
  | .wr16 _ _ _ | .wr32 _ _ | .wrf32 _ _
  | .pwr8 _ _ _ | .pwr16 _ _ _ | .pwr32 _ _ | .pwrf32 _ _
  | .add8 _ _ | .add16 _ _ | .add32 _ _ | .addf32 _ _ | .master _ _ _
  | .ceq _ _ _ _ | .cne _ _ _ _ | .clts _ _ _ _ | .cgts _ _ _ _
  | .cltu _ _ _ _ | .cgtu _ _ _ _ | .cand _ _ _ _ => i.unguarded basis

end Sys2Proof
end

