-- ==== Sys2Proof/Certificates/Slice0/Obligations.lean ====
section
/-! DEFINITION. The statements for the provers. Each docstring names the part of spec/ it rests on. -/

open Sys2Proof Sys2Proof.Machine

/-- Reset: run-start registers, empty active set, logging off, the parameters at their defaults.
Derived: 10_state.md section 4, 70_reset_and_hazards.md section 1, 92_eei_decisions.md D2, D20,
00_scope.md section 3.
The register values and the host's are the spec's own choice (D2, D20); that the registers hold
their run-start values before a run exists is the model's choice (entry 6). -/
def Obligations.ResetIsTheStateAfterProcessStart : Prop :=
  State.reset.idx = 0 ∧ State.reset.skip = 0 ∧ State.reset.pend = .none ∧ State.reset.vlast = 0 ∧
  State.reset.result = .running ∧ State.reset.active = [] ∧ State.reset.useInternalLog = false ∧
  State.reset.logLatch = false ∧ State.reset.selfLog = [] ∧ State.reset.phase = .idle ∧
  State.reset.cfg = ⟨0x81800000, .modelFault, .signAtWidth, .nearestEven, .gcaddr⟩

/-- The reset state meets the machine's invariant and the pass's invariant. Derived: 10_state.md
sections 3, 4, 60_exceptions.md section 4. -/
def Obligations.ResetMeetsTheInvariants : Prop :=
  State.reset.Inv ∧ State.reset.PassInv

/-- Words of the spec's own decode tables decode to the instructions the tables name. Derived:
95_test_vectors.md section 2.1, 95_test_vectors.md section 2.2, 30_encoding.md section 4. -/
def Obligations.WordsFromTheSpecDecode : Prop :=
  decodeTableWord 64 0x00100000_00000AFF = some (.wr8 0x100000 0x0A 0xFF) ∧
  decodeTableWord 64 0x02000000_0002BEEF = some (.wr16 0 2 0xBEEF) ∧
  decodeTableWord 64 0x44003000_CAFEBABE = some (.pwr32 0x3000 0xCAFEBABE) ∧
  decodeTableWord 64 0x86600000_00000001 = some (.addf32 0x600000 1) ∧
  decodeTableWord 64 0xC4291234_00000000 = some (.master .s32 0x291234 0) ∧
  decodeTableWord 64 0x4A200000_00001234 = some (.ceq .skipTwo .s16 0x200000 0x1234) ∧
  decodeTableWord 64 0x7E123456_00000000 = some (.cand .skipTwo .f32 0x123456 0) ∧
  decodeTableWord 64 0x04002500_00000001 = some (.selfmod 2 0x500 1) ∧
  decodeTableWord 64 0x00000000_98100000 = some (.zfs8 3 0x100000) ∧
  decodeTableWord 64 0x00000000_5FFFFFFF = some (.znorm 0x1FFFFFFF)

/-- A step of a run executes the entry at IDX, decoded in its context, after IDX has advanced by one.
Derived: 40_sequencer.md sections 1, 3, 5, 30_encoding.md section 4. -/
def Obligations.StepRunsTheDecodedInstruction : Prop :=
  ∀ (s : State) (e : Entry) (i : Instr), s.Running → s.entryAt = some e →
    i.wf s.cfg.selfmodBasis = true →
    ((s.skip = 0 ∧ decode s.cfg.selfmodBasis (pendContext s.pend) e = .ok i) ∨
      (s.skip = skipUntilEndif ∧ decode s.cfg.selfmodBasis .untilEndif e = .ok i)) →
    step s = exec i { s with idx := s.idx + 1 }

/-- A table word placed by withFetchWord is the instruction that the very next step executes. Derived:
40_sequencer.md section 1, 30_encoding.md section 1.
For every state with the default guard basis and every table word that decodes to i, the next step
of the state with that word placed is exec of i with IDX advanced (the placing is the model's own,
entry 13). -/
def Obligations.PlacedWordIsTheNextInstruction : Prop :=
  ∀ (s : State) (nbits w : Nat) (i : Instr), s.cfg.selfmodBasis = .gcaddr →
    decodeTableWord nbits w = some i →
    step (s.withFetchWord nbits w) = exec i { s.withFetchWord nbits w with idx := s.idx + 1 }

/-- Outside the marker search every entry decodes, in it the marker alone; decoding loses no bit.
Derived: 30_encoding.md sections 1, 4, 40_sequencer.md section 2.
R82 speaks of one word; that an entry is decoded in a context, with the marker search as the
exception, is read from R88 and R124 (entry 12, DEDUCED).
That the encoding is the very entry taken is what the model's failure record rests on (entry 24,
DEDUCED). -/
def Obligations.DecodingIsTotalOutsideTheMarkerSearch : Prop :=
  (∀ (b : SelfmodBasis) (c : Context) (e : Entry), c ≠ .untilEndif ∨ e = endifMarker →
    ∃ i, decode b c e = .ok i) ∧
  (∀ (b : SelfmodBasis) (e : Entry), e ≠ endifMarker →
    decode b .untilEndif e = .error .notTheMarker) ∧
  (∀ (b : SelfmodBasis) (c : Context) (e : Entry) (i : Instr), decode b c e = .ok i →
    encode i = e ∧ i.wf b = true ∧ i.context = c)

/-- Decode and encode agree: every well-formed instruction decodes from its own words, all operands
kept. Derived: 30_encoding.md sections 1 to 5. -/
def Obligations.DecodeUndoesEncode : Prop :=
  ∀ (b : SelfmodBasis) (i : Instr), i.wf b = true → decode b i.context (encode i) = .ok i

/-- EA is gcaddr ORed with 0x80000000, lies in 0x80000000 to 0x81FFFFFF, and ignores bits [31:25].
Stated: R83. -/
def Obligations.EffectiveAddressIsGcaddrInTheCachedRange : Prop :=
  (∀ w : Word, eaWord w = (w &&& 0x01FFFFFF) ||| 0x80000000 ∧ eaWord w = ea (cmdGcaddr w) ∧
    (eaWord w).toNat = 0x80000000 + (cmdGcaddr w).toNat ∧
    0x80000000 ≤ (eaWord w).toNat ∧ (eaWord w).toNat ≤ 0x81FFFFFF) ∧
  (∀ v w : Word, cmdGcaddr v = cmdGcaddr w → eaWord v = eaWord w) ∧
  (∀ g : GcAddr, ea g = g.setWidth 32 ||| 0x80000000)

/-- MemRead answers its bytes big-endian at any alignment, and is a model fault outside the window.
Derived: 20_memory.md sections 2, 3, 92_eei_decisions.md D3, D5.
Accessible means in the window, or OOW_POLICY flat (the spec's own choice D5). -/
def Obligations.LoadsAreBigEndian : Prop :=
  ∀ (cfg : Config) (m : Memory) (a : Word) (w : Width),
    (accessible cfg a w.bytes = true ↔
      (0x80000000 ≤ a.toNat ∧ a.toNat + w.bytes ≤ cfg.ramEnd.toNat) ∨ cfg.oowPolicy = .flat) ∧
    (accessible cfg a w.bytes = false → memRead cfg m a w = .error (.outOfWindow a m)) ∧
    (accessible cfg a w.bytes = true → memRead cfg m a w = .ok (
      match w with
      | .byte => (Memory.byteAt m a).setWidth 32
      | .half => (Memory.byteAt m a ++ Memory.byteAt m (a + 1)).setWidth 32
      | .word => Memory.byteAt m a ++ Memory.byteAt m (a + 1) ++ Memory.byteAt m (a + 2) ++
          Memory.byteAt m (a + 3)))

/-- MemWrite puts the low bytes of its value big-endian at its address and changes no other byte.
Derived: 20_memory.md sections 2, 3, 92_eei_decisions.md D3, D5. -/
def Obligations.StoresAreBigEndian : Prop :=
  ∀ (cfg : Config) (m : Memory) (a v : Word) (w : Width), Memory.wf m = true →
    (accessible cfg a w.bytes = false → memWrite cfg m a w v = .error (.outOfWindow a m)) ∧
    (accessible cfg a w.bytes = true → ∃ m', memWrite cfg m a w v = .ok m' ∧
      Memory.wf m' = true ∧ Holds m' a w v ∧ SameOutside (InBytes a w.bytes) m m')

/-- A read after a write of the same width at the same address answers the value, cut to the width.
Derived: 20_memory.md sections 3, 6, 8. -/
def Obligations.LoadAfterStoreReadsTheValue : Prop :=
  ∀ (cfg : Config) (m m' : Memory) (a v : Word) (w : Width), Memory.wf m = true →
    memWrite cfg m a w v = .ok m' →
    memRead cfg m' a w = .ok (maskTo w v) ∧
    (maskTo w v).toNat = v.toNat % 2 ^ (8 * w.bytes) ∧
    ∀ x, ¬ InBytes a w.bytes x → loadBE m' x 1 = loadBE m x 1

/-- The only fault of an instruction is an access that leaves the RAM window under model_fault.
Derived: 20_memory.md section 4, 92_eei_decisions.md D5, 93_implementation_defined.md I1. -/
def Obligations.FaultsAreOutOfWindowAccesses : Prop :=
  ∀ (i : Instr) (s : State) (f : Fault), exec i s = .fault f →
    s.cfg.oowPolicy = .modelFault ∧
    ∃ a m n, f = .outOfWindow a m ∧ (n = 1 ∨ n = 2 ∨ n = 4) ∧ inWindow s.cfg a n = false

/-- No instruction is ever refused, and under OOW_POLICY flat every one answers a next state. Derived:
20_memory.md section 4, 30_encoding.md section 4, 92_eei_decisions.md D5. -/
def Obligations.EveryInstructionRunsUnderFlat : Prop :=
  (∀ (i : Instr) (s : State) (r : Refusal), exec i s ≠ .refused r) ∧
  (∀ (i : Instr) (s : State), s.cfg.oowPolicy = .flat → ∃ t, exec i s = .next t)

/-- Under model_fault no step of a run changes a byte outside the RAM window. Derived: 20_memory.md
section 4, 92_eei_decisions.md D5. -/
def Obligations.OutOfWindowBytesNeverChange : Prop :=
  ∀ s t : State, s.Running → Memory.wf s.mem = true → s.cfg.oowPolicy = .modelFault →
    step s = .next t → ∀ x, inWindow s.cfg x 1 = false → Memory.byteAt t.mem x = Memory.byteAt s.mem x

/-- While SKIP is positive an entry is skipped: SKIP goes down by one and nothing else happens.
Stated: R122. -/
def Obligations.CountedSkipHasNoOtherEffect : Prop :=
  ∀ (s : State) (e : Entry), s.Running → s.entryAt = some e → 0 < s.skip.toInt →
    step s = .next { s with idx := s.idx + 1, skip := s.skip - 1 }

/-- With SKIP = n, exactly the next n entries have no effect. Derived: 40_sequencer.md sections 2, 6. -/
def Obligations.SkippedEntriesCountExactly : Prop :=
  ∀ (n : Nat) (s : State), s.Running → n < 2 ^ 31 → s.skip = BitVec.ofNat 32 n →
    s.idx + n ≤ s.code.ops.length →
    Host.Core.run Sys2Proof.core n s = .next { s with idx := s.idx + n, skip := 0 }

/-- While SKIP is SKIP_ALL the next step ends the run with SUCCESS. Derived: 40_sequencer.md section
2.
That the end of the list and the hand-over are steps of their own is the model's own cut of a pass
(entry 15, DESIGN CHOICE). -/
def Obligations.SkipAllEndsTheRun : Prop :=
  ∀ s : State, s.Running → s.skip = skipAll →
    (∀ e, s.entryAt = some e → step s = .next { s with idx := s.idx + 1, result := .success }) ∧
    (s.entryAt = none → step s = .next { s with result := .success }) ∧
    (∀ t, Host.Core.run Sys2Proof.core 2 s = .next t → t.mem = s.mem)

/-- While SKIP is SKIP_UNTIL_ENDIF entries are skipped up to the first endif marker, which is
consumed. Derived: 40_sequencer.md section 2.
The clause for a list without a marker is an inference R124 marks as its own ('[derived: from rule
R120]').
That the end of the list is a step of its own is the model's own cut of a pass (entry 15, DESIGN
CHOICE). -/
def Obligations.SkipUntilEndifEndsAtTheFirstMarker : Prop :=
  ∀ (n : Nat) (s : State), s.Running → s.skip = skipUntilEndif →
    (∀ k < n, ∃ e, s.code.ops[s.idx + k]? = some e ∧ e ≠ ⟨0, 0x40000000⟩) →
    Host.Core.run Sys2Proof.core n s = .next { s with idx := s.idx + n } ∧
    (s.code.ops[s.idx + n]? = some ⟨0, 0x40000000⟩ →
      Host.Core.run Sys2Proof.core (n + 1) s = .next { s with idx := s.idx + n + 1, skip := 0 }) ∧
    (s.code.ops[s.idx + n]? = none →
      Host.Core.run Sys2Proof.core (n + 1) s = .next { s with idx := s.idx + n, result := .success })

/-- At the end of the list the run ends with SUCCESS, whatever is pending. Derived: 40_sequencer.md
sections 1, 6, 92_eei_decisions.md D16.
In a running run with no entry at IDX the step sets RESULT to SUCCESS and changes nothing else,
whatever SKIP and PEND hold (that pending state does not matter is the spec's own choice D16).
That the end of the list is a step of its own is the model's own cut of a pass (entry 15, DESIGN
CHOICE). -/
def Obligations.ListEndIsSuccess : Prop :=
  ∀ s : State, s.Running → s.entryAt = none → step s = .next { s with result := .success }

/-- With a composite pending, the next entry is its operands, whatever its bits. Derived:
40_sequencer.md section 3, 30_encoding.md section 5. -/
def Obligations.FollowUpIsConsumedAsOperands : Prop :=
  ∀ (s : State) (e : Entry), s.Running → s.entryAt = some e → s.skip = 0 →
    (s.pend = .fillSlide → step s = exec (.fsdata e.cmd (e.value.extractLsb' 24 8)
      (e.value.extractLsb' 16 8) (e.value.extractLsb' 0 16)) { s with idx := s.idx + 1 }) ∧
    (s.pend = .memCopy → step s = exec (.mcdata (e.cmd.extractLsb' 25 7) (e.cmd.extractLsb' 0 25)
      (e.value.extractLsb' 24 8) (e.value.extractLsb' 16 8) (e.value.extractLsb' 15 1)
      (e.value.extractLsb' 0 15)) { s with idx := s.idx + 1 }) ∧
    (s.pend ≠ .none → ∀ t, step s = .next t →
      t.pend = .none ∧ t.skip = 0 ∧ t.vlast = s.vlast ∧ t.idx = s.idx + 1)

/-- An entry that reaches the guard with its address in [0x2000, 0x3000) fails and touches no memory.
Derived: 40_sequencer.md section 4, 92_eei_decisions.md D13, 60_exceptions.md section 1.
The basis is open (D13, entry 10). -/
def Obligations.GuardStopsDirectTargets : Prop :=
  ∀ (s : State) (e : Entry), s.Running → s.entryAt = some e → s.skip = 0 → s.pend = .none →
    (match s.cfg.selfmodBasis with
      | .gcaddr => 0x2000 ≤ (cmdGcaddr e.cmd).toNat ∧ (cmdGcaddr e.cmd).toNat < 0x3000
      | .raw => 0x2000 ≤ e.cmd.toNat ∧ e.cmd.toNat < 0x3000) →
    step s = .next { s with
      idx := s.idx + 1, result := .failure .selfModify ⟨e.cmd, s.idx, e⟩ }

/-- ZEND ends the run with SUCCESS, ZNORM does nothing, ENDIF sets SKIP to 0. Derived:
41_zero_codes.md, ZEND and ZNORM, 40_sequencer.md section 2. -/
def Obligations.EndNormAndEndifComplete : Prop :=
  ∀ (low : BitVec 29) (s : State),
    exec (.zend low) s = .next { s with result := .success } ∧
    exec (.znorm low) s = .next s ∧
    exec .endif s = .next { s with skip := 0 }

/-- SELFMOD fails with ERR_SELF_MODIFY, a master code of any size with ERR_MASTER_CODE, both with the
command word. Derived: 40_sequencer.md section 4, 42_normal_codes.md section 4, 60_exceptions.md
sections 1, 2. -/
def Obligations.SelfmodAndMasterCodeFail : Prop :=
  (∀ (top : BitVec 7) (low : BitVec 12) (v : Word) (s : State), exec (.selfmod top low v) s =
    .next (s.setResult (.failure .selfModify
      ⟨(top ++ 2#13 ++ low : Word), s.idx - 1, ⟨(top ++ 2#13 ++ low : Word), v⟩⟩))) ∧
  (∀ (z : Size) (g : GcAddr) (v : Word) (s : State), exec (.master z g v) s =
    .next (s.setResult (.failure .masterCode
      ⟨cmdWord 3 0 z.bits g, s.idx - 1, ⟨cmdWord 3 0 z.bits g, v⟩⟩)))

/-- ZROW and the unknown zero-codes fail with their kind and their zcode, and touch nothing else.
Derived: 41_zero_codes.md, ZROW and ZUNK1 to ZUNK7, 60_exceptions.md sections 1, 2. -/
def Obligations.UnsupportedZeroCodesFail : Prop :=
  ∀ (low : BitVec 29) (s : State),
    exec (.zrow low) s = .next (s.setResult (.failure .unsupportedRow
      ⟨3, s.idx - 1, ⟨0, (3#3 ++ low : Word)⟩⟩)) ∧
    exec (.zunk1 low) s = .next (s.setResult (.failure .unknownZcode
      ⟨1, s.idx - 1, ⟨0, (1#3 ++ low : Word)⟩⟩)) ∧
    exec (.zunk5 low) s = .next (s.setResult (.failure .unknownZcode
      ⟨5, s.idx - 1, ⟨0, (5#3 ++ low : Word)⟩⟩)) ∧
    exec (.zunk6 low) s = .next (s.setResult (.failure .unknownZcode
      ⟨6, s.idx - 1, ⟨0, (6#3 ++ low : Word)⟩⟩)) ∧
    exec (.zunk7 low) s = .next (s.setResult (.failure .unknownZcode
      ⟨7, s.idx - 1, ⟨0, (7#3 ++ low : Word)⟩⟩))

/-- A selector sets PEND, keeps its whole value word in VLAST, and does nothing else. Derived:
41_zero_codes.md, ZFS8 to ZMCPY, 30_encoding.md section 2. -/
def Obligations.SelectorsSetThePendingComposite : Prop :=
  ∀ (t2 : BitVec 2) (addr : GcAddr) (s : State), ∃ v8 v16 v32 vc : Word,
    exec (.zfs8 t2 addr) s = .next { s with pend := .fillSlide, vlast := v8 } ∧
    exec (.zfs16 t2 addr) s = .next { s with pend := .fillSlide, vlast := v16 } ∧
    exec (.zfs32 t2 addr) s = .next { s with pend := .fillSlide, vlast := v32 } ∧
    exec (.zmcpy t2 addr) s = .next { s with pend := .memCopy, vlast := vc } ∧
    v8.extractLsb' 25 2 = 0 ∧ v16.extractLsb' 25 2 = 1 ∧ v32.extractLsb' 25 2 = 2 ∧
    vc.extractLsb' 25 2 = 3 ∧
    ∀ v, v = v8 ∨ v = v16 ∨ v = v32 ∨ v = vc →
      v.extractLsb' 29 3 = 4 ∧ v.extractLsb' 27 2 = t2 ∧ v.extractLsb' 0 25 = addr

/-- WR8 writes its byte at E, E+1, ..., E+repeat and nowhere else. Stated: R170. -/
def Obligations.Wr8FillsRepeatPlusOneBytes : Prop :=
  ∀ (g : GcAddr) (reps : BitVec 24) (data : Byte) (s : State), Memory.wf s.mem = true →
    ((∀ i ≤ reps.toNat, accessible s.cfg (stepAddr (ea g) 1 i) 1 = true) →
      ∃ m, exec (.wr8 g reps data) s = .next { s with mem := m } ∧ Memory.wf m = true ∧
        (∀ i ≤ reps.toNat, Holds m (stepAddr (ea g) 1 i) .byte (data.setWidth 32)) ∧
        SameOutside (SlideBytes (ea g) 1 .byte (reps.toNat + 1)) s.mem m) ∧
    (∀ j ≤ reps.toNat, (∀ i < j, accessible s.cfg (stepAddr (ea g) 1 i) 1 = true) →
      accessible s.cfg (stepAddr (ea g) 1 j) 1 = false →
      ∃ m, exec (.wr8 g reps data) s = .fault (.outOfWindow (stepAddr (ea g) 1 j) m) ∧
        (∀ i < j, Holds m (stepAddr (ea g) 1 i) .byte (data.setWidth 32)) ∧
        SameOutside (SlideBytes (ea g) 1 .byte j) s.mem m)

/-- WR16 writes its half-word at E, E+2, ..., E+2*repeat and nowhere else. Stated: R171. -/
def Obligations.Wr16FillsRepeatPlusOneHalfWords : Prop :=
  ∀ (g : GcAddr) (reps data : BitVec 16) (s : State), Memory.wf s.mem = true →
    ((∀ i ≤ reps.toNat, accessible s.cfg (stepAddr (ea g) 2 i) 2 = true) →
      ∃ m, exec (.wr16 g reps data) s = .next { s with mem := m } ∧ Memory.wf m = true ∧
        (∀ i ≤ reps.toNat, Holds m (stepAddr (ea g) 2 i) .half (data.setWidth 32)) ∧
        SameOutside (SlideBytes (ea g) 2 .half (reps.toNat + 1)) s.mem m) ∧
    (∀ j ≤ reps.toNat, (∀ i < j, accessible s.cfg (stepAddr (ea g) 2 i) 2 = true) →
      accessible s.cfg (stepAddr (ea g) 2 j) 2 = false →
      ∃ m, exec (.wr16 g reps data) s = .fault (.outOfWindow (stepAddr (ea g) 2 j) m) ∧
        (∀ i < j, Holds m (stepAddr (ea g) 2 i) .half (data.setWidth 32)) ∧
        SameOutside (SlideBytes (ea g) 2 .half j) s.mem m)

/-- WR32 and WRF32 store the raw 32-bit value at E, at any alignment. Stated: R172, R173. -/
def Obligations.WordWritesStoreTheirValue : Prop :=
  ∀ (g : GcAddr) (data : Word) (s : State), Memory.wf s.mem = true →
    ∀ i, i = .wr32 g data ∨ i = .wrf32 g data →
      (accessible s.cfg (ea g) 4 = true → StoresAt s (exec i s) (ea g) .word data) ∧
      (accessible s.cfg (ea g) 4 = false → exec i s = .fault (.outOfWindow (ea g) s.mem))

/-- PWR8 writes its byte at P + offset modulo 2^32, with P the pointer at E, unchecked. Stated: R176. -/
def Obligations.Pwr8WritesAtPointerPlusOffset : Prop :=
  ∀ (g : GcAddr) (offset : BitVec 24) (data : Byte) (s : State), Memory.wf s.mem = true →
    let target := loadBE s.mem (ea g) 4 + offset.setWidth 32
    (accessible s.cfg (ea g) 4 = true → accessible s.cfg target 1 = true →
      StoresAt s (exec (.pwr8 g offset data) s) target .byte (data.setWidth 32)) ∧
    (accessible s.cfg (ea g) 4 = false → exec (.pwr8 g offset data) s = .fault (.outOfWindow (ea g) s.mem)) ∧
    (accessible s.cfg (ea g) 4 = true → accessible s.cfg target 1 = false →
      exec (.pwr8 g offset data) s = .fault (.outOfWindow target s.mem))

/-- PWR16 writes its half-word at P + 2*index modulo 2^32, with P the pointer at E, unchecked. Stated:
R177. -/
def Obligations.Pwr16WritesAtPointerPlusTwiceIndex : Prop :=
  ∀ (g : GcAddr) (index data : BitVec 16) (s : State), Memory.wf s.mem = true →
    let target := loadBE s.mem (ea g) 4 + BitVec.ofNat 32 (2 * index.toNat)
    (accessible s.cfg (ea g) 4 = true → accessible s.cfg target 2 = true →
      StoresAt s (exec (.pwr16 g index data) s) target .half (data.setWidth 32)) ∧
    (accessible s.cfg (ea g) 4 = false → exec (.pwr16 g index data) s = .fault (.outOfWindow (ea g) s.mem)) ∧
    (accessible s.cfg (ea g) 4 = true → accessible s.cfg target 2 = false →
      exec (.pwr16 g index data) s = .fault (.outOfWindow target s.mem))

/-- PWR32 and PWRF32 store the raw 32-bit value at the pointer found at E. Stated: R178, R179. -/
def Obligations.PointerWordWritesStoreAtThePointer : Prop :=
  ∀ (g : GcAddr) (data : Word) (s : State), Memory.wf s.mem = true →
    let target := loadBE s.mem (ea g) 4
    ∀ i, i = .pwr32 g data ∨ i = .pwrf32 g data →
    (accessible s.cfg (ea g) 4 = true → accessible s.cfg target 4 = true →
      StoresAt s (exec i s) target .word data) ∧
    (accessible s.cfg (ea g) 4 = false → exec i s = .fault (.outOfWindow (ea g) s.mem)) ∧
    (accessible s.cfg (ea g) 4 = true → accessible s.cfg target 4 = false →
      exec i s = .fault (.outOfWindow target s.mem))

/-- ADD8, ADD16 and ADD32 replace the operand at E by the sum modulo the width, and nothing else.
Stated: R182, R183, R184. -/
def Obligations.AddsWrapAtTheirWidth : Prop :=
  ∀ (g : GcAddr) (d : Word) (s : State) (w : Width) (i : Instr), Memory.wf s.mem = true →
    (w = .byte ∧ i = .add8 g d) ∨ (w = .half ∧ i = .add16 g d) ∨ (w = .word ∧ i = .add32 g d) →
    (accessible s.cfg (ea g) w.bytes = true →
      ∃ m, exec i s = .next { s with mem := m } ∧ Memory.wf m = true ∧
        (loadBE m (ea g) w.bytes).toNat =
          ((loadBE s.mem (ea g) w.bytes).toNat + d.toNat) % 2 ^ (8 * w.bytes) ∧
        SameOutside (InBytes (ea g) w.bytes) s.mem m) ∧
    (accessible s.cfg (ea g) w.bytes = false → exec i s = .fault (.outOfWindow (ea g) s.mem))

/-- ADDF32 replaces the word at E by the sum, rounded once, of its value and the converted addend.
Derived: 42_normal_codes.md, ADDF32, 92_eei_decisions.md D8, 93_implementation_defined.md I2, I18.
The default reading is the spec's general knowledge (D8) and the uninterpreted function stands for
every other (entry 8, PRESUMED).
The draw count, which goes up by one for a NaN, and the free bits of that NaN are the model's own
form of a draw (entry 7, DESIGN CHOICE). -/
def Obligations.FloatAddStoresTheSum : Prop :=
  ∀ (g : GcAddr) (d : Word) (s : State), Memory.wf s.mem = true →
    let x := loadBE s.mem (ea g) 4
    let v := f32Value x + f32Value (f32OfU32 d)
    (accessible s.cfg (ea g) 4 = true →
      (s.cfg.f32Add = .nearestEven → isNaN x = false →
        ∃ r, StoresAt s (exec (.addf32 g d) s) (ea g) .word r ∧
          (isInf x = true → r = x) ∧
          (isInf x = false →
            r.toNat = f32Round v.natAbs + (if v < 0 then 2 ^ 31 else 0) ∧ (v = 0 → r = 0))) ∧
      (s.cfg.f32Add = .nearestEven → isNaN x = true →
        ∃ r, isNaN r = true ∧ StoresAt { s with nanDraws := s.nanDraws + 1 }
          (exec (.addf32 g d) s) (ea g) .word r) ∧
      (s.cfg.f32Add = .other →
        StoresAt s (exec (.addf32 g d) s) (ea g) .word (Config.f32AddOther x d))) ∧
    (accessible s.cfg (ea g) 4 = false →
      exec (.addf32 g d) s = .fault (.outOfWindow (ea g) s.mem))

/-- The model's binary32 rounding is exact on binary32 values, nearest elsewhere, ties to even.
Derived: 42_normal_codes.md, ADDF32, 92_eei_decisions.md D8, 93_implementation_defined.md I18.
This is the spec's default reading (D8), general knowledge by its own mark (entry 8). -/
def Obligations.FloatRoundingIsNearestTiesToEven : Prop :=
  (∀ b < f32Infinity, f32Round (f32Units b) = b) ∧
  (∀ u b, f32Round u < f32Infinity → b < f32Infinity →
    ((f32Units (f32Round u) : Int) - u).natAbs ≤ ((f32Units b : Int) - u).natAbs ∧
    (b ≠ f32Round u →
      ((f32Units (f32Round u) : Int) - u).natAbs = ((f32Units b : Int) - u).natAbs →
      f32Round u % 2 = 0)) ∧
  (∀ u, f32Round u = f32Infinity ↔ (2 ^ 25 - 1) * 2 ^ 252 ≤ u)

/-- Each of the seven conditionals leaves the state alone if its compare is true, else sets SKIP.
Stated: R231. -/
def Obligations.ConditionalsWriteOnlySkip : Prop :=
  (∀ (i : Instr) (s t : State), isConditional i = true → exec i s = .next t →
    t = s ∨ t = s.setSkip
      (if cmdSubtype (encode i).cmd = 0 then 1 else if cmdSubtype (encode i).cmd = 1 then 2
       else if cmdSubtype (encode i).cmd = 2 then -2 else -3)) ∧
  (∀ (o : OnFalse) (z : Size) (g : GcAddr) (v : Word) (s : State),
    let x := condOperand s z g
    let y := maskTo (sizeWidth z) v
    let signed := signedView s.cfg (sizeWidth z)
    (onFalseSkip o).toInt =
      (match o with | .skipOne => 1 | .skipTwo => 2 | .untilEndif => -2 | .skipAll => -3) ∧
    Compares (.ceq o z g v) o z g (x = y) s ∧
    Compares (.cne o z g v) o z g (x ≠ y) s ∧
    Compares (.clts o z g v) o z g (signed x < signed y) s ∧
    Compares (.cgts o z g v) o z g (signed x > signed y) s ∧
    Compares (.cltu o z g v) o z g (x.toNat < y.toNat) s ∧
    Compares (.cgtu o z g v) o z g (x.toNat > y.toNat) s ∧
    Compares (.cand o z g v) o z g (x &&& y ≠ 0) s)

/-- CEQ skips unless the operand equals the masked value, CNE unless it differs. Stated: R232, R233. -/
def Obligations.EqualityComparesSkipOnFalse : Prop :=
  ∀ (o : OnFalse) (z : Size) (g : GcAddr) (v : Word) (s : State),
    Compares (.ceq o z g v) o z g
      ((condOperand s z g).toNat = v.toNat % 2 ^ (8 * (sizeWidth z).bytes)) s ∧
    Compares (.cne o z g v) o z g
      ((condOperand s z g).toNat ≠ v.toNat % 2 ^ (8 * (sizeWidth z).bytes)) s

/-- CLTU and CGTU compare the operand and the masked value as unsigned numbers. Stated: R236, R237. -/
def Obligations.UnsignedComparesSkipOnFalse : Prop :=
  ∀ (o : OnFalse) (z : Size) (g : GcAddr) (v : Word) (s : State),
    Compares (.cltu o z g v) o z g
      ((condOperand s z g).toNat < v.toNat % 2 ^ (8 * (sizeWidth z).bytes)) s ∧
    Compares (.cgtu o z g v) o z g
      ((condOperand s z g).toNat > v.toNat % 2 ^ (8 * (sizeWidth z).bytes)) s

/-- CAND is true when the operand and the masked value share a set bit. Stated: R238. -/
def Obligations.AndCompareTestsCommonBits : Prop :=
  ∀ (o : OnFalse) (z : Size) (g : GcAddr) (v : Word) (s : State),
    Compares (.cand o z g v) o z g
      (∃ j < 8 * (sizeWidth z).bytes, (condOperand s z g).getLsbD j = true ∧ v.getLsbD j = true) s

/-- At 32 bits and at the float size CLTS and CGTS compare as signed 32-bit integers under every
setting. Derived: 44_conditionals.md sections 2, 3. -/
def Obligations.SignedComparesAtFullWidth : Prop :=
  ∀ (o : OnFalse) (z : Size) (g : GcAddr) (v : Word) (s : State), z = .s32 ∨ z = .f32 →
    Compares (.clts o z g v) o z g ((condOperand s z g).toInt < v.toInt) s ∧
    Compares (.cgts o z g v) o z g ((condOperand s z g).toInt > v.toInt) s

/-- At 8 and 16 bits CLTS and CGTS follow SIGNED_NARROW: signed at the width, or zero-extended.
Derived: 44_conditionals.md section 3, 92_eei_decisions.md D7.
SIGNED_NARROW is open (D7, entry 9). -/
def Obligations.SignedComparesAtNarrowWidths : Prop :=
  ∀ (o : OnFalse) (g : GcAddr) (v : Word) (s : State),
    let x8 := Memory.byteAt s.mem (ea g)
    let x16 := Memory.byteAt s.mem (ea g) ++ Memory.byteAt s.mem (ea g + 1)
    (s.cfg.signedNarrow = .signAtWidth →
      Compares (.clts o .s8 g v) o .s8 g (x8.toInt < (v.extractLsb' 0 8).toInt) s ∧
      Compares (.cgts o .s8 g v) o .s8 g (x8.toInt > (v.extractLsb' 0 8).toInt) s ∧
      Compares (.clts o .s16 g v) o .s16 g (x16.toInt < (v.extractLsb' 0 16).toInt) s ∧
      Compares (.cgts o .s16 g v) o .s16 g (x16.toInt > (v.extractLsb' 0 16).toInt) s) ∧
    (s.cfg.signedNarrow = .zeroExtend →
      Compares (.clts o .s8 g v) o .s8 g (x8.toNat < (v.extractLsb' 0 8).toNat) s ∧
      Compares (.cgts o .s8 g v) o .s8 g (x8.toNat > (v.extractLsb' 0 8).toNat) s ∧
      Compares (.clts o .s16 g v) o .s16 g (x16.toNat < (v.extractLsb' 0 16).toNat) s ∧
      Compares (.cgts o .s16 g v) o .s16 g (x16.toNat > (v.extractLsb' 0 16).toNat) s)

/-- Fill-and-slide's steps are the sign-extended increments, the cursor's scaled by 1, 2 or 4.
Derived: 43_composites.md section 1, 30_encoding.md section 5, 92_eei_decisions.md D9. -/
def Obligations.SlideStepsAreSignExtended : Prop :=
  (∀ (w : Width) (ai : BitVec 16), (cursorStep w ai).toInt = w.bytes * ai.toInt) ∧
  (∀ vi : Byte, (valueStep vi).toInt = vi.toInt) ∧
  (∀ (v : Word) (j : Nat), (copyDest v).getLsbD j = (v.getLsbD j && j != 25 && j != 26))

/-- FSDATA makes write_num writes: value and cursor advance after each, and no other byte changes.
Derived: 43_composites.md section 1, 92_eei_decisions.md D4, D9.
write_num writes, not one more, is the spec's own choice D9. -/
def Obligations.FillAndSlideWritesItsSeries : Prop :=
  ∀ (val : Word) (vi wn : Byte) (ai : BitVec 16) (s : State) (w : Width),
    Memory.wf s.mem = true → cmdSize s.vlast ≠ 3 → w = sizeWidth (Size.ofBits (cmdSize s.vlast)) →
    let e := eaWord s.vlast
    let d := cursorStep w ai
    ((∀ i < wn.toNat, accessible s.cfg (stepAddr e d i) w.bytes = true) →
      ∃ m, exec (.fsdata val vi wn ai) s = .next { s with pend := .none, mem := m } ∧
        Memory.wf m = true ∧ SlideHolds m e d w val (valueStep vi) wn.toNat ∧
        SameOutside (SlideBytes e d w wn.toNat) s.mem m) ∧
    (∀ j < wn.toNat, (∀ i < j, accessible s.cfg (stepAddr e d i) w.bytes = true) →
      accessible s.cfg (stepAddr e d j) w.bytes = false →
      ∃ m, exec (.fsdata val vi wn ai) s = .fault (.outOfWindow (stepAddr e d j) m) ∧
        SlideHolds m e d w val (valueStep vi) j ∧ SameOutside (SlideBytes e d w j) s.mem m)

/-- MCDATA with bits [23:16] of its value not zero fails before any access, with those bits. Derived:
43_composites.md section 2, 60_exceptions.md sections 1, 2, 92_eei_decisions.md D11. -/
def Obligations.MemoryCopyChecksItsCountWord : Prop :=
  ∀ (top : BitVec 7) (src : GcAddr) (ptr check : Byte) (b : BitVec 1) (n : BitVec 15) (s : State),
    check ≠ 0 →
    let e := encode (.mcdata top src ptr check b n)
    exec (.mcdata top src ptr check b n) s = .next { s with
      pend := .none, result := .failure .memcpyBadValue ⟨e.value &&& 0x00FF0000, s.idx - 1, e⟩ }

/-- MCDATA in direct mode copies num_bytes bytes forward, each read just before it is written.
Derived: 43_composites.md section 2, 30_encoding.md section 5, 92_eei_decisions.md D6.
The order of the bytes is the spec's own choice D6. -/
def Obligations.MemoryCopyDirectMovesBytes : Prop :=
  ∀ (top : BitVec 7) (src : GcAddr) (b : BitVec 1) (n : BitVec 15) (s : State),
    Memory.wf s.mem = true →
    CopyOutcome s (exec (.mcdata top src 0 0 b n) s) (ea src) (copyDest s.vlast) n.toNat

/-- MCDATA in pointer mode reads the destination pointer, then the source pointer, and copies between
them. Derived: 43_composites.md section 2, 20_memory.md section 7, 92_eei_decisions.md D6. -/
def Obligations.MemoryCopyPointerModeChasesBothPointers : Prop :=
  ∀ (top : BitVec 7) (src : GcAddr) (ptr : Byte) (b : BitVec 1) (n : BitVec 15) (s : State),
    Memory.wf s.mem = true → ptr ≠ 0 →
    let dest := copyDest s.vlast
    let p := loadBE s.mem (ea src) 4
    let q := loadBE s.mem dest 4
    (accessible s.cfg dest 4 = true → accessible s.cfg (ea src) 4 = true →
      CopyOutcome s (exec (.mcdata top src ptr 0 b n) s) p q n.toNat) ∧
    (accessible s.cfg dest 4 = false →
      exec (.mcdata top src ptr 0 b n) s = .fault (.outOfWindow dest s.mem)) ∧
    (accessible s.cfg dest 4 = true → accessible s.cfg (ea src) 4 = false →
      exec (.mcdata top src ptr 0 b n) s = .fault (.outOfWindow (ea src) s.mem))

/-- Which instructions can change SKIP, PEND, VLAST, RESULT and memory, and that no other does.
Derived: 10_state.md sections 2, 3, 20_memory.md section 5, 41_zero_codes.md, 42_normal_codes.md,
43_composites.md section 1, 44_conditionals.md.
FSDATA stands in the list for RESULT only for its size-3 arm, which no run reaches (entry 22,
DEDUCED): in a run fill-and-slide cannot fail.
The NaN draw count is the model's own (entry 7, DESIGN CHOICE). -/
def Obligations.RegistersAreWrittenByTheirInstructionsAlone : Prop :=
  ∀ (i : Instr) (s t : State), exec i s = .next t →
    (t.skip ≠ s.skip → isConditional i = true ∨ (i = .endif ∧ t.skip = 0)) ∧
    (t.pend ≠ s.pend → isSelector i = true ∨ (isFollowUp i = true ∧ t.pend = .none)) ∧
    (t.vlast ≠ s.vlast → isSelector i = true) ∧
    (t.result ≠ s.result → mayEndRun i = true) ∧
    (t.mem ≠ s.mem → writesMemory i = true) ∧
    (t.nanDraws ≠ s.nanDraws → ∃ g d, i = .addf32 g d)

/-- A step of a run changes no entry, no active code, no gate, no log and no parameter. Derived:
10_state.md sections 5, 6, 20_memory.md section 9, 60_exceptions.md sections 3, 4.
That the end of the list is a step of its own is the model's own cut of a pass (entry 15, DESIGN
CHOICE).
The tape, the flag's history, the count of finished runs and the list of reports are the model's
own form (entries 14, 16 and 19, DESIGN CHOICE).
That a run adds to SELF_LOG at its hand-over only is the model's choice (entry 28, DESIGN CHOICE). -/
def Obligations.RunsLeaveTheHostAndTheCodeAlone : Prop :=
  ∀ s t : State, s.Running → step s = .next t →
    t.code = s.code ∧ t.active = s.active ∧ t.phase = s.phase ∧ t.cfg = s.cfg ∧
    t.cheatsEnabled = s.cheatsEnabled ∧ t.useInternalLog = s.useInternalLog ∧
    t.logLatch = s.logLatch ∧ t.selfLog = s.selfLog ∧ t.logFlagMoved = s.logFlagMoved ∧
    t.logDraws = s.logDraws ∧
    t.reports = s.reports ∧ t.inputs = s.inputs ∧
    t.idx = (if s.entryAt = none then s.idx else s.idx + 1)

/-- A failing step names its entry and its offending value, and has changed no memory. Derived:
60_exceptions.md sections 1, 2, 92_eei_decisions.md D11, D19. -/
def Obligations.FailuresArePrecise : Prop :=
  ∀ (s t : State) (k : FailKind) (info : FailInfo), s.Running → step s = .next t →
    t.result = .failure k info →
    info.index = s.idx ∧ s.entryAt = some info.entry ∧ t.mem = s.mem ∧ t.vlast = s.vlast ∧
    t.idx = s.idx + 1 ∧
    (k = .selfModify ∨ k = .masterCode → info.value = info.entry.cmd) ∧
    (k = .unsupportedRow → info.value = 3) ∧
    (k = .unknownZcode → info.value = info.entry.value >>> 29) ∧
    (k = .memcpyBadValue → info.value = info.entry.value &&& 0x00FF0000)

/-- Every step keeps the machine's invariant. Derived: 10_state.md section 3, 30_encoding.md section
2, 43_composites.md section 1, 60_exceptions.md section 1. -/
def Obligations.StepKeepsTheInvariant : Prop :=
  ∀ s t : State, s.Inv → step s = .next t → t.Inv

/-- Every step keeps the pass in order, and a pass that ends leaves a sublist of ACTIVE. Derived:
60_exceptions.md section 4, 92_eei_decisions.md D15.
The lists of codes still to run and of survivors stand in the model's own cut of a pass into steps
(entry 15, DESIGN CHOICE). -/
def Obligations.PassKeepsTheOrderOfSurvivors : Prop :=
  ∀ s t : State, s.PassInv → step s = .next t →
    t.PassInv ∧ (s.phase ≠ .idle → t.phase = .idle → t.active.Sublist s.active)

/-- A pass always ends within a bound known from its codes, or meets a model fault. Derived:
70_reset_and_hazards.md section 4.
The 2 for each code counts the model's own cut of a pass into steps, the end of a list and the
hand-over of a finished run (entry 15, DESIGN CHOICE). -/
def Obligations.EveryPassEnds : Prop :=
  ∀ (s : State) (todo survivors : List Code), s.phase = .inPass todo survivors →
    ∃ n ≤ passBound s todo,
      (∃ t : State, Host.Core.run Sys2Proof.core n s = .next t ∧ t.phase = .idle) ∨
      (∃ f : Fault, Host.Core.run Sys2Proof.core n s = .fault f)

/-- The logging state influences nothing but the logging state. Derived: 60_exceptions.md section 4,
93_implementation_defined.md I11.
The flag's history and the count of finished runs, erased too, are the model's own form of a stale
read and of free lines (entry 16, DESIGN CHOICE). -/
def Obligations.LoggingHasNoArchitecturalEffect : Prop :=
  ∀ s : State,
    (∀ t, step s = .next t → ∃ u, step s.eraseLog = .next u ∧ u.eraseLog = t.eraseLog) ∧
    (∀ f, step s = .fault f ↔ step s.eraseLog = .fault f)

/-- A finished run is kept or reported and dropped, and the next code starts with fresh registers.
Derived: 60_exceptions.md section 4, 10_state.md section 4, 92_eei_decisions.md D15.
The logging flag and the latch are unchanged, and SELF_LOG grows at its end by lines that are
free, none while the flag has been off since reset; when it may be read stale is the model's own
form (entry 16, DESIGN CHOICE).
That reports are kept as a list is the model's own form (entry 19, DESIGN CHOICE).
That a run adds its lines at its hand-over, and it alone, is the model's choice (entry 28, DESIGN
CHOICE).
That the hand-over is a step of its own is the model's own cut of a pass (entry 15, DESIGN
CHOICE). -/
def Obligations.FinishedRunsHandOverToTheNextCode : Prop :=
  ∀ (s : State) (c : Code) (rest survivors : List Code), s.phase = .inPass (c :: rest) survivors →
    s.result ≠ .running →
    ∃ t, step s = .next t ∧ t.code = c ∧ t.idx = 0 ∧ t.skip = 0 ∧ t.pend = .none ∧ t.vlast = 0 ∧
      t.result = .running ∧ t.mem = s.mem ∧ t.active = s.active ∧ t.logLatch = s.logLatch ∧
      t.useInternalLog = s.useInternalLog ∧
      (∃ lines, t.selfLog = s.selfLog ++ lines ∧
        (s.useInternalLog = false → s.logFlagMoved = false → lines = [])) ∧
      (s.result = .success →
        t.phase = .inPass rest (survivors ++ [s.code]) ∧ t.reports = s.reports) ∧
      (∀ k info, s.result = .failure k info →
        t.phase = .inPass rest survivors ∧ t.reports = s.reports ++ [⟨s.code.name, k, info⟩])

/-- At the end of the pass ACTIVE becomes the survivors and LOG_LATCH is set. Derived:
60_exceptions.md section 4, 92_eei_decisions.md D15.
Inside a pass with no code left and a RESULT that is not RUNNING, the step ends the pass: ACTIVE
is the survivors, with the last code if it succeeded and without it, but reported, if it failed;
LOG_LATCH is set; memory, the gate and the logging flag are unchanged; SELF_LOG grows at its end
by lines that are free, none while the flag has been off since reset (when it may be read stale is
the model's own form, entry 16, DESIGN CHOICE).
That reports are kept as a list is the model's own form (entry 19, DESIGN CHOICE).
That a run adds its lines at its hand-over, and the end of a pass none, is the model's choice
(entry 28, DESIGN CHOICE).
That the end of the pass is a step of its own is the model's own cut of a pass (entry 15, DESIGN
CHOICE). -/
def Obligations.PassEndKeepsTheSurvivors : Prop :=
  ∀ (s : State) (survivors : List Code), s.phase = .inPass [] survivors → s.result ≠ .running →
    ∃ t, step s = .next t ∧ t.phase = .idle ∧ t.logLatch = true ∧ t.mem = s.mem ∧
      t.cheatsEnabled = s.cheatsEnabled ∧ t.useInternalLog = s.useInternalLog ∧
      (∃ lines, t.selfLog = s.selfLog ++ lines ∧
        (s.useInternalLog = false → s.logFlagMoved = false → lines = [])) ∧
      (s.result = .success → t.active = survivors ++ [s.code] ∧ t.reports = s.reports) ∧
      (∀ k info, s.result = .failure k info →
        t.active = survivors ∧ t.reports = s.reports ++ [⟨s.code.name, k, info⟩])

/-- run_all_active starts the first active code with fresh registers, or ends at once with none.
Derived: 60_exceptions.md section 4, 10_state.md section 4.
Between passes, with the gate open and run_all_active next on the tape (the tape is the model's
own, entry 14, DESIGN CHOICE), the step starts the first code of ACTIVE with run-start registers
and the other codes still to run; with ACTIVE empty it stays empty, LOG_LATCH is set and no pass
is in progress.
That the call is a step of its own, which only starts the first code, is the model's own cut of a
pass (entry 15, DESIGN CHOICE).
That SELF_LOG is unchanged here is the model's choice (entry 28, DESIGN CHOICE). -/
def Obligations.TickStartsTheFirstActiveCode : Prop :=
  ∀ (s : State) (rest : List HostOp), s.phase = .idle → s.inputs = .runAllActive :: rest →
    s.cheatsEnabled = true →
    (∀ c cs, s.active = c :: cs → step s = .next { s with
      inputs := rest, code := c, idx := 0, skip := 0, pend := .none, vlast := 0,
      result := .running, phase := .inPass cs [] }) ∧
    (s.active = [] → ∃ t, step s = .next t ∧ t.active = [] ∧ t.logLatch = true ∧
      t.phase = .idle ∧ t.mem = s.mem ∧ t.inputs = rest)

/-- With CHEATS_ENABLED false, run_all_active, apply_codes, add_code and the log's mutations do
nothing. Derived: 60_exceptions.md section 4, 92_eei_decisions.md D25.
That the log's two mutating calls are gated is read from 'all mutating operations' (entry 17,
DEDUCED).
The tape is the model's own (entry 14, DESIGN CHOICE).
That no other party adds to SELF_LOG here is the model's choice (entry 28, DESIGN CHOICE). -/
def Obligations.ClosedGateStopsTheHost : Prop :=
  ∀ (s : State) (op : HostOp) (rest : List HostOp), s.phase = .idle → s.inputs = op :: rest →
    s.cheatsEnabled = false →
    (op = .runAllActive ∨ (∃ l, op = .applyCodes l) ∨ (∃ c, op = .addCode c) ∨
      (∃ b, op = .enableSelfLogging b) ∨ op = .clearSelfLog) →
    step s = .next { s with inputs := rest }

/-- apply_codes makes ACTIVE the codes whose flag is set, in order, and, as R270 infers, clears
LOG_LATCH. Derived: 60_exceptions.md section 4.
That LOG_LATCH is cleared is an inference R270 marks as its own ('[derived: for the clearing of
LOG_LATCH]', from the document's 'until the next `apply_codes`').
The tape is the model's own (entry 14, DESIGN CHOICE).
That SELF_LOG is unchanged here is the model's choice (entry 28, DESIGN CHOICE). -/
def Obligations.ApplyCodesReplacesTheActiveSet : Prop :=
  ∀ (s : State) (l : List Code) (rest : List HostOp), s.phase = .idle →
    s.inputs = .applyCodes l :: rest → s.cheatsEnabled = true →
    ∃ a : List Code, step s = .next { s with inputs := rest, active := a, logLatch := false } ∧
      a.Sublist l ∧ a.length = l.countP (fun c => c.active) ∧ ∀ c ∈ a, c.active = true

/-- add_code appends an active code to the end of ACTIVE, and does nothing otherwise. Derived:
60_exceptions.md section 4.
The tape is the model's own (entry 14, DESIGN CHOICE).
That SELF_LOG is unchanged here is the model's choice (entry 28, DESIGN CHOICE). -/
def Obligations.AddCodeAppendsAnActiveCode : Prop :=
  ∀ (s : State) (c : Code) (rest : List HostOp), s.phase = .idle →
    s.inputs = .addCode c :: rest →
    (s.cheatsEnabled = true → c.active = true →
      step s = .next { s with inputs := rest, active := s.active ++ [c] }) ∧
    (s.cheatsEnabled = false ∨ c.active = false → step s = .next { s with inputs := rest })

/-- Between passes the guest may change any byte, and that byte alone changes. Derived:
60_exceptions.md section 4, 20_memory.md section 6.
Between passes, taking a guest write from the tape (the model's own form of guest execution, entry
20) stores its byte at its address; every other byte and everything but memory and the tape is
unchanged, and memory stays canonical.
The tape is the model's own (entry 14, DESIGN CHOICE).
That SELF_LOG is unchanged here is the model's choice (entry 28, DESIGN CHOICE). -/
def Obligations.GuestWritesOneByte : Prop :=
  ∀ (s : State) (a : Word) (b : Byte) (rest : List HostOp), s.phase = .idle →
    s.inputs = .guestWrite a b :: rest → Memory.wf s.mem = true →
    ∃ m, step s = .next { s with inputs := rest, mem := m } ∧ Memory.wf m = true ∧
      Memory.byteAt m a = b ∧ ∀ x, x ≠ a → Memory.byteAt m x = Memory.byteAt s.mem x

/-- A word is read as binary32 by its sign, exponent and fraction, and an addend as an unsigned
integer. Derived: 42_normal_codes.md, ADDF32, 92_eei_decisions.md D8, 93_implementation_defined.md
I2, I18.
This is the spec's default reading (D8), general knowledge by its own mark (entry 8, PRESUMED). -/
def Obligations.FloatWordsAreReadByTheirFields : Prop :=
  (∀ m : Word,
    let exp := (m.extractLsb' 23 8).toNat
    let frac := (m.extractLsb' 0 23).toNat
    (isNaN m = true ↔ exp = 255 ∧ frac ≠ 0) ∧ (isInf m = true ↔ exp = 255 ∧ frac = 0) ∧
    (exp ≠ 255 →
      f32Units (m.toNat % 2 ^ 31) = (if exp = 0 then frac else (2 ^ 23 + frac) * 2 ^ (exp - 1)) ∧
      f32Value m = (if m.msb then -1 else 1) * (f32Units (m.toNat % 2 ^ 31) : Int))) ∧
  (∀ d : Word, (f32OfU32 d).toNat = f32Round (d.toNat * 2 ^ 149) ∧ (f32OfU32 d).msb = false ∧
    isNaN (f32OfU32 d) = false ∧ isInf (f32OfU32 d) = false ∧
    (d.toNat ≤ 2 ^ 24 → f32Value (f32OfU32 d) = d.toNat * 2 ^ 149))
end

