-- ==== Sys2Proof/Laws/Decode.lean ====
section
/-! SUPPORT. The fields of words that are written as concatenations of fields. -/

namespace Sys2Proof

/-- A word as the sum of its command fields. -/
theorem cmdWord_toNat (s : BitVec 2) (t : BitVec 3) (z : BitVec 2) (g : GcAddr) :
    (cmdWord s t z g).toNat = s.toNat * 2 ^ 30 + t.toNat * 2 ^ 27 + z.toNat * 2 ^ 25 + g.toNat := by
  have := s.isLt; have := t.isLt; have := z.isLt; have := g.isLt
  simp only [cmdWord, BitVec.toNat_append, Nat.shiftLeft_eq]
  rw [← Nat.shiftLeft_eq, ← Nat.shiftLeft_eq, ← Nat.shiftLeft_eq,
    ← Nat.shiftLeft_add_eq_or_of_lt (by omega), ← Nat.shiftLeft_add_eq_or_of_lt (by omega),
    ← Nat.shiftLeft_add_eq_or_of_lt (by omega)]
  simp only [Nat.shiftLeft_eq]
  omega

theorem cmdGcaddr_cmdWord (s : BitVec 2) (t : BitVec 3) (z : BitVec 2) (g : GcAddr) :
    cmdGcaddr (cmdWord s t z g) = g := by
  have := s.isLt; have := t.isLt; have := z.isLt; have := g.isLt
  apply BitVec.eq_of_toNat_eq
  rw [cmdGcaddr, BitVec.extractLsb'_toNat, cmdWord_toNat]
  simp only [Nat.shiftRight_eq_div_pow]
  omega

theorem cmdSize_cmdWord (s : BitVec 2) (t : BitVec 3) (z : BitVec 2) (g : GcAddr) :
    cmdSize (cmdWord s t z g) = z := by
  have := s.isLt; have := t.isLt; have := z.isLt; have := g.isLt
  apply BitVec.eq_of_toNat_eq
  rw [cmdSize, BitVec.extractLsb'_toNat, cmdWord_toNat]
  simp only [Nat.shiftRight_eq_div_pow]
  omega

theorem cmdType_cmdWord (s : BitVec 2) (t : BitVec 3) (z : BitVec 2) (g : GcAddr) :
    cmdType (cmdWord s t z g) = t := by
  have := s.isLt; have := t.isLt; have := z.isLt; have := g.isLt
  apply BitVec.eq_of_toNat_eq
  rw [cmdType, BitVec.extractLsb'_toNat, cmdWord_toNat]
  simp only [Nat.shiftRight_eq_div_pow]
  omega

theorem cmdSubtype_cmdWord (s : BitVec 2) (t : BitVec 3) (z : BitVec 2) (g : GcAddr) :
    cmdSubtype (cmdWord s t z g) = s := by
  have := s.isLt; have := t.isLt; have := z.isLt; have := g.isLt
  apply BitVec.eq_of_toNat_eq
  rw [cmdSubtype, BitVec.extractLsb'_toNat, cmdWord_toNat]
  simp only [Nat.shiftRight_eq_div_pow]
  omega

/-- A command word is its fields put together again. -/
theorem cmdWord_fields (w : Word) :
    cmdWord (cmdSubtype w) (cmdType w) (cmdSize w) (cmdGcaddr w) = w := by
  have := w.isLt
  apply BitVec.eq_of_toNat_eq
  rw [cmdWord_toNat]
  simp only [cmdSubtype, cmdType, cmdSize, cmdGcaddr, BitVec.extractLsb'_toNat,
    Nat.shiftRight_eq_div_pow]
  omega

@[simp] theorem Size.ofBits_bits (z : Size) : Size.ofBits z.bits = z := by cases z <;> decide

@[simp] theorem Size.bits_ofBits (b : BitVec 2) : (Size.ofBits b).bits = b := by
  revert b; decide

@[simp] theorem OnFalse.ofBits_bits (o : OnFalse) : OnFalse.ofBits o.bits = o := by
  cases o <;> decide

@[simp] theorem OnFalse.bits_ofBits (b : BitVec 2) : (OnFalse.ofBits b).bits = b := by
  revert b; decide

/-- Only while an endif marker is sought can an entry be no instruction. -/
theorem decode_error {b : SelfmodBasis} {c : Context} {e : Entry} {r : Reject}
    (h : decode b c e = .error r) : c = .untilEndif ∧ e ≠ endifMarker := by
  cases c <;> simp only [decode] at h
  · split at h
    · cases h
    · exact ⟨rfl, ‹_›⟩
  all_goals cases h

end Sys2Proof
end

