-- ==== Sys2Proof/Laws/State.lean ====
section
/-! SUPPORT. One lemma per field per update of State. -/

namespace Sys2Proof.Machine

variable (s : State)

/-! ## advance -/

@[simp] theorem State.advance_cfg : (s.advance).cfg = s.cfg := rfl
@[simp] theorem State.advance_idx : (s.advance).idx = s.idx + 1 := rfl
@[simp] theorem State.advance_skip : (s.advance).skip = s.skip := rfl
@[simp] theorem State.advance_pend : (s.advance).pend = s.pend := rfl
@[simp] theorem State.advance_vlast : (s.advance).vlast = s.vlast := rfl
@[simp] theorem State.advance_result : (s.advance).result = s.result := rfl
@[simp] theorem State.advance_code : (s.advance).code = s.code := rfl
@[simp] theorem State.advance_mem : (s.advance).mem = s.mem := rfl
@[simp] theorem State.advance_active : (s.advance).active = s.active := rfl
@[simp] theorem State.advance_phase : (s.advance).phase = s.phase := rfl
@[simp] theorem State.advance_cheatsEnabled : (s.advance).cheatsEnabled = s.cheatsEnabled := rfl
@[simp] theorem State.advance_useInternalLog : (s.advance).useInternalLog = s.useInternalLog := rfl
@[simp] theorem State.advance_logLatch : (s.advance).logLatch = s.logLatch := rfl
@[simp] theorem State.advance_selfLog : (s.advance).selfLog = s.selfLog := rfl
@[simp] theorem State.advance_reports : (s.advance).reports = s.reports := rfl
@[simp] theorem State.advance_inputs : (s.advance).inputs = s.inputs := rfl
@[simp] theorem State.advance_nanDraws : (s.advance).nanDraws = s.nanDraws := rfl
@[simp] theorem State.advance_logFlagMoved : (s.advance).logFlagMoved = s.logFlagMoved := rfl
@[simp] theorem State.advance_logDraws : (s.advance).logDraws = s.logDraws := rfl

/-! ## setSkip -/

@[simp] theorem State.setSkip_cfg (v : Word) : (s.setSkip v).cfg = s.cfg := rfl
@[simp] theorem State.setSkip_idx (v : Word) : (s.setSkip v).idx = s.idx := rfl
@[simp] theorem State.setSkip_skip (v : Word) : (s.setSkip v).skip = v := rfl
@[simp] theorem State.setSkip_pend (v : Word) : (s.setSkip v).pend = s.pend := rfl
@[simp] theorem State.setSkip_vlast (v : Word) : (s.setSkip v).vlast = s.vlast := rfl
@[simp] theorem State.setSkip_result (v : Word) : (s.setSkip v).result = s.result := rfl
@[simp] theorem State.setSkip_code (v : Word) : (s.setSkip v).code = s.code := rfl
@[simp] theorem State.setSkip_mem (v : Word) : (s.setSkip v).mem = s.mem := rfl
@[simp] theorem State.setSkip_active (v : Word) : (s.setSkip v).active = s.active := rfl
@[simp] theorem State.setSkip_phase (v : Word) : (s.setSkip v).phase = s.phase := rfl
@[simp] theorem State.setSkip_cheatsEnabled (v : Word) : (s.setSkip v).cheatsEnabled = s.cheatsEnabled := rfl
@[simp] theorem State.setSkip_useInternalLog (v : Word) : (s.setSkip v).useInternalLog = s.useInternalLog := rfl
@[simp] theorem State.setSkip_logLatch (v : Word) : (s.setSkip v).logLatch = s.logLatch := rfl
@[simp] theorem State.setSkip_selfLog (v : Word) : (s.setSkip v).selfLog = s.selfLog := rfl
@[simp] theorem State.setSkip_reports (v : Word) : (s.setSkip v).reports = s.reports := rfl
@[simp] theorem State.setSkip_inputs (v : Word) : (s.setSkip v).inputs = s.inputs := rfl
@[simp] theorem State.setSkip_nanDraws (v : Word) : (s.setSkip v).nanDraws = s.nanDraws := rfl
@[simp] theorem State.setSkip_logFlagMoved (v : Word) : (s.setSkip v).logFlagMoved = s.logFlagMoved := rfl
@[simp] theorem State.setSkip_logDraws (v : Word) : (s.setSkip v).logDraws = s.logDraws := rfl

/-! ## setPending -/

@[simp] theorem State.setPending_cfg (p : Pend) (v : Word) : (s.setPending p v).cfg = s.cfg := rfl
@[simp] theorem State.setPending_idx (p : Pend) (v : Word) : (s.setPending p v).idx = s.idx := rfl
@[simp] theorem State.setPending_skip (p : Pend) (v : Word) : (s.setPending p v).skip = s.skip := rfl
@[simp] theorem State.setPending_pend (p : Pend) (v : Word) : (s.setPending p v).pend = p := rfl
@[simp] theorem State.setPending_vlast (p : Pend) (v : Word) : (s.setPending p v).vlast = v := rfl
@[simp] theorem State.setPending_result (p : Pend) (v : Word) : (s.setPending p v).result = s.result := rfl
@[simp] theorem State.setPending_code (p : Pend) (v : Word) : (s.setPending p v).code = s.code := rfl
@[simp] theorem State.setPending_mem (p : Pend) (v : Word) : (s.setPending p v).mem = s.mem := rfl
@[simp] theorem State.setPending_active (p : Pend) (v : Word) : (s.setPending p v).active = s.active := rfl
@[simp] theorem State.setPending_phase (p : Pend) (v : Word) : (s.setPending p v).phase = s.phase := rfl
@[simp] theorem State.setPending_cheatsEnabled (p : Pend) (v : Word) : (s.setPending p v).cheatsEnabled = s.cheatsEnabled := rfl
@[simp] theorem State.setPending_useInternalLog (p : Pend) (v : Word) : (s.setPending p v).useInternalLog = s.useInternalLog := rfl
@[simp] theorem State.setPending_logLatch (p : Pend) (v : Word) : (s.setPending p v).logLatch = s.logLatch := rfl
@[simp] theorem State.setPending_selfLog (p : Pend) (v : Word) : (s.setPending p v).selfLog = s.selfLog := rfl
@[simp] theorem State.setPending_reports (p : Pend) (v : Word) : (s.setPending p v).reports = s.reports := rfl
@[simp] theorem State.setPending_inputs (p : Pend) (v : Word) : (s.setPending p v).inputs = s.inputs := rfl
@[simp] theorem State.setPending_nanDraws (p : Pend) (v : Word) : (s.setPending p v).nanDraws = s.nanDraws := rfl
@[simp] theorem State.setPending_logFlagMoved (p : Pend) (v : Word) : (s.setPending p v).logFlagMoved = s.logFlagMoved := rfl
@[simp] theorem State.setPending_logDraws (p : Pend) (v : Word) : (s.setPending p v).logDraws = s.logDraws := rfl

/-! ## clearPend -/

@[simp] theorem State.clearPend_cfg : (s.clearPend).cfg = s.cfg := rfl
@[simp] theorem State.clearPend_idx : (s.clearPend).idx = s.idx := rfl
@[simp] theorem State.clearPend_skip : (s.clearPend).skip = s.skip := rfl
@[simp] theorem State.clearPend_pend : (s.clearPend).pend = .none := rfl
@[simp] theorem State.clearPend_vlast : (s.clearPend).vlast = s.vlast := rfl
@[simp] theorem State.clearPend_result : (s.clearPend).result = s.result := rfl
@[simp] theorem State.clearPend_code : (s.clearPend).code = s.code := rfl
@[simp] theorem State.clearPend_mem : (s.clearPend).mem = s.mem := rfl
@[simp] theorem State.clearPend_active : (s.clearPend).active = s.active := rfl
@[simp] theorem State.clearPend_phase : (s.clearPend).phase = s.phase := rfl
@[simp] theorem State.clearPend_cheatsEnabled : (s.clearPend).cheatsEnabled = s.cheatsEnabled := rfl
@[simp] theorem State.clearPend_useInternalLog : (s.clearPend).useInternalLog = s.useInternalLog := rfl
@[simp] theorem State.clearPend_logLatch : (s.clearPend).logLatch = s.logLatch := rfl
@[simp] theorem State.clearPend_selfLog : (s.clearPend).selfLog = s.selfLog := rfl
@[simp] theorem State.clearPend_reports : (s.clearPend).reports = s.reports := rfl
@[simp] theorem State.clearPend_inputs : (s.clearPend).inputs = s.inputs := rfl
@[simp] theorem State.clearPend_nanDraws : (s.clearPend).nanDraws = s.nanDraws := rfl
@[simp] theorem State.clearPend_logFlagMoved : (s.clearPend).logFlagMoved = s.logFlagMoved := rfl
@[simp] theorem State.clearPend_logDraws : (s.clearPend).logDraws = s.logDraws := rfl

/-! ## setResult -/

@[simp] theorem State.setResult_cfg (r : RunResult) : (s.setResult r).cfg = s.cfg := rfl
@[simp] theorem State.setResult_idx (r : RunResult) : (s.setResult r).idx = s.idx := rfl
@[simp] theorem State.setResult_skip (r : RunResult) : (s.setResult r).skip = s.skip := rfl
@[simp] theorem State.setResult_pend (r : RunResult) : (s.setResult r).pend = s.pend := rfl
@[simp] theorem State.setResult_vlast (r : RunResult) : (s.setResult r).vlast = s.vlast := rfl
@[simp] theorem State.setResult_result (r : RunResult) : (s.setResult r).result = r := rfl
@[simp] theorem State.setResult_code (r : RunResult) : (s.setResult r).code = s.code := rfl
@[simp] theorem State.setResult_mem (r : RunResult) : (s.setResult r).mem = s.mem := rfl
@[simp] theorem State.setResult_active (r : RunResult) : (s.setResult r).active = s.active := rfl
@[simp] theorem State.setResult_phase (r : RunResult) : (s.setResult r).phase = s.phase := rfl
@[simp] theorem State.setResult_cheatsEnabled (r : RunResult) : (s.setResult r).cheatsEnabled = s.cheatsEnabled := rfl
@[simp] theorem State.setResult_useInternalLog (r : RunResult) : (s.setResult r).useInternalLog = s.useInternalLog := rfl
@[simp] theorem State.setResult_logLatch (r : RunResult) : (s.setResult r).logLatch = s.logLatch := rfl
@[simp] theorem State.setResult_selfLog (r : RunResult) : (s.setResult r).selfLog = s.selfLog := rfl
@[simp] theorem State.setResult_reports (r : RunResult) : (s.setResult r).reports = s.reports := rfl
@[simp] theorem State.setResult_inputs (r : RunResult) : (s.setResult r).inputs = s.inputs := rfl
@[simp] theorem State.setResult_nanDraws (r : RunResult) : (s.setResult r).nanDraws = s.nanDraws := rfl
@[simp] theorem State.setResult_logFlagMoved (r : RunResult) : (s.setResult r).logFlagMoved = s.logFlagMoved := rfl
@[simp] theorem State.setResult_logDraws (r : RunResult) : (s.setResult r).logDraws = s.logDraws := rfl

/-! ## setMem -/

@[simp] theorem State.setMem_cfg (m : Memory) : (s.setMem m).cfg = s.cfg := rfl
@[simp] theorem State.setMem_idx (m : Memory) : (s.setMem m).idx = s.idx := rfl
@[simp] theorem State.setMem_skip (m : Memory) : (s.setMem m).skip = s.skip := rfl
@[simp] theorem State.setMem_pend (m : Memory) : (s.setMem m).pend = s.pend := rfl
@[simp] theorem State.setMem_vlast (m : Memory) : (s.setMem m).vlast = s.vlast := rfl
@[simp] theorem State.setMem_result (m : Memory) : (s.setMem m).result = s.result := rfl
@[simp] theorem State.setMem_code (m : Memory) : (s.setMem m).code = s.code := rfl
@[simp] theorem State.setMem_mem (m : Memory) : (s.setMem m).mem = m := rfl
@[simp] theorem State.setMem_active (m : Memory) : (s.setMem m).active = s.active := rfl
@[simp] theorem State.setMem_phase (m : Memory) : (s.setMem m).phase = s.phase := rfl
@[simp] theorem State.setMem_cheatsEnabled (m : Memory) : (s.setMem m).cheatsEnabled = s.cheatsEnabled := rfl
@[simp] theorem State.setMem_useInternalLog (m : Memory) : (s.setMem m).useInternalLog = s.useInternalLog := rfl
@[simp] theorem State.setMem_logLatch (m : Memory) : (s.setMem m).logLatch = s.logLatch := rfl
@[simp] theorem State.setMem_selfLog (m : Memory) : (s.setMem m).selfLog = s.selfLog := rfl
@[simp] theorem State.setMem_reports (m : Memory) : (s.setMem m).reports = s.reports := rfl
@[simp] theorem State.setMem_inputs (m : Memory) : (s.setMem m).inputs = s.inputs := rfl
@[simp] theorem State.setMem_nanDraws (m : Memory) : (s.setMem m).nanDraws = s.nanDraws := rfl
@[simp] theorem State.setMem_logFlagMoved (m : Memory) : (s.setMem m).logFlagMoved = s.logFlagMoved := rfl
@[simp] theorem State.setMem_logDraws (m : Memory) : (s.setMem m).logDraws = s.logDraws := rfl

/-! ## setNanDraws -/

@[simp] theorem State.setNanDraws_cfg (n : Nat) : (s.setNanDraws n).cfg = s.cfg := rfl
@[simp] theorem State.setNanDraws_idx (n : Nat) : (s.setNanDraws n).idx = s.idx := rfl
@[simp] theorem State.setNanDraws_skip (n : Nat) : (s.setNanDraws n).skip = s.skip := rfl
@[simp] theorem State.setNanDraws_pend (n : Nat) : (s.setNanDraws n).pend = s.pend := rfl
@[simp] theorem State.setNanDraws_vlast (n : Nat) : (s.setNanDraws n).vlast = s.vlast := rfl
@[simp] theorem State.setNanDraws_result (n : Nat) : (s.setNanDraws n).result = s.result := rfl
@[simp] theorem State.setNanDraws_code (n : Nat) : (s.setNanDraws n).code = s.code := rfl
@[simp] theorem State.setNanDraws_mem (n : Nat) : (s.setNanDraws n).mem = s.mem := rfl
@[simp] theorem State.setNanDraws_active (n : Nat) : (s.setNanDraws n).active = s.active := rfl
@[simp] theorem State.setNanDraws_phase (n : Nat) : (s.setNanDraws n).phase = s.phase := rfl
@[simp] theorem State.setNanDraws_cheatsEnabled (n : Nat) : (s.setNanDraws n).cheatsEnabled = s.cheatsEnabled := rfl
@[simp] theorem State.setNanDraws_useInternalLog (n : Nat) : (s.setNanDraws n).useInternalLog = s.useInternalLog := rfl
@[simp] theorem State.setNanDraws_logLatch (n : Nat) : (s.setNanDraws n).logLatch = s.logLatch := rfl
@[simp] theorem State.setNanDraws_selfLog (n : Nat) : (s.setNanDraws n).selfLog = s.selfLog := rfl
@[simp] theorem State.setNanDraws_reports (n : Nat) : (s.setNanDraws n).reports = s.reports := rfl
@[simp] theorem State.setNanDraws_inputs (n : Nat) : (s.setNanDraws n).inputs = s.inputs := rfl
@[simp] theorem State.setNanDraws_nanDraws (n : Nat) : (s.setNanDraws n).nanDraws = n := rfl
@[simp] theorem State.setNanDraws_logFlagMoved (n : Nat) : (s.setNanDraws n).logFlagMoved = s.logFlagMoved := rfl
@[simp] theorem State.setNanDraws_logDraws (n : Nat) : (s.setNanDraws n).logDraws = s.logDraws := rfl

/-! ## freshRun -/

@[simp] theorem State.freshRun_cfg (c : Code) : (s.freshRun c).cfg = s.cfg := rfl
@[simp] theorem State.freshRun_idx (c : Code) : (s.freshRun c).idx = 0 := rfl
@[simp] theorem State.freshRun_skip (c : Code) : (s.freshRun c).skip = 0 := rfl
@[simp] theorem State.freshRun_pend (c : Code) : (s.freshRun c).pend = .none := rfl
@[simp] theorem State.freshRun_vlast (c : Code) : (s.freshRun c).vlast = 0 := rfl
@[simp] theorem State.freshRun_result (c : Code) : (s.freshRun c).result = .running := rfl
@[simp] theorem State.freshRun_code (c : Code) : (s.freshRun c).code = c := rfl
@[simp] theorem State.freshRun_mem (c : Code) : (s.freshRun c).mem = s.mem := rfl
@[simp] theorem State.freshRun_active (c : Code) : (s.freshRun c).active = s.active := rfl
@[simp] theorem State.freshRun_phase (c : Code) : (s.freshRun c).phase = s.phase := rfl
@[simp] theorem State.freshRun_cheatsEnabled (c : Code) : (s.freshRun c).cheatsEnabled = s.cheatsEnabled := rfl
@[simp] theorem State.freshRun_useInternalLog (c : Code) : (s.freshRun c).useInternalLog = s.useInternalLog := rfl
@[simp] theorem State.freshRun_logLatch (c : Code) : (s.freshRun c).logLatch = s.logLatch := rfl
@[simp] theorem State.freshRun_selfLog (c : Code) : (s.freshRun c).selfLog = s.selfLog := rfl
@[simp] theorem State.freshRun_reports (c : Code) : (s.freshRun c).reports = s.reports := rfl
@[simp] theorem State.freshRun_inputs (c : Code) : (s.freshRun c).inputs = s.inputs := rfl
@[simp] theorem State.freshRun_nanDraws (c : Code) : (s.freshRun c).nanDraws = s.nanDraws := rfl
@[simp] theorem State.freshRun_logFlagMoved (c : Code) : (s.freshRun c).logFlagMoved = s.logFlagMoved := rfl
@[simp] theorem State.freshRun_logDraws (c : Code) : (s.freshRun c).logDraws = s.logDraws := rfl

/-! ## emitReport -/

@[simp] theorem State.emitReport_cfg (k : FailKind) (i : FailInfo) : (s.emitReport k i).cfg = s.cfg := rfl
@[simp] theorem State.emitReport_idx (k : FailKind) (i : FailInfo) : (s.emitReport k i).idx = s.idx := rfl
@[simp] theorem State.emitReport_skip (k : FailKind) (i : FailInfo) : (s.emitReport k i).skip = s.skip := rfl
@[simp] theorem State.emitReport_pend (k : FailKind) (i : FailInfo) : (s.emitReport k i).pend = s.pend := rfl
@[simp] theorem State.emitReport_vlast (k : FailKind) (i : FailInfo) : (s.emitReport k i).vlast = s.vlast := rfl
@[simp] theorem State.emitReport_result (k : FailKind) (i : FailInfo) : (s.emitReport k i).result = s.result := rfl
@[simp] theorem State.emitReport_code (k : FailKind) (i : FailInfo) : (s.emitReport k i).code = s.code := rfl
@[simp] theorem State.emitReport_mem (k : FailKind) (i : FailInfo) : (s.emitReport k i).mem = s.mem := rfl
@[simp] theorem State.emitReport_active (k : FailKind) (i : FailInfo) : (s.emitReport k i).active = s.active := rfl
@[simp] theorem State.emitReport_phase (k : FailKind) (i : FailInfo) : (s.emitReport k i).phase = s.phase := rfl
@[simp] theorem State.emitReport_cheatsEnabled (k : FailKind) (i : FailInfo) : (s.emitReport k i).cheatsEnabled = s.cheatsEnabled := rfl
@[simp] theorem State.emitReport_useInternalLog (k : FailKind) (i : FailInfo) : (s.emitReport k i).useInternalLog = s.useInternalLog := rfl
@[simp] theorem State.emitReport_logLatch (k : FailKind) (i : FailInfo) : (s.emitReport k i).logLatch = s.logLatch := rfl
@[simp] theorem State.emitReport_selfLog (k : FailKind) (i : FailInfo) : (s.emitReport k i).selfLog = s.selfLog := rfl
@[simp] theorem State.emitReport_reports (k : FailKind) (i : FailInfo) : (s.emitReport k i).reports = s.reports ++ [⟨s.code.name, k, i⟩] := rfl
@[simp] theorem State.emitReport_inputs (k : FailKind) (i : FailInfo) : (s.emitReport k i).inputs = s.inputs := rfl
@[simp] theorem State.emitReport_nanDraws (k : FailKind) (i : FailInfo) : (s.emitReport k i).nanDraws = s.nanDraws := rfl
@[simp] theorem State.emitReport_logFlagMoved (k : FailKind) (i : FailInfo) : (s.emitReport k i).logFlagMoved = s.logFlagMoved := rfl
@[simp] theorem State.emitReport_logDraws (k : FailKind) (i : FailInfo) : (s.emitReport k i).logDraws = s.logDraws := rfl

/-! ## withEntry -/

@[simp] theorem State.withEntry_cfg (e : Entry) : (s.withEntry e).cfg = s.cfg := rfl
@[simp] theorem State.withEntry_idx (e : Entry) : (s.withEntry e).idx = s.idx := rfl
@[simp] theorem State.withEntry_skip (e : Entry) : (s.withEntry e).skip = 0 := rfl
@[simp] theorem State.withEntry_pend (e : Entry) : (s.withEntry e).pend = .none := rfl
@[simp] theorem State.withEntry_vlast (e : Entry) : (s.withEntry e).vlast = s.vlast := rfl
@[simp] theorem State.withEntry_result (e : Entry) : (s.withEntry e).result = .running := rfl
@[simp] theorem State.withEntry_code (e : Entry) : (s.withEntry e).code = { s.code with ops := putEntry s.code.ops s.idx e } := rfl
@[simp] theorem State.withEntry_mem (e : Entry) : (s.withEntry e).mem = s.mem := rfl
@[simp] theorem State.withEntry_active (e : Entry) : (s.withEntry e).active = s.active := rfl
@[simp] theorem State.withEntry_phase (e : Entry) : (s.withEntry e).phase = s.phase.entered := rfl
@[simp] theorem State.withEntry_cheatsEnabled (e : Entry) : (s.withEntry e).cheatsEnabled = s.cheatsEnabled := rfl
@[simp] theorem State.withEntry_useInternalLog (e : Entry) : (s.withEntry e).useInternalLog = s.useInternalLog := rfl
@[simp] theorem State.withEntry_logLatch (e : Entry) : (s.withEntry e).logLatch = s.logLatch := rfl
@[simp] theorem State.withEntry_selfLog (e : Entry) : (s.withEntry e).selfLog = s.selfLog := rfl
@[simp] theorem State.withEntry_reports (e : Entry) : (s.withEntry e).reports = s.reports := rfl
@[simp] theorem State.withEntry_inputs (e : Entry) : (s.withEntry e).inputs = s.inputs := rfl
@[simp] theorem State.withEntry_nanDraws (e : Entry) : (s.withEntry e).nanDraws = s.nanDraws := rfl
@[simp] theorem State.withEntry_logFlagMoved (e : Entry) : (s.withEntry e).logFlagMoved = s.logFlagMoved := rfl
@[simp] theorem State.withEntry_logDraws (e : Entry) : (s.withEntry e).logDraws = s.logDraws := rfl

/-! ## eraseLog -/

@[simp] theorem State.eraseLog_cfg : (s.eraseLog).cfg = s.cfg := rfl
@[simp] theorem State.eraseLog_idx : (s.eraseLog).idx = s.idx := rfl
@[simp] theorem State.eraseLog_skip : (s.eraseLog).skip = s.skip := rfl
@[simp] theorem State.eraseLog_pend : (s.eraseLog).pend = s.pend := rfl
@[simp] theorem State.eraseLog_vlast : (s.eraseLog).vlast = s.vlast := rfl
@[simp] theorem State.eraseLog_result : (s.eraseLog).result = s.result := rfl
@[simp] theorem State.eraseLog_code : (s.eraseLog).code = s.code := rfl
@[simp] theorem State.eraseLog_mem : (s.eraseLog).mem = s.mem := rfl
@[simp] theorem State.eraseLog_active : (s.eraseLog).active = s.active := rfl
@[simp] theorem State.eraseLog_phase : (s.eraseLog).phase = s.phase := rfl
@[simp] theorem State.eraseLog_cheatsEnabled : (s.eraseLog).cheatsEnabled = s.cheatsEnabled := rfl
@[simp] theorem State.eraseLog_useInternalLog : (s.eraseLog).useInternalLog = false := rfl
@[simp] theorem State.eraseLog_logLatch : (s.eraseLog).logLatch = false := rfl
@[simp] theorem State.eraseLog_selfLog : (s.eraseLog).selfLog = [] := rfl
@[simp] theorem State.eraseLog_reports : (s.eraseLog).reports = s.reports := rfl
@[simp] theorem State.eraseLog_inputs : (s.eraseLog).inputs = s.inputs := rfl
@[simp] theorem State.eraseLog_nanDraws : (s.eraseLog).nanDraws = s.nanDraws := rfl
@[simp] theorem State.eraseLog_logFlagMoved : (s.eraseLog).logFlagMoved = false := rfl
@[simp] theorem State.eraseLog_logDraws : (s.eraseLog).logDraws = 0 := rfl

/-! ## logRun -/

@[simp] theorem State.logRun_cfg : s.logRun.cfg = s.cfg := rfl
@[simp] theorem State.logRun_idx : s.logRun.idx = s.idx := rfl
@[simp] theorem State.logRun_skip : s.logRun.skip = s.skip := rfl
@[simp] theorem State.logRun_pend : s.logRun.pend = s.pend := rfl
@[simp] theorem State.logRun_vlast : s.logRun.vlast = s.vlast := rfl
@[simp] theorem State.logRun_result : s.logRun.result = s.result := rfl
@[simp] theorem State.logRun_code : s.logRun.code = s.code := rfl
@[simp] theorem State.logRun_mem : s.logRun.mem = s.mem := rfl
@[simp] theorem State.logRun_active : s.logRun.active = s.active := rfl
@[simp] theorem State.logRun_phase : s.logRun.phase = s.phase := rfl
@[simp] theorem State.logRun_cheatsEnabled : s.logRun.cheatsEnabled = s.cheatsEnabled := rfl
@[simp] theorem State.logRun_useInternalLog : s.logRun.useInternalLog = s.useInternalLog := rfl
@[simp] theorem State.logRun_logLatch : s.logRun.logLatch = s.logLatch := rfl
@[simp] theorem State.logRun_reports : s.logRun.reports = s.reports := rfl
@[simp] theorem State.logRun_inputs : s.logRun.inputs = s.inputs := rfl
@[simp] theorem State.logRun_nanDraws : s.logRun.nanDraws = s.nanDraws := rfl
@[simp] theorem State.logRun_selfLog : s.logRun.selfLog = s.selfLog ++ s.logLines := rfl
@[simp] theorem State.logRun_logFlagMoved : s.logRun.logFlagMoved = s.logFlagMoved := rfl
@[simp] theorem State.logRun_logDraws : s.logRun.logDraws = s.logDraws + 1 := rfl

/-- Until the flag first changes, a run reads it as it is. -/
theorem State.readLogFlag_of_not_moved {s : State} (h : s.logFlagMoved = false) :
    s.readLogFlag = s.useInternalLog := by
  simp [State.readLogFlag, h]

/-- A run that reads the flag as off adds no line. -/
theorem State.logLines_of_read_off {s : State} (h : s.readLogFlag = false) : s.logLines = [] := by
  simp [State.logLines, h]

/-- The logging state apart, a logged run is the run itself. -/
@[simp] theorem State.logRun_eraseLog : s.logRun.eraseLog = s.eraseLog := rfl

end Sys2Proof.Machine
end

