-- ==== Sys2Proof/Laws/Memory.lean ====
section
/-! SUPPORT. Guest memory: read after write, the canonical form, and what loads and stores of
several bytes do. -/

namespace Sys2Proof.Machine

/-! ## One byte -/

/-- Every address of a memory in form from `lo` on is at least `lo`. -/
theorem Memory.wfFrom_mono {m : Memory} {lo lo' : Nat} (h : Memory.wfFrom lo m = true)
    (hle : lo' ≤ lo) : Memory.wfFrom lo' m = true := by
  cases m with
  | nil => rfl
  | cons c m =>
    obtain ⟨k, b⟩ := c
    simp only [Memory.wfFrom, Bool.and_eq_true, decide_eq_true_eq] at h ⊢
    exact ⟨⟨⟨by omega, h.1.1.2⟩, h.1.2⟩, h.2⟩

/-- Below its first address a memory in form reads as the reset byte. -/
theorem Memory.get_below {m : Memory} {lo a : Nat} (h : Memory.wfFrom lo m = true) (ha : a < lo) :
    Memory.get m a = resetByte := by
  induction m generalizing lo with
  | nil => rfl
  | cons c m ih =>
    obtain ⟨k, b⟩ := c
    simp only [Memory.wfFrom, Bool.and_eq_true, decide_eq_true_eq] at h
    rw [Memory.get, if_neg (by omega)]
    exact ih h.2 (by omega)

/-- A write keeps the canonical form. -/
theorem Memory.set_wfFrom {m : Memory} {lo a : Nat} (b : Byte) (h : Memory.wfFrom lo m = true)
    (hlo : lo ≤ a) (ha : a < 2 ^ 32) : Memory.wfFrom lo (Memory.set m a b) = true := by
  induction m generalizing lo with
  | nil =>
    by_cases hb : b = resetByte
    · simp [Memory.set, hb, Memory.wfFrom]
    · simp only [Memory.set, if_neg hb, Memory.wfFrom, Bool.and_eq_true, decide_eq_true_eq, bne_iff_ne]
      exact ⟨⟨⟨hlo, ha⟩, hb⟩, trivial⟩
  | cons c m ih =>
    obtain ⟨k, c⟩ := c
    simp only [Memory.wfFrom, Bool.and_eq_true, decide_eq_true_eq] at h
    obtain ⟨⟨⟨h1, h2⟩, h3⟩, h4⟩ := h
    rcases Nat.lt_trichotomy a k with hk | hk | hk
    · rw [Memory.set, if_pos hk]
      split
      · simp only [Memory.wfFrom, Bool.and_eq_true, decide_eq_true_eq]
        exact ⟨⟨⟨h1, h2⟩, h3⟩, h4⟩
      · rename_i hb
        simp only [Memory.wfFrom, Bool.and_eq_true, decide_eq_true_eq, bne_iff_ne, ne_eq]
        exact ⟨⟨⟨hlo, ha⟩, hb⟩, ⟨⟨by omega, h2⟩, by simpa using h3⟩, h4⟩
    · subst hk
      rw [Memory.set, if_neg (by omega), if_pos rfl]
      split
      · exact Memory.wfFrom_mono h4 (by omega)
      · rename_i hb
        simp only [Memory.wfFrom, Bool.and_eq_true, decide_eq_true_eq, bne_iff_ne, ne_eq]
        exact ⟨⟨⟨hlo, ha⟩, hb⟩, h4⟩
    · rw [Memory.set, if_neg (by omega), if_neg (by omega)]
      simp only [Memory.wfFrom, Bool.and_eq_true, decide_eq_true_eq]
      exact ⟨⟨⟨h1, h2⟩, h3⟩, ih h4 (by omega)⟩

/-- A read after a write, from a memory in form: the byte written at its address, and every other
byte as before. -/
theorem Memory.get_set_from {m : Memory} {lo : Nat} (a : Nat) (b : Byte) (x : Nat)
    (h : Memory.wfFrom lo m = true) :
    Memory.get (Memory.set m a b) x = if x = a then b else Memory.get m x := by
  induction m generalizing lo with
  | nil =>
    by_cases hb : b = resetByte
    · simp [Memory.set, hb, Memory.get]
    · by_cases hx : x = a
      · simp [Memory.set, hb, Memory.get, hx]
      · simp [Memory.set, hb, Memory.get, hx, Ne.symm hx]
  | cons c m ih =>
    obtain ⟨k, c⟩ := c
    have hwf := h
    simp only [Memory.wfFrom, Bool.and_eq_true, decide_eq_true_eq] at h
    rcases Nat.lt_trichotomy a k with hk | hk | hk
    · rw [Memory.set, if_pos hk]
      split
      · rename_i hb
        by_cases hx : x = a
        · rw [if_pos hx, hx, hb]
          rw [Memory.get, if_neg (by omega)]
          exact Memory.get_below h.2 (by omega)
        · rw [if_neg hx]
      · by_cases hx : x = a
        · simp [Memory.get, hx]
        · simp [Memory.get, hx, Ne.symm hx]
    · subst hk
      rw [Memory.set, if_neg (by omega), if_pos rfl]
      split
      · rename_i hb
        by_cases hx : x = a
        · rw [if_pos hx, hx, hb]
          exact Memory.get_below h.2 (by omega)
        · simp [Memory.get, hx, Ne.symm hx]
      · by_cases hx : x = a
        · simp [Memory.get, hx]
        · simp [Memory.get, hx, Ne.symm hx]
    · rw [Memory.set, if_neg (by omega), if_neg (by omega), Memory.get, Memory.get]
      by_cases hx : k = x
      · rw [if_pos hx, if_pos hx, if_neg (by omega)]
      · rw [if_neg hx, if_neg hx]
        exact ih h.2

theorem Memory.set_wf {m : Memory} (a : Word) (b : Byte) (h : Memory.wf m = true) :
    Memory.wf (Memory.set m a.toNat b) = true :=
  Memory.set_wfFrom b h (Nat.zero_le _) a.isLt

/-- Read after write, at 32-bit addresses. -/
theorem Memory.byteAt_set {m : Memory} (a : Word) (b : Byte) (x : Word) (h : Memory.wf m = true) :
    Memory.byteAt (Memory.set m a.toNat b) x = if x = a then b else Memory.byteAt m x := by
  unfold Memory.byteAt
  rw [Memory.get_set_from _ _ _ h]
  by_cases hx : x = a
  · simp [hx]
  · rw [if_neg hx, if_neg (fun h => hx (BitVec.eq_of_toNat_eq h))]

/-- The memory after reset is in its canonical form. -/
theorem Memory.reset_wf : Memory.wf State.reset.mem = true := rfl

/-- Two memories in form that read alike at every address are equal. -/
theorem Memory.eq_of_get_from {m n : Memory} {lo lo' : Nat} (hm : Memory.wfFrom lo m = true)
    (hn : Memory.wfFrom lo' n = true) (h : ∀ a, Memory.get m a = Memory.get n a) : m = n := by
  induction m generalizing lo lo' n with
  | nil =>
    cases n with
    | nil => rfl
    | cons d n =>
      obtain ⟨j, d⟩ := d
      simp only [Memory.wfFrom, Bool.and_eq_true, bne_iff_ne, ne_eq] at hn
      have := h j
      simp only [Memory.get, if_true] at this
      exact absurd this.symm hn.1.2
  | cons c m ih =>
    obtain ⟨k, c⟩ := c
    have hm' := hm
    simp only [Memory.wfFrom, Bool.and_eq_true, decide_eq_true_eq, bne_iff_ne, ne_eq] at hm'
    have hk := h k
    simp only [Memory.get, if_true] at hk
    cases n with
    | nil => exact absurd hk hm'.1.2
    | cons d n =>
      obtain ⟨j, d⟩ := d
      have hn' := hn
      simp only [Memory.wfFrom, Bool.and_eq_true, decide_eq_true_eq, bne_iff_ne, ne_eq] at hn'
      have hjk : j = k := by
        by_contra hne
        rw [Memory.get, if_neg hne] at hk
        rcases Nat.lt_or_gt_of_ne hne with hlt | hgt
        · have hj := h j
          simp only [Memory.get, if_true] at hj
          rw [if_neg (by omega), Memory.get_below hm'.2 (by omega)] at hj
          exact hn'.1.2 hj.symm
        · rw [Memory.get_below hn'.2 (by omega)] at hk
          exact hm'.1.2 hk
      subst hjk
      rw [Memory.get, if_pos rfl] at hk
      subst hk
      have : m = n := ih hm'.2 hn'.2 fun a => by
        by_cases ha : a = j
        · subst ha
          rw [Memory.get_below hm'.2 (by omega), Memory.get_below hn'.2 (by omega)]
        · have := h a
          simpa only [Memory.get, if_neg (Ne.symm ha)] using this
      rw [this]

/-- Two memories in canonical form that read alike are equal. -/
theorem Memory.eq_of_get {m n : Memory} (hm : Memory.wf m = true) (hn : Memory.wf n = true)
    (h : ∀ a, Memory.get m a = Memory.get n a) : m = n :=
  Memory.eq_of_get_from hm hn h

/-! ## Bytes of an access -/

/-- Stepping one address on. -/
theorem addr_succ (a : Word) (k : Nat) :
    a + BitVec.ofNat 32 (k + 1) = a + 1#32 + BitVec.ofNat 32 k := by
  rw [BitVec.ofNat_add, BitVec.add_assoc, BitVec.add_comm (BitVec.ofNat 32 k)]

theorem inBytes_succ {a x : Word} {n : Nat} :
    InBytes a (n + 1) x ↔ x = a ∨ InBytes (a + 1#32) n x := by
  constructor
  · rintro ⟨k, hk, rfl⟩
    cases k with
    | zero => left; simp
    | succ k => exact .inr ⟨k, by omega, addr_succ a k⟩
  · rintro (rfl | ⟨k, hk, rfl⟩)
    · exact ⟨0, by omega, by simp⟩
    · exact ⟨k + 1, by omega, (addr_succ a k).symm⟩

/-- The first address of an access is not among the bytes that follow it. -/
theorem not_inBytes_next {a : Word} {n : Nat} (hn : n < 2 ^ 32 - 1) : ¬ InBytes (a + 1#32) n a := by
  rintro ⟨k, hk, h⟩
  have := congrArg BitVec.toNat h
  simp only [BitVec.toNat_add, BitVec.toNat_ofNat] at this
  have := a.isLt
  omega

/-! ## Stores and loads of several bytes -/

theorem storeLoop_wf {n : Nat} {a v : Word} {m : Memory} (h : Memory.wf m = true) :
    Memory.wf (storeLoop n a v m) = true := by
  induction n generalizing a m with
  | zero => exact h
  | succ n ih => exact ih (Memory.set_wf _ _ h)

/-- A store leaves every byte outside its own alone. -/
theorem storeLoop_frame {n : Nat} {a v : Word} {m : Memory} {x : Word} (h : Memory.wf m = true)
    (hx : ¬ InBytes a n x) : Memory.byteAt (storeLoop n a v m) x = Memory.byteAt m x := by
  induction n generalizing a m with
  | zero => rfl
  | succ n ih =>
    rw [inBytes_succ, not_or] at hx
    rw [storeLoop, ih (Memory.set_wf _ _ h) hx.2, Memory.byteAt_set _ _ _ h, if_neg hx.1]

/-- A store puts the byte `n - 1 - k` of its value at its `k`-th address. -/
theorem storeLoop_byteAt {n : Nat} {a v : Word} {m : Memory} {k : Nat} (h : Memory.wf m = true)
    (hn : n < 2 ^ 32) (hk : k < n) :
    Memory.byteAt (storeLoop n a v m) (a + BitVec.ofNat 32 k) = v.extractLsb' (8 * (n - 1 - k)) 8 := by
  induction n generalizing a m k with
  | zero => omega
  | succ n ih =>
    rw [storeLoop]
    cases k with
    | zero =>
      have h0 : a + BitVec.ofNat 32 0 = a := by simp
      have hn' : ¬ InBytes (a + 1#32) n a := not_inBytes_next (by omega)
      rw [h0, storeLoop_frame (Memory.set_wf _ _ h) hn', Memory.byteAt_set _ _ _ h, if_pos rfl]
      simp
    | succ k =>
      have hk' : n + 1 - 1 - (k + 1) = n - 1 - k := by omega
      rw [addr_succ a k, hk']
      have hk2 : k < n := by omega
      exact ih (Memory.set_wf _ _ h) (by omega) hk2

/-- What a load of each width answers. -/
theorem loadBE_byte (m : Memory) (a : Word) :
    loadBE m a 1 = (Memory.byteAt m a).setWidth 32 := by
  simp [loadBE, loadLoop]

/-- A load only looks at its own bytes. -/
theorem loadLoop_congr {m m' : Memory} {n : Nat} {a v : Word}
    (h : ∀ x, InBytes a n x → Memory.byteAt m x = Memory.byteAt m' x) :
    loadLoop m n a v = loadLoop m' n a v := by
  induction n generalizing a v with
  | zero => rfl
  | succ n ih =>
    rw [loadLoop, loadLoop, h a (inBytes_succ.mpr (.inl rfl))]
    exact ih fun x hx => h x (inBytes_succ.mpr (.inr hx))

theorem loadBE_congr {m m' : Memory} {n : Nat} {a : Word}
    (h : ∀ x, InBytes a n x → Memory.byteAt m x = Memory.byteAt m' x) :
    loadBE m a n = loadBE m' a n := loadLoop_congr h

end Sys2Proof.Machine
end

