-- ==== Sys2Proof/Laws/Ops.lean ====
section
/-! SUPPORT. For each shared operation, what it can do, said once. -/

namespace Sys2Proof.Machine

variable {cfg : Config} {m m' : Memory} {a v : Word} {w : Width} {f : Fault}

/-! ## Widths -/

theorem Width.bytes_pos (w : Width) : 0 < w.bytes := by cases w <;> decide

theorem Width.bytes_le (w : Width) : w.bytes ≤ 4 := by cases w <;> decide

/-! ## Accesses -/

theorem accessible_of_flat (h : cfg.oowPolicy = .flat) (a : Word) (n : Nat) :
    accessible cfg a n = true := by
  simp [accessible, h]

/-- An access has no meaning exactly when it leaves the window under `modelFault`. -/
theorem accessible_eq_false_iff {n : Nat} :
    accessible cfg a n = false ↔ inWindow cfg a n = false ∧ cfg.oowPolicy = .modelFault := by
  unfold accessible
  cases cfg.oowPolicy <;> simp

/-- `MemRead` answers the bytes, or faults with memory unchanged. -/
theorem memRead_eq_ok : memRead cfg m a w = .ok v ↔
    accessible cfg a w.bytes = true ∧ v = loadBE m a w.bytes := by
  by_cases h : accessible cfg a w.bytes = true
  · rw [memRead, if_pos h]
    exact ⟨fun | rfl => ⟨h, rfl⟩, fun ⟨_, e⟩ => e ▸ rfl⟩
  · simp [memRead, h]

theorem memRead_eq_error : memRead cfg m a w = .error f ↔
    accessible cfg a w.bytes = false ∧ f = .outOfWindow a m := by
  by_cases h : accessible cfg a w.bytes = true
  · simp [memRead, h]
  · rw [memRead, if_neg h, ← Bool.not_eq_true]
    exact ⟨fun | rfl => ⟨h, rfl⟩, fun ⟨_, e⟩ => e ▸ rfl⟩

theorem memRead_of_accessible (h : accessible cfg a w.bytes = true) :
    memRead cfg m a w = .ok (loadBE m a w.bytes) := by
  simp [memRead, h]

theorem memWrite_eq_ok : memWrite cfg m a w v = .ok m' ↔
    accessible cfg a w.bytes = true ∧ m' = storeLoop w.bytes a v m := by
  by_cases h : accessible cfg a w.bytes = true
  · rw [memWrite, if_pos h]
    exact ⟨fun | rfl => ⟨h, rfl⟩, fun ⟨_, e⟩ => e ▸ rfl⟩
  · simp [memWrite, h]

theorem memWrite_eq_error : memWrite cfg m a w v = .error f ↔
    accessible cfg a w.bytes = false ∧ f = .outOfWindow a m := by
  by_cases h : accessible cfg a w.bytes = true
  · simp [memWrite, h]
  · rw [memWrite, if_neg h, ← Bool.not_eq_true]
    exact ⟨fun | rfl => ⟨h, rfl⟩, fun ⟨_, e⟩ => e ▸ rfl⟩

theorem memWrite_of_accessible (h : accessible cfg a w.bytes = true) :
    memWrite cfg m a w v = .ok (storeLoop w.bytes a v m) := by
  simp [memWrite, h]

/-- What `MemWrite` does when it answers: the canonical form is kept, its own bytes hold the value
big-endian, and every other byte is as before. -/
theorem memWrite_spec (h : memWrite cfg m a w v = .ok m') (hm : Memory.wf m = true) :
    Memory.wf m' = true ∧
    (∀ k, k < w.bytes → Memory.byteAt m' (a + BitVec.ofNat 32 k) =
      v.extractLsb' (8 * (w.bytes - 1 - k)) 8) ∧
    (∀ x, ¬ InBytes a w.bytes x → Memory.byteAt m' x = Memory.byteAt m x) := by
  obtain ⟨-, rfl⟩ := memWrite_eq_ok.mp h
  have := w.bytes_le
  exact ⟨storeLoop_wf hm, fun k hk => storeLoop_byteAt hm (by omega) hk,
    fun x hx => storeLoop_frame hm hx⟩

/-! ## Slides and fills -/

theorem stepAddr_zero (cur dcur : Word) : stepAddr cur dcur 0 = cur := by simp [stepAddr]

theorem stepAddr_succ (cur dcur : Word) (i : Nat) :
    stepAddr cur dcur (i + 1) = stepAddr (cur + dcur) dcur i := by
  unfold stepAddr
  rw [BitVec.ofNat_add, BitVec.add_mul, BitVec.add_assoc, BitVec.add_comm _ (BitVec.ofNat 32 1 * _)]
  simp

/-- A slide whose writes are all accessible runs to its end. -/
theorem slide_ok {n : Nat} {cur dcur val dval : Word}
    (h : ∀ i, i < n → accessible cfg (stepAddr cur dcur i) w.bytes = true) :
    ∃ m', slide cfg w dcur dval n cur val m = .ok m' := by
  induction n generalizing cur val m with
  | zero => exact ⟨m, rfl⟩
  | succ n ih =>
    have h0 := h 0 (by omega)
    rw [stepAddr_zero] at h0
    rw [slide, memWrite_of_accessible h0]
    exact ih fun i hi => stepAddr_succ cur dcur i ▸ h (i + 1) (by omega)

/-- A slide that runs to its end made accessible writes only. -/
theorem slide_accessible {n : Nat} {cur dcur val dval : Word}
    (h : slide cfg w dcur dval n cur val m = .ok m') :
    ∀ i, i < n → accessible cfg (stepAddr cur dcur i) w.bytes = true := by
  induction n generalizing cur val m with
  | zero => intro i hi; omega
  | succ n ih =>
    rw [slide] at h
    split at h
    · rename_i m1 h1
      intro i hi
      cases i with
      | zero => rw [stepAddr_zero]; exact (memWrite_eq_ok.mp h1).1
      | succ i => rw [stepAddr_succ]; exact ih h i (by omega)
    · cases h

/-- A slide keeps the canonical form and changes no byte that none of its writes touches. -/
theorem slide_spec {n : Nat} {cur dcur val dval : Word}
    (h : slide cfg w dcur dval n cur val m = .ok m') (hm : Memory.wf m = true) :
    Memory.wf m' = true ∧
    ∀ x, (∀ i, i < n → ¬ InBytes (stepAddr cur dcur i) w.bytes x) →
      Memory.byteAt m' x = Memory.byteAt m x := by
  induction n generalizing cur val m with
  | zero => cases h; exact ⟨hm, fun _ _ => rfl⟩
  | succ n ih =>
    rw [slide] at h
    split at h
    · rename_i m1 h1
      obtain ⟨hw1, -, hf1⟩ := memWrite_spec h1 hm
      obtain ⟨hw, hf⟩ := ih h hw1
      refine ⟨hw, fun x hx => ?_⟩
      rw [hf x fun i hi => stepAddr_succ cur dcur i ▸ hx (i + 1) (by omega)]
      exact hf1 x (stepAddr_zero cur dcur ▸ hx 0 (by omega))
    · cases h

/-- The bytes of a slide's `i`-th write, where no later write touches them. -/
theorem slide_byteAt {n : Nat} {cur dcur val dval : Word} {i k : Nat}
    (h : slide cfg w dcur dval n cur val m = .ok m') (hm : Memory.wf m = true)
    (hi : i < n) (hk : k < w.bytes)
    (hlast : ∀ j, i < j → j < n →
      ¬ InBytes (stepAddr cur dcur j) w.bytes (stepAddr cur dcur i + BitVec.ofNat 32 k)) :
    Memory.byteAt m' (stepAddr cur dcur i + BitVec.ofNat 32 k) =
      (stepAddr val dval i).extractLsb' (8 * (w.bytes - 1 - k)) 8 := by
  induction n generalizing cur val m i with
  | zero => omega
  | succ n ih =>
    rw [slide] at h
    split at h
    · rename_i m1 h1
      obtain ⟨hw1, hv1, -⟩ := memWrite_spec h1 hm
      cases i with
      | zero =>
        rw [stepAddr_zero] at hlast ⊢
        rw [stepAddr_zero, ← hv1 k hk]
        exact (slide_spec h hw1).2 _ fun j hj =>
          stepAddr_succ cur dcur j ▸ hlast (j + 1) (by omega) (by omega)
      | succ i =>
        rw [stepAddr_succ] at hlast ⊢
        rw [stepAddr_succ]
        exact ih h hw1 (by omega) fun j hij hj =>
          stepAddr_succ cur dcur j ▸ hlast (j + 1) (by omega) (by omega)
    · cases h

/-- A slide that faults made the writes before its first inaccessible one. -/
theorem slide_error {n : Nat} {cur dcur val dval : Word}
    (h : slide cfg w dcur dval n cur val m = .error f) :
    ∃ i m1, i < n ∧ slide cfg w dcur dval i cur val m = .ok m1 ∧
      accessible cfg (stepAddr cur dcur i) w.bytes = false ∧
      f = .outOfWindow (stepAddr cur dcur i) m1 := by
  induction n generalizing cur val m with
  | zero => cases h
  | succ n ih =>
    rw [slide] at h
    split at h
    · rename_i m1 h1
      obtain ⟨i, m2, hi, hs, ha, rfl⟩ := ih h
      refine ⟨i + 1, m2, by omega, ?_, ?_, ?_⟩
      · rw [slide, h1]; exact hs
      · rw [stepAddr_succ]; exact ha
      · rw [stepAddr_succ]
    · rename_i f' h1
      cases h
      obtain ⟨ha, rfl⟩ := memWrite_eq_error.mp h1
      exact ⟨0, m, by omega, rfl, by rw [stepAddr_zero]; exact ha, by rw [stepAddr_zero]⟩

/-! ## Copies -/

/-- A copy whose bytes are all accessible runs to its end. -/
theorem copyBytes_ok {n : Nat} {src dest : Word}
    (h : ∀ i, i < n → accessible cfg (src + BitVec.ofNat 32 i) 1 = true ∧
      accessible cfg (dest + BitVec.ofNat 32 i) 1 = true) :
    ∃ m', copyBytes cfg n src dest m = .ok m' := by
  induction n generalizing src dest m with
  | zero => exact ⟨m, rfl⟩
  | succ n ih =>
    have h0 := h 0 (by omega)
    simp only [BitVec.add_zero] at h0
    rw [copyBytes, memRead_of_accessible (w := .byte) h0.1]
    simp only [memWrite_of_accessible (w := .byte) h0.2]
    exact ih fun i hi => by
      have := h (i + 1) (by omega)
      rwa [addr_succ src i, addr_succ dest i] at this

/-- A copy keeps the canonical form, and changes no byte outside its destination. -/
theorem copyBytes_spec {n : Nat} {src dest : Word}
    (h : copyBytes cfg n src dest m = .ok m') (hm : Memory.wf m = true) :
    Memory.wf m' = true ∧
    ∀ x, ¬ InBytes dest n x → Memory.byteAt m' x = Memory.byteAt m x := by
  induction n generalizing src dest m with
  | zero => cases h; exact ⟨hm, fun _ _ => rfl⟩
  | succ n ih =>
    rw [copyBytes] at h
    split at h
    · cases h
    · split at h
      · cases h
      · rename_i m1 h1
        obtain ⟨hw1, -, hf1⟩ := memWrite_spec h1 hm
        obtain ⟨hw, hf⟩ := ih h hw1
        refine ⟨hw, fun x hx => ?_⟩
        rw [inBytes_succ, not_or] at hx
        rw [hf x hx.2]
        refine hf1 x fun ⟨k, hk, hx'⟩ => hx.1 ?_
        have : k = 0 := by simp [Width.bytes] at hk; exact hk
        subst this
        simpa using hx'

/-- The first byte of a copy, and the copy of the rest. -/
theorem copyBytes_succ {n : Nat} {src dest : Word}
    (h : copyBytes cfg (n + 1) src dest m = .ok m') :
    accessible cfg src 1 = true ∧ accessible cfg dest 1 = true ∧
    copyBytes cfg n (src + 1#32) (dest + 1#32)
      (Memory.set m dest.toNat (Memory.byteAt m src)) = .ok m' := by
  rw [copyBytes] at h
  split at h
  · cases h
  · rename_i b hb
    split at h
    · cases h
    · rename_i m1 h1
      obtain ⟨hs, rfl⟩ := memRead_eq_ok.mp hb
      obtain ⟨hd, rfl⟩ := memWrite_eq_ok.mp h1
      refine ⟨hs, hd, ?_⟩
      rw [← h]
      have hb : ((Memory.byteAt m src).setWidth 32).extractLsb' 0 8 = Memory.byteAt m src := by
        apply BitVec.eq_of_toNat_eq
        have := (Memory.byteAt m src).isLt
        simp only [BitVec.extractLsb'_toNat, BitVec.toNat_setWidth, Nat.shiftRight_zero]
        omega
      simp only [Width.bytes, storeLoop, loadBE_byte, Nat.mul_zero, hb]

/-- A copy that faults met an inaccessible byte of its source or its destination. -/
theorem copyBytes_error {n : Nat} {src dest : Word}
    (h : copyBytes cfg n src dest m = .error f) :
    ∃ x m1, accessible cfg x 1 = false ∧ f = .outOfWindow x m1 := by
  induction n generalizing src dest m with
  | zero => cases h
  | succ n ih =>
    rw [copyBytes] at h
    split at h
    · rename_i f' hf
      cases h
      exact ⟨src, m, (memRead_eq_error.mp hf).1, (memRead_eq_error.mp hf).2⟩
    · split at h
      · rename_i f' hf
        cases h
        exact ⟨dest, m, (memWrite_eq_error.mp hf).1, (memWrite_eq_error.mp hf).2⟩
      · exact ih h

/-! ## Outcomes -/

variable {s t : State}

theorem putMem_eq_next {r : Except Fault Memory} :
    putMem s r = .next t ↔ ∃ m, r = .ok m ∧ t = s.setMem m := by
  cases r <;> simp [putMem, eq_comm]

theorem putMem_eq_fault {r : Except Fault Memory} : putMem s r = .fault f ↔ r = .error f := by
  cases r <;> simp [putMem]

theorem putMem_ne_refused {r : Except Fault Memory} {q : Refusal} : putMem s r ≠ .refused q := by
  cases r <;> simp [putMem]

/-- A write to a pointer that answers: the pointer was readable, the target writable, and only
memory changed, by that one write. -/
theorem pointerWrite_eq_next {e off : Word} : pointerWrite w e off v s = .next t ↔
    accessible s.cfg e 4 = true ∧
    ∃ m, memWrite s.cfg s.mem (loadBE s.mem e 4 + off) w v = .ok m ∧ t = s.setMem m := by
  unfold pointerWrite
  split
  · rename_i f hf
    have := (memRead_eq_error.mp hf).1
    simp_all [Width.bytes]
  · rename_i p hp
    obtain ⟨ha, rfl⟩ := memRead_eq_ok.mp hp
    rw [putMem_eq_next]
    simp_all [Width.bytes]

theorem pointerWrite_ne_refused {e off : Word} {q : Refusal} :
    pointerWrite w e off v s ≠ .refused q := by
  unfold pointerWrite
  split
  · simp
  · exact putMem_ne_refused

/-- An add in place that answers: its bytes were accessible, and only memory changed, by the write
of the sum. -/
theorem addInPlace_eq_next {e d : Word} : addInPlace w e d s = .next t ↔
    ∃ m, memWrite s.cfg s.mem e w (loadBE s.mem e w.bytes + d) = .ok m ∧ t = s.setMem m := by
  unfold addInPlace
  split
  · rename_i f hf
    have := (memRead_eq_error.mp hf).1
    simp_all [memWrite]
  · rename_i p hp
    obtain ⟨ha, rfl⟩ := memRead_eq_ok.mp hp
    exact putMem_eq_next

theorem addInPlace_ne_refused {e d : Word} {q : Refusal} : addInPlace w e d s ≠ .refused q := by
  unfold addInPlace
  split
  · simp
  · exact putMem_ne_refused

/-- A conditional whose operand is accessible writes SKIP when its compare is false, and nothing
else ever. -/
theorem conditional_eq_next {cmp : Config → Width → Word → Word → Bool} {o : OnFalse} {z : Size}
    {e d : Word} : conditional cmp o z e d s = .next t ↔
    accessible s.cfg e (sizeWidth z).bytes = true ∧
    t = if cmp s.cfg (sizeWidth z) (loadBE s.mem e (sizeWidth z).bytes) (maskTo (sizeWidth z) d)
        then s else s.setSkip (onFalseSkip o) := by
  unfold conditional
  split
  · rename_i f hf
    have := (memRead_eq_error.mp hf).1
    simp [this]
  · rename_i p hp
    obtain ⟨ha, rfl⟩ := memRead_eq_ok.mp hp
    split
    · simp [ha, eq_comm]
    · simp [ha, eq_comm]

theorem conditional_ne_refused {cmp : Config → Width → Word → Word → Bool} {o : OnFalse} {z : Size}
    {e d : Word} {q : Refusal} : conditional cmp o z e d s ≠ .refused q := by
  unfold conditional
  split
  · simp
  · split <;> simp

/-- A failure answers a next state that differs in RESULT alone. -/
theorem raiseFailure_eq_next {k : FailKind} {e : Entry} : raiseFailure k v e s = .next t ↔
    t = s.setResult (.failure k ⟨v, s.idx - 1, e⟩) := by
  simp [raiseFailure, eq_comm]

/-- A copy that answers after its check: in pointer mode both pointers were readable; only memory
changed, by the copy. -/
theorem memoryCopy_eq_next {p : Bool} {dest src : Word} {n : Nat} :
    memoryCopy p dest src n s = .next t ↔
    (p = true → accessible s.cfg dest 4 = true ∧ accessible s.cfg src 4 = true) ∧
    ∃ m, copyBytes s.cfg n (if p then loadBE s.mem src 4 else src)
      (if p then loadBE s.mem dest 4 else dest) s.mem = .ok m ∧ t = s.setMem m := by
  unfold memoryCopy
  cases p with
  | false => simp [putMem_eq_next]
  | true =>
    simp only [if_true]
    split
    · rename_i f hf
      have := (memRead_eq_error.mp hf).1
      simp_all [Width.bytes]
    · rename_i d hd
      obtain ⟨had, rfl⟩ := memRead_eq_ok.mp hd
      split
      · rename_i f hf
        have := (memRead_eq_error.mp hf).1
        simp_all [Width.bytes]
      · rename_i c hc
        obtain ⟨hac, rfl⟩ := memRead_eq_ok.mp hc
        rw [putMem_eq_next]
        simp_all [Width.bytes]

theorem memoryCopy_ne_refused {p : Bool} {dest src : Word} {n : Nat} {q : Refusal} :
    memoryCopy p dest src n s ≠ .refused q := by
  unfold memoryCopy
  split
  · split
    · simp
    · split
      · simp
      · exact putMem_ne_refused
  · exact putMem_ne_refused

end Sys2Proof.Machine
end

