-- ==== Sys2Proof/Laws/Exec.lean ====
section
/-! SUPPORT. What one instruction can do when it answers a next state, said once for all of them. -/

namespace Sys2Proof.Machine

/-- The kinds of failure an instruction raises, with their offending values (60_exceptions.md R260). -/
inductive Raises : Instr → FailKind → Word → Prop where
  | zrow (low : BitVec 29) : Raises (.zrow low) .unsupportedRow 3
  | zunk1 (low : BitVec 29) : Raises (.zunk1 low) .unknownZcode 1
  | zunk5 (low : BitVec 29) : Raises (.zunk5 low) .unknownZcode 5
  | zunk6 (low : BitVec 29) : Raises (.zunk6 low) .unknownZcode 6
  | zunk7 (low : BitVec 29) : Raises (.zunk7 low) .unknownZcode 7
  | selfmod (top : BitVec 7) (low : BitVec 12) (v : Word) :
      Raises (.selfmod top low v) .selfModify (encode (.selfmod top low v)).cmd
  | master (z : Size) (g : GcAddr) (v : Word) :
      Raises (.master z g v) .masterCode (encode (.master z g v)).cmd

/-- Memory `m` comes from `s.mem` by accesses that keep the canonical form. -/
def KeepsForm (s : State) (m : Memory) : Prop := Memory.wf s.mem = true → Memory.wf m = true

/-- The next states of an instruction. -/
inductive Effect (i : Instr) (s : State) : State → Prop where
  | znorm (low : BitVec 29) (hi : i = .znorm low) : Effect i s s
  | success (low : BitVec 29) (hi : i = .zend low) : Effect i s (s.setResult .success)
  | failure (k : FailKind) (v : Word) (h : Raises i k v) :
      Effect i s (s.setResult (.failure k ⟨v, s.idx - 1, encode i⟩))
  | endif (hi : i = .endif) : Effect i s (s.setSkip 0)
  | compareTrue (h : isConditional i = true) : Effect i s s
  | compareFalse (o : OnFalse) (h : isConditional i = true)
      (ho : o = OnFalse.ofBits (cmdSubtype (encode i).cmd)) : Effect i s (s.setSkip (onFalseSkip o))
  | fillSlide (h : isSelector i = true) (hz : (encode i).value.extractLsb' 29 3 = 4)
      (hs : cmdSize (encode i).value ≠ 3) : Effect i s (s.setPending .fillSlide (encode i).value)
  | memCopy (h : isSelector i = true) (hz : (encode i).value.extractLsb' 29 3 = 4)
      (hs : cmdSize (encode i).value = 3) : Effect i s (s.setPending .memCopy (encode i).value)
  | store (m : Memory) (h : writesMemory i = true) (hc : isFollowUp i = false)
      (hm : KeepsForm s m) : Effect i s (s.setMem m)
  | floatAdd (g : GcAddr) (d : Word) (m : Memory) (n : Nat) (hi : i = .addf32 g d)
      (hm : KeepsForm s m) : Effect i s ((s.setNanDraws n).setMem m)
  | composite (m : Memory) (h : isFollowUp i = true) (hm : KeepsForm s m) :
      Effect i s (s.clearPend.setMem m)
  | badSize (h : i.context = .fillSlide) (hs : cmdSize s.vlast = 3) :
      Effect i s (s.clearPend.setResult (.failure .invalidSize ⟨3, s.idx - 1, encode i⟩))
  | badCount (h : i.context = .memCopy) :
      Effect i s (s.clearPend.setResult
        (.failure .memcpyBadValue ⟨(encode i).value &&& 0x00FF0000, s.idx - 1, encode i⟩))

variable {s t : State} {w : Width} {m : Memory}

theorem keepsForm_memWrite {a v : Word} (h : memWrite s.cfg s.mem a w v = .ok m) : KeepsForm s m :=
  fun hm => (memWrite_spec h hm).1

theorem keepsForm_slide {n : Nat} {cur dcur val dval : Word}
    (h : slide s.cfg w dcur dval n cur val s.mem = .ok m) : KeepsForm s m :=
  fun hm => (slide_spec h hm).1

theorem keepsForm_copyBytes {n : Nat} {src dest : Word}
    (h : copyBytes s.cfg n src dest s.mem = .ok m) : KeepsForm s m :=
  fun hm => (copyBytes_spec h hm).1

/-- The fields of a selector's value word (30_encoding.md R85). -/
theorem selector_fields (sel t2 : BitVec 2) (a : GcAddr) :
    (selectorEntry sel t2 a).value.extractLsb' 29 3 = 4 ∧
    cmdSize (selectorEntry sel t2 a).value = sel := by
  constructor <;> apply BitVec.eq_of_getLsbD_eq <;> intro j hj <;>
    simp only [selectorEntry, cmdSize, BitVec.getLsbD_append, BitVec.getLsbD_extractLsb'] <;>
    interval_cases j <;> simp

theorem effect_store {r : Except Fault Memory} {i : Instr} (hr : putMem s r = .next t)
    (hm : ∀ m, r = .ok m → KeepsForm s m) (h : writesMemory i = true) (hc : isFollowUp i = false) :
    Effect i s t := by
  obtain ⟨m, he, rfl⟩ := putMem_eq_next.mp hr
  exact .store m h hc (hm m he)

theorem effect_pointerWrite {e off v : Word} {i : Instr} (h : pointerWrite w e off v s = .next t)
    (hw : writesMemory i = true) (hc : isFollowUp i = false) : Effect i s t := by
  obtain ⟨-, m, hm, rfl⟩ := pointerWrite_eq_next.mp h
  exact .store m hw hc (keepsForm_memWrite hm)

theorem effect_addInPlace {e d : Word} {i : Instr} (h : addInPlace w e d s = .next t)
    (hw : writesMemory i = true) (hc : isFollowUp i = false) : Effect i s t := by
  obtain ⟨m, hm, rfl⟩ := addInPlace_eq_next.mp h
  exact .store m hw hc (keepsForm_memWrite hm)

theorem effect_conditional {cmp : Config → Width → Word → Word → Bool} {o : OnFalse} {z : Size}
    {e d : Word} {i : Instr} (h : conditional cmp o z e d s = .next t)
    (hi : isConditional i = true) (ho : o = OnFalse.ofBits (cmdSubtype (encode i).cmd)) :
    Effect i s t := by
  obtain ⟨-, rfl⟩ := conditional_eq_next.mp h
  split
  · exact .compareTrue hi
  · exact .compareFalse o hi ho

/-- A meaning that is a conditional compares as its test says, taken or faulting. -/
theorem compares_of_conditional {cmp : Config → Width → Word → Word → Bool} {o : OnFalse} {z : Size}
    {g : GcAddr} {v : Word} {i : Instr} {r : Prop} (hi : exec i s = conditional cmp o z (ea g) v s)
    (hr : cmp s.cfg (sizeWidth z) (condOperand s z g) (maskTo (sizeWidth z) v) = true ↔ r) :
    Compares i o z g r s := by
  rw [Compares, hi, ← hr, conditional]
  refine ⟨fun ha => ?_, fun ha => by rw [memRead_eq_error.mpr ⟨ha, rfl⟩]⟩
  rw [memRead_of_accessible ha]
  exact ⟨fun h => if_pos h, fun h => if_neg h⟩

theorem effect_slideFrom {val : Word} {vi wn : Byte} {ai : BitVec 16} {i : Instr}
    (h : slideFrom w val vi wn ai s.clearPend = .next t) (hi : isFollowUp i = true) :
    Effect i s t := by
  obtain ⟨m, hm, rfl⟩ := putMem_eq_next.mp h
  exact .composite m hi (keepsForm_slide (s := s) hm)

theorem mcdata_check_value (top : BitVec 7) (src : GcAddr) (p c : Byte) (b : BitVec 1)
    (n : BitVec 15) :
    (encode (.mcdata top src p c b n)).value &&& 0x00FF0000 = c.setWidth 32 <<< 16 := by
  apply BitVec.eq_of_getLsbD_eq
  intro j hj
  simp only [encode, BitVec.getLsbD_and, BitVec.getLsbD_append, BitVec.getLsbD_shiftLeft,
    BitVec.getLsbD_setWidth]
  interval_cases j <;> simp

/-- Whatever an instruction does when it answers a next state is one of its effects. -/
theorem exec_effect {i : Instr} (h : exec i s = .next t) : Effect i s t := by
  cases i with
  | zend low => cases h; exact .success low rfl
  | znorm low => cases h; exact .znorm low rfl
  | zrow low => cases h; exact .failure _ _ (.zrow low)
  | zunk1 low => cases h; exact .failure _ _ (.zunk1 low)
  | zunk5 low => cases h; exact .failure _ _ (.zunk5 low)
  | zunk6 low => cases h; exact .failure _ _ (.zunk6 low)
  | zunk7 low => cases h; exact .failure _ _ (.zunk7 low)
  | zfs8 t2 a =>
    cases h
    exact .fillSlide rfl (selector_fields 0 t2 a).1 ((selector_fields 0 t2 a).2 ▸ by decide)
  | zfs16 t2 a =>
    cases h
    exact .fillSlide rfl (selector_fields 1 t2 a).1 ((selector_fields 1 t2 a).2 ▸ by decide)
  | zfs32 t2 a =>
    cases h
    exact .fillSlide rfl (selector_fields 2 t2 a).1 ((selector_fields 2 t2 a).2 ▸ by decide)
  | zmcpy t2 a =>
    cases h
    exact .memCopy rfl (selector_fields 3 t2 a).1 (selector_fields 3 t2 a).2
  | endif => cases h; exact .endif rfl
  | selfmod top low v => cases h; exact .failure _ _ (.selfmod top low v)
  | master z g v => cases h; exact .failure _ _ (.master z g v)
  | wr8 g r d => exact effect_store h (fun _ => keepsForm_slide) rfl rfl
  | wr16 g r d => exact effect_store h (fun _ => keepsForm_slide) rfl rfl
  | wr32 g d => exact effect_store h (fun _ => keepsForm_memWrite) rfl rfl
  | wrf32 g d => exact effect_store h (fun _ => keepsForm_memWrite) rfl rfl
  | pwr8 g o d => exact effect_pointerWrite h rfl rfl
  | pwr16 g o d => exact effect_pointerWrite h rfl rfl
  | pwr32 g d => exact effect_pointerWrite h rfl rfl
  | pwrf32 g d => exact effect_pointerWrite h rfl rfl
  | add8 g d => exact effect_addInPlace h rfl rfl
  | add16 g d => exact effect_addInPlace h rfl rfl
  | add32 g d => exact effect_addInPlace h rfl rfl
  | addf32 g d =>
    simp only [exec, execAddf32] at h
    split at h
    · cases h
    · obtain ⟨m, hm, rfl⟩ := putMem_eq_next.mp h
      exact .floatAdd g d m _ rfl (keepsForm_memWrite hm)
  | ceq o z g v =>
    exact effect_conditional h rfl (by simp [encode, cmdSubtype_cmdWord])
  | cne o z g v =>
    exact effect_conditional h rfl (by simp [encode, cmdSubtype_cmdWord])
  | clts o z g v =>
    exact effect_conditional h rfl (by simp [encode, cmdSubtype_cmdWord])
  | cgts o z g v =>
    exact effect_conditional h rfl (by simp [encode, cmdSubtype_cmdWord])
  | cltu o z g v =>
    exact effect_conditional h rfl (by simp [encode, cmdSubtype_cmdWord])
  | cgtu o z g v =>
    exact effect_conditional h rfl (by simp [encode, cmdSubtype_cmdWord])
  | cand o z g v =>
    exact effect_conditional h rfl (by simp [encode, cmdSubtype_cmdWord])
  | fsdata val vi wn ai =>
    simp only [exec, execFsdata, fillAndSlide] at h
    split at h
    · exact effect_slideFrom h rfl
    · exact effect_slideFrom h rfl
    · exact effect_slideFrom h rfl
    · rename_i hs
      cases h
      refine .badSize rfl ?_
      rw [← Size.bits_ofBits (cmdSize s.vlast), show Size.ofBits (cmdSize s.vlast) = .f32 from hs]
      rfl
  | mcdata top src p c b n =>
    simp only [exec, execMcdata] at h
    split at h
    · rw [raiseFailure_eq_next] at h
      subst h
      rw [← mcdata_check_value top src p c b n]
      exact .badCount rfl
    · obtain ⟨-, m, hm, rfl⟩ := memoryCopy_eq_next.mp h
      exact .composite m rfl (keepsForm_copyBytes (s := s) hm)

/-- An effect changes SKIP, PEND, VLAST, RESULT, memory and the draw count at most. -/
theorem Effect.frame {i : Instr} (h : Effect i s t) :
    t.cfg = s.cfg ∧ t.idx = s.idx ∧ t.code = s.code ∧ t.active = s.active ∧ t.phase = s.phase ∧
    t.cheatsEnabled = s.cheatsEnabled ∧ t.useInternalLog = s.useInternalLog ∧
    t.logLatch = s.logLatch ∧ t.selfLog = s.selfLog ∧ t.reports = s.reports ∧
    t.inputs = s.inputs ∧ t.logFlagMoved = s.logFlagMoved ∧ t.logDraws = s.logDraws := by
  cases h <;> simp

/-- An effect keeps memory's canonical form. -/
theorem Effect.keepsForm {i : Instr} (h : Effect i s t) : KeepsForm s t.mem := by
  cases h with
  | store m _ _ hm => exact hm
  | floatAdd _ _ m _ _ hm => exact hm
  | composite m _ hm => exact hm
  | znorm _ _ => exact id
  | success _ _ => exact id
  | failure _ _ _ => exact id
  | endif _ => exact id
  | compareTrue _ => exact id
  | compareFalse _ _ _ => exact id
  | fillSlide _ _ _ => exact id
  | memCopy _ _ _ => exact id
  | badSize _ _ => exact id
  | badCount _ => exact id

end Sys2Proof.Machine
end

