-- ==== Sys2Proof/Laws/Float.lean ====
section
/-! SUPPORT. What the operations of F32_ADD_U32 answer. -/

namespace Sys2Proof.Machine

theorem f32Round_le (u : Nat) : f32Round u ≤ f32Infinity := by
  unfold f32Round
  split
  · unfold f32Infinity; omega
  · exact Nat.min_le_right _ _

@[simp] theorem f32Round_zero : f32Round 0 = 0 := by decide

/-- The rounded magnitude and the sign do not overlap. -/
theorem f32OfValue_toNat (v : Int) :
    (f32OfValue v).toNat = f32Round v.natAbs + if v < 0 then 2 ^ 31 else 0 := by
  have h := f32Round_le v.natAbs
  rw [f32OfValue, BitVec.toNat_ofNat, Nat.mod_eq_of_lt]
  unfold f32Infinity at h
  split <;> omega

/-- A magnitude is rounded without a sign. -/
theorem f32OfValue_natCast_toNat (n : Nat) : (f32OfValue (n : Int)).toNat = f32Round n := by
  rw [f32OfValue_toNat, if_neg (by omega), Int.natAbs_natCast, Nat.add_zero]

theorem f32OfU32_toNat (d : Word) : (f32OfU32 d).toNat = f32Round (d.toNat * 2 ^ 149) :=
  f32OfValue_natCast_toNat _

/-- The bits without the sign. -/
theorem and_7FFFFFFF (m : Word) : (m &&& 0x7FFFFFFF).toNat = m.toNat % 2 ^ 31 := by
  rw [BitVec.toNat_and, show (0x7FFFFFFF : Word).toNat = 2 ^ 31 - 1 from rfl,
    Nat.and_two_pow_sub_one_eq_mod]

/-- A word of a finite number: its magnitude's bits are below those of infinity. -/
theorem finite_iff (m : Word) :
    (isNaN m = false ∧ isInf m = false) ↔ m.toNat % 2 ^ 31 < f32Infinity := by
  simp only [isNaN, isInf, and_7FFFFFFF, decide_eq_false_iff_not]
  omega

end Sys2Proof.Machine
end

