-- ==== Sys2Proof/Laws/PerInstr.lean ====
section
/-! SUPPORT. The family RowMatch: every instruction's two words, read as the 64-bit word W of
30_encoding.md R80, match the instruction's own row of spec/opcode_table.json. The masks and the
matches below are the table's. -/

namespace Sys2Proof.Laws

/-- `(mask, match)` of the instruction's row in the opcode table. -/
def rowOf : Instr → BitVec 64 × BitVec 64
  | .zend _ => (0xFFFFFFFFE0000000, 0x0000000000000000)
  | .zunk1 _ => (0xFFFFFFFFE0000000, 0x0000000020000000)
  | .znorm _ => (0xFFFFFFFFE0000000, 0x0000000040000000)
  | .zrow _ => (0xFFFFFFFFE0000000, 0x0000000060000000)
  | .zfs8 _ _ => (0xFFFFFFFFE6000000, 0x0000000080000000)
  | .zfs16 _ _ => (0xFFFFFFFFE6000000, 0x0000000082000000)
  | .zfs32 _ _ => (0xFFFFFFFFE6000000, 0x0000000084000000)
  | .zmcpy _ _ => (0xFFFFFFFFE6000000, 0x0000000086000000)
  | .zunk5 _ => (0xFFFFFFFFE0000000, 0x00000000A0000000)
  | .zunk6 _ => (0xFFFFFFFFE0000000, 0x00000000C0000000)
  | .zunk7 _ => (0xFFFFFFFFE0000000, 0x00000000E0000000)
  | .endif => (0xFFFFFFFFFFFFFFFF, 0x0000000040000000)
  | .selfmod _ _ _ => (0x01FFF00000000000, 0x0000200000000000)
  | .wr8 _ _ _ => (0xFE00000000000000, 0x0000000000000000)
  | .wr16 _ _ _ => (0xFE00000000000000, 0x0200000000000000)
  | .wr32 _ _ => (0xFE00000000000000, 0x0400000000000000)
  | .wrf32 _ _ => (0xFE00000000000000, 0x0600000000000000)
  | .pwr8 _ _ _ => (0xFE00000000000000, 0x4000000000000000)
  | .pwr16 _ _ _ => (0xFE00000000000000, 0x4200000000000000)
  | .pwr32 _ _ => (0xFE00000000000000, 0x4400000000000000)
  | .pwrf32 _ _ => (0xFE00000000000000, 0x4600000000000000)
  | .add8 _ _ => (0xFE00000000000000, 0x8000000000000000)
  | .add16 _ _ => (0xFE00000000000000, 0x8200000000000000)
  | .add32 _ _ => (0xFE00000000000000, 0x8400000000000000)
  | .addf32 _ _ => (0xFE00000000000000, 0x8600000000000000)
  | .master _ _ _ => (0xF800000000000000, 0xC000000000000000)
  | .ceq _ _ _ _ => (0x3800000000000000, 0x0800000000000000)
  | .cne _ _ _ _ => (0x3800000000000000, 0x1000000000000000)
  | .clts _ _ _ _ => (0x3800000000000000, 0x1800000000000000)
  | .cgts _ _ _ _ => (0x3800000000000000, 0x2000000000000000)
  | .cltu _ _ _ _ => (0x3800000000000000, 0x2800000000000000)
  | .cgtu _ _ _ _ => (0x3800000000000000, 0x3000000000000000)
  | .cand _ _ _ _ => (0x3800000000000000, 0x3800000000000000)
  | .fsdata _ _ _ _ => (0x0000000000000000, 0x0000000000000000)
  | .mcdata _ _ _ _ _ _ => (0x0000000000000000, 0x0000000000000000)

namespace RowMatch

/-- The words of `i` match its row. -/
def Statement (i : Instr) : Prop := (encode i).bits &&& (rowOf i).1 = (rowOf i).2

theorem zend : ∀ low, Statement (.zend low) := by
  intro low
  apply BitVec.eq_of_getLsbD_eq
  intro j hj
  simp only [encode, Entry.bits, rowOf, zeroEntry, BitVec.getLsbD_and, BitVec.getLsbD_append]
  interval_cases j <;> simp

theorem zunk1 : ∀ low, Statement (.zunk1 low) := by
  intro low
  apply BitVec.eq_of_getLsbD_eq
  intro j hj
  simp only [encode, Entry.bits, rowOf, zeroEntry, BitVec.getLsbD_and, BitVec.getLsbD_append]
  interval_cases j <;> simp

theorem znorm : ∀ low, Statement (.znorm low) := by
  intro low
  apply BitVec.eq_of_getLsbD_eq
  intro j hj
  simp only [encode, Entry.bits, rowOf, zeroEntry, BitVec.getLsbD_and, BitVec.getLsbD_append]
  interval_cases j <;> simp

theorem zrow : ∀ low, Statement (.zrow low) := by
  intro low
  apply BitVec.eq_of_getLsbD_eq
  intro j hj
  simp only [encode, Entry.bits, rowOf, zeroEntry, BitVec.getLsbD_and, BitVec.getLsbD_append]
  interval_cases j <;> simp

theorem zfs8 : ∀ t2 addr, Statement (.zfs8 t2 addr) := by
  intro t2 addr
  apply BitVec.eq_of_getLsbD_eq
  intro j hj
  simp only [encode, Entry.bits, rowOf, selectorEntry, BitVec.getLsbD_and, BitVec.getLsbD_append]
  interval_cases j <;> simp

theorem zfs16 : ∀ t2 addr, Statement (.zfs16 t2 addr) := by
  intro t2 addr
  apply BitVec.eq_of_getLsbD_eq
  intro j hj
  simp only [encode, Entry.bits, rowOf, selectorEntry, BitVec.getLsbD_and, BitVec.getLsbD_append]
  interval_cases j <;> simp

theorem zfs32 : ∀ t2 addr, Statement (.zfs32 t2 addr) := by
  intro t2 addr
  apply BitVec.eq_of_getLsbD_eq
  intro j hj
  simp only [encode, Entry.bits, rowOf, selectorEntry, BitVec.getLsbD_and, BitVec.getLsbD_append]
  interval_cases j <;> simp

theorem zmcpy : ∀ t2 addr, Statement (.zmcpy t2 addr) := by
  intro t2 addr
  apply BitVec.eq_of_getLsbD_eq
  intro j hj
  simp only [encode, Entry.bits, rowOf, selectorEntry, BitVec.getLsbD_and, BitVec.getLsbD_append]
  interval_cases j <;> simp

theorem zunk5 : ∀ low, Statement (.zunk5 low) := by
  intro low
  apply BitVec.eq_of_getLsbD_eq
  intro j hj
  simp only [encode, Entry.bits, rowOf, zeroEntry, BitVec.getLsbD_and, BitVec.getLsbD_append]
  interval_cases j <;> simp

theorem zunk6 : ∀ low, Statement (.zunk6 low) := by
  intro low
  apply BitVec.eq_of_getLsbD_eq
  intro j hj
  simp only [encode, Entry.bits, rowOf, zeroEntry, BitVec.getLsbD_and, BitVec.getLsbD_append]
  interval_cases j <;> simp

theorem zunk7 : ∀ low, Statement (.zunk7 low) := by
  intro low
  apply BitVec.eq_of_getLsbD_eq
  intro j hj
  simp only [encode, Entry.bits, rowOf, zeroEntry, BitVec.getLsbD_and, BitVec.getLsbD_append]
  interval_cases j <;> simp

theorem endif : Statement .endif := by
  unfold Statement
  decide

theorem selfmod : ∀ top low value, Statement (.selfmod top low value) := by
  intro top low value
  apply BitVec.eq_of_getLsbD_eq
  intro j hj
  simp only [encode, Entry.bits, rowOf, BitVec.getLsbD_and, BitVec.getLsbD_append]
  interval_cases j <;> simp

theorem wr8 : ∀ g reps data, Statement (.wr8 g reps data) := by
  intro g reps data
  apply BitVec.eq_of_getLsbD_eq
  intro j hj
  simp only [encode, Entry.bits, rowOf, cmdWord, BitVec.getLsbD_and, BitVec.getLsbD_append]
  interval_cases j <;> simp

theorem wr16 : ∀ g reps data, Statement (.wr16 g reps data) := by
  intro g reps data
  apply BitVec.eq_of_getLsbD_eq
  intro j hj
  simp only [encode, Entry.bits, rowOf, cmdWord, BitVec.getLsbD_and, BitVec.getLsbD_append]
  interval_cases j <;> simp

theorem wr32 : ∀ g data, Statement (.wr32 g data) := by
  intro g data
  apply BitVec.eq_of_getLsbD_eq
  intro j hj
  simp only [encode, Entry.bits, rowOf, cmdWord, BitVec.getLsbD_and, BitVec.getLsbD_append]
  interval_cases j <;> simp

theorem wrf32 : ∀ g data, Statement (.wrf32 g data) := by
  intro g data
  apply BitVec.eq_of_getLsbD_eq
  intro j hj
  simp only [encode, Entry.bits, rowOf, cmdWord, BitVec.getLsbD_and, BitVec.getLsbD_append]
  interval_cases j <;> simp

theorem pwr8 : ∀ g offset data, Statement (.pwr8 g offset data) := by
  intro g offset data
  apply BitVec.eq_of_getLsbD_eq
  intro j hj
  simp only [encode, Entry.bits, rowOf, cmdWord, BitVec.getLsbD_and, BitVec.getLsbD_append]
  interval_cases j <;> simp

theorem pwr16 : ∀ g index data, Statement (.pwr16 g index data) := by
  intro g index data
  apply BitVec.eq_of_getLsbD_eq
  intro j hj
  simp only [encode, Entry.bits, rowOf, cmdWord, BitVec.getLsbD_and, BitVec.getLsbD_append]
  interval_cases j <;> simp

theorem pwr32 : ∀ g data, Statement (.pwr32 g data) := by
  intro g data
  apply BitVec.eq_of_getLsbD_eq
  intro j hj
  simp only [encode, Entry.bits, rowOf, cmdWord, BitVec.getLsbD_and, BitVec.getLsbD_append]
  interval_cases j <;> simp

theorem pwrf32 : ∀ g data, Statement (.pwrf32 g data) := by
  intro g data
  apply BitVec.eq_of_getLsbD_eq
  intro j hj
  simp only [encode, Entry.bits, rowOf, cmdWord, BitVec.getLsbD_and, BitVec.getLsbD_append]
  interval_cases j <;> simp

theorem add8 : ∀ g addend, Statement (.add8 g addend) := by
  intro g addend
  apply BitVec.eq_of_getLsbD_eq
  intro j hj
  simp only [encode, Entry.bits, rowOf, cmdWord, BitVec.getLsbD_and, BitVec.getLsbD_append]
  interval_cases j <;> simp

theorem add16 : ∀ g addend, Statement (.add16 g addend) := by
  intro g addend
  apply BitVec.eq_of_getLsbD_eq
  intro j hj
  simp only [encode, Entry.bits, rowOf, cmdWord, BitVec.getLsbD_and, BitVec.getLsbD_append]
  interval_cases j <;> simp

theorem add32 : ∀ g addend, Statement (.add32 g addend) := by
  intro g addend
  apply BitVec.eq_of_getLsbD_eq
  intro j hj
  simp only [encode, Entry.bits, rowOf, cmdWord, BitVec.getLsbD_and, BitVec.getLsbD_append]
  interval_cases j <;> simp

theorem addf32 : ∀ g addend, Statement (.addf32 g addend) := by
  intro g addend
  apply BitVec.eq_of_getLsbD_eq
  intro j hj
  simp only [encode, Entry.bits, rowOf, cmdWord, BitVec.getLsbD_and, BitVec.getLsbD_append]
  interval_cases j <;> simp

theorem master : ∀ size g value, Statement (.master size g value) := by
  intro size g value
  apply BitVec.eq_of_getLsbD_eq
  intro j hj
  simp only [encode, Entry.bits, rowOf, cmdWord, BitVec.getLsbD_and, BitVec.getLsbD_append]
  interval_cases j <;> simp

theorem ceq : ∀ onFalse size g value, Statement (.ceq onFalse size g value) := by
  intro onFalse size g value
  apply BitVec.eq_of_getLsbD_eq
  intro j hj
  simp only [encode, Entry.bits, rowOf, cmdWord, BitVec.getLsbD_and, BitVec.getLsbD_append]
  interval_cases j <;> simp

theorem cne : ∀ onFalse size g value, Statement (.cne onFalse size g value) := by
  intro onFalse size g value
  apply BitVec.eq_of_getLsbD_eq
  intro j hj
  simp only [encode, Entry.bits, rowOf, cmdWord, BitVec.getLsbD_and, BitVec.getLsbD_append]
  interval_cases j <;> simp

theorem clts : ∀ onFalse size g value, Statement (.clts onFalse size g value) := by
  intro onFalse size g value
  apply BitVec.eq_of_getLsbD_eq
  intro j hj
  simp only [encode, Entry.bits, rowOf, cmdWord, BitVec.getLsbD_and, BitVec.getLsbD_append]
  interval_cases j <;> simp

theorem cgts : ∀ onFalse size g value, Statement (.cgts onFalse size g value) := by
  intro onFalse size g value
  apply BitVec.eq_of_getLsbD_eq
  intro j hj
  simp only [encode, Entry.bits, rowOf, cmdWord, BitVec.getLsbD_and, BitVec.getLsbD_append]
  interval_cases j <;> simp

theorem cltu : ∀ onFalse size g value, Statement (.cltu onFalse size g value) := by
  intro onFalse size g value
  apply BitVec.eq_of_getLsbD_eq
  intro j hj
  simp only [encode, Entry.bits, rowOf, cmdWord, BitVec.getLsbD_and, BitVec.getLsbD_append]
  interval_cases j <;> simp

theorem cgtu : ∀ onFalse size g value, Statement (.cgtu onFalse size g value) := by
  intro onFalse size g value
  apply BitVec.eq_of_getLsbD_eq
  intro j hj
  simp only [encode, Entry.bits, rowOf, cmdWord, BitVec.getLsbD_and, BitVec.getLsbD_append]
  interval_cases j <;> simp

theorem cand : ∀ onFalse size g value, Statement (.cand onFalse size g value) := by
  intro onFalse size g value
  apply BitVec.eq_of_getLsbD_eq
  intro j hj
  simp only [encode, Entry.bits, rowOf, cmdWord, BitVec.getLsbD_and, BitVec.getLsbD_append]
  interval_cases j <;> simp

theorem fsdata : ∀ val valIncr writeNum addrIncr, Statement (.fsdata val valIncr writeNum addrIncr) := by
  intro val valIncr writeNum addrIncr
  exact BitVec.and_zero

theorem mcdata : ∀ top src ptr check bit15 numBytes, Statement (.mcdata top src ptr check bit15 numBytes) := by
  intro top src ptr check bit15 numBytes
  exact BitVec.and_zero

end RowMatch

end Sys2Proof.Laws
end

