-- ==== Sys2Proof/Tests/Slice0.lean ====
section
/-! SUPPORT. Small tests, and for every obligation with hypotheses a witness that meets them together.
Words and results of the tests come from spec/ (95_test_vectors.md sections 1 and 2, and the encodings
of 30_encoding.md), not from the model. -/

namespace Sys2Proof.Tests

open Sys2Proof.Machine

/-! ## Helpers -/

/-- A run of the code `ops` that is about to take its first entry, over memory `m`. -/
def start (ops : List Entry) (m : Memory) : State :=
  { State.reset with code := ⟨"t", true, ops⟩, mem := m, phase := .inPass [] [] }

/-- The state between passes with the operation `op` next on the tape. -/
def waiting (op : HostOp) (gate : Bool) (active : List Code) : State :=
  { State.reset with inputs := [op], cheatsEnabled := gate, active := active }

/-- What a test looks at in an outcome. -/
def after {α : Type} (o : Out) (f : State → α) : Option α :=
  match o with
  | .next t => some (f t)
  | .fault _ => none
  | .refused _ => none

/-- The fault of an outcome. -/
def faultOf (o : Out) : Option Fault :=
  match o with
  | .next _ => none
  | .fault f => some f
  | .refused _ => none

/-- The memory an instruction leaves, from memory `m`. -/
def memAfter (i : Instr) (m : Memory) : Option Memory := after (exec i (start [] m)) (·.mem)

/-- The memory FSDATA or MCDATA leaves, from the selector word `v` and memory `m`. -/
def compositeAfter (i : Instr) (v : Word) (m : Memory) : Option Memory :=
  after (exec i { start [] m with vlast := v }) (·.mem)

/-- SKIP after a conditional, from memory `m`. -/
def skipAfter (i : Instr) (m : Memory) : Option Word := after (exec i (start [] m)) (·.skip)

/-- The instruction an entry is, in a context, under the default guard. -/
def reads (c : Context) (cmd value : Word) : Option Instr :=
  match decode .gcaddr c ⟨cmd, value⟩ with
  | .ok i => some i
  | .error _ => none

/-- One code that is active, with one entry. -/
def aCode : Code := ⟨"a", true, [⟨0x00100000, 0xAA⟩]⟩

/-- A code that is not active. -/
def inactiveCode : Code := ⟨"b", false, []⟩

/-! ## Decoding: every constructor from its words -/

/-- 95_test_vectors.md section 2.2. -/
theorem test_decode_zero_codes :
    reads .dispatch 0 0x1FFFFFFF = some (.zend 0x1FFFFFFF) ∧
    reads .dispatch 0 0x20000000 = some (.zunk1 0) ∧
    reads .dispatch 0 0x5FFFFFFF = some (.znorm 0x1FFFFFFF) ∧
    reads .dispatch 0 0x60000000 = some (.zrow 0) ∧
    reads .dispatch 0 0xA0000000 = some (.zunk5 0) ∧
    reads .dispatch 0 0xC0000000 = some (.zunk6 0) ∧
    reads .dispatch 0 0xE0000000 = some (.zunk7 0) := by decide

/-- 95_test_vectors.md section 2.2. -/
theorem test_decode_selectors :
    reads .dispatch 0 0x98100000 = some (.zfs8 3 0x100000) ∧
    reads .dispatch 0 0x82100000 = some (.zfs16 0 0x100000) ∧
    reads .dispatch 0 0x84100000 = some (.zfs32 0 0x100000) ∧
    reads .dispatch 0 0x9E500000 = some (.zmcpy 3 0x500000) := by decide

/-- 95_test_vectors.md section 2.1, Q13. -/
theorem test_decode_guard :
    reads .dispatch 0x00001FFF 0x11 = some (.wr8 0x1FFF 0 0x11) ∧
    reads .dispatch 0x00002000 0x11 = some (.selfmod 0 0 0x11) ∧
    reads .dispatch 0x86002FFF 0x11 = some (.selfmod 0x43 0xFFF 0x11) ∧
    reads .dispatch 0x44003000 0 = some (.pwr32 0x3000 0) := by decide

/-- 95_test_vectors.md section 2.4; the float word has size 3 (30_encoding.md R81). -/
theorem test_decode_writes :
    reads .dispatch 0x00000001 0xFFFFFF12 = some (.wr8 1 0xFFFFFF 0x12) ∧
    reads .dispatch 0x02100001 0x00011234 = some (.wr16 0x100001 1 0x1234) ∧
    reads .dispatch 0x057FFFFC 0x11223344 = some (.wr32 0x17FFFFC 0x11223344) ∧
    reads .dispatch 0x06100000 0x3F800000 = some (.wrf32 0x100000 0x3F800000) := by decide

/-- 95_test_vectors.md section 2.5. -/
theorem test_decode_pointer_writes :
    reads .dispatch 0x40200000 0x00001012 = some (.pwr8 0x200000 0x10 0x12) ∧
    reads .dispatch 0x42200000 0x0001BEEF = some (.pwr16 0x200000 1 0xBEEF) ∧
    reads .dispatch 0x44200000 0xCAFEBABE = some (.pwr32 0x200000 0xCAFEBABE) ∧
    reads .dispatch 0x46200000 0x40490FDB = some (.pwrf32 0x200000 0x40490FDB) := by decide

/-- 95_test_vectors.md sections 2.6, 2.7, 2.12. -/
theorem test_decode_adds_and_master :
    reads .dispatch 0x80600000 0x12345601 = some (.add8 0x600000 0x12345601) ∧
    reads .dispatch 0x82600000 0x00010001 = some (.add16 0x600000 0x10001) ∧
    reads .dispatch 0x84600001 0x00000001 = some (.add32 0x600001 1) ∧
    reads .dispatch 0x86600000 0x00000001 = some (.addf32 0x600000 1) ∧
    reads .dispatch 0xC6FFFFFF 0xFFFFFFFF = some (.master .f32 0xFFFFFF 0xFFFFFFFF) := by decide

/-- 95_test_vectors.md section 2.1; CLTS and CGTS from 30_encoding.md R81 with types 3 and 4, CGTU
with type 6: subtype, type, size, gcaddr = 3, 3, 1, 0x200000 and so on. -/
theorem test_decode_conditionals :
    reads .dispatch 0x88200000 5 = some (.ceq .untilEndif .s8 0x200000 5) ∧
    reads .dispatch 0x52200000 5 = some (.cne .skipTwo .s16 0x200000 5) ∧
    reads .dispatch 0xDA200000 5 = some (.clts .skipAll .s16 0x200000 5) ∧
    reads .dispatch 0x24200000 5 = some (.cgts .skipOne .s32 0x200000 5) ∧
    reads .dispatch 0xE8600000 5 = some (.cltu .skipAll .s8 0x600000 5) ∧
    reads .dispatch 0x70200000 5 = some (.cgtu .skipTwo .s8 0x200000 5) ∧
    reads .dispatch 0x7E123456 5 = some (.cand .skipTwo .f32 0x123456 5) := by decide

/-- 40_sequencer.md R124; 95_test_vectors.md Q3, Q5, sections 2.8, 2.9. -/
theorem test_decode_in_context :
    reads .untilEndif 0 0x40000000 = some .endif ∧
    reads .untilEndif 0 0x5FFFFFFF = none ∧
    reads .fillSlide 0x00001000 0xFF03FFFF = some (.fsdata 0x1000 0xFF 3 0xFFFF) ∧
    reads .memCopy 0x00400000 0x01FF8003 = some (.mcdata 0 0x400000 1 0xFF 1 3) := by decide

/-- The encoder on the same words (30_encoding.md R81, R85, R87). -/
theorem test_encode :
    encode (.cand .skipTwo .f32 0x123456 5) = ⟨0x7E123456, 5⟩ ∧
    encode (.zmcpy 3 0x500000) = ⟨0, 0x9E500000⟩ ∧
    encode (.wr16 0x100001 1 0x1234) = ⟨0x02100001, 0x00011234⟩ ∧
    encode (.mcdata 0x41 0x400000 1 0xFF 1 3) = ⟨0x82400000, 0x01FF8003⟩ := by decide

/-- A table word is placed and run as the first instruction after reset (95_test_vectors.md 2.4). -/
theorem test_withFetchWord :
    after (step (State.reset.withFetchWord 64 0x04100000_11223344)) (·.mem) =
      some [(0x80100000, 0x11), (0x80100001, 0x22), (0x80100002, 0x33), (0x80100003, 0x44)] := by
  decide

/-! ## WellFormed: an ill-formed term for each check -/

/-- Zero is never a WR8's command word (30_encoding.md R84). -/
theorem test_wf_refuses_zero_wr8 : (Instr.wr8 0 0 0x55).wf .gcaddr = false := by decide

/-- The guard's region: a normal code, a pointer write, an add, a master code, a conditional. -/
theorem test_wf_refuses_guarded :
    (Instr.wr8 0x2000 0 0).wf .gcaddr = false ∧ (Instr.wr16 0x2000 0 0).wf .gcaddr = false ∧
    (Instr.wr32 0x2500 1).wf .gcaddr = false ∧ (Instr.pwr8 0x2FFF 0 0).wf .gcaddr = false ∧
    (Instr.addf32 0x2FFF 0).wf .gcaddr = false ∧ (Instr.master .s32 0x2500 0).wf .gcaddr = false ∧
    (Instr.ceq .skipOne .s8 0x2000 0).wf .gcaddr = false := by decide

/-- A SELFMOD the guard does not catch under its basis (95_test_vectors.md Q15). -/
theorem test_wf_refuses_unguarded_selfmod :
    (Instr.selfmod 2 0x500 1).wf .raw = false ∧ (Instr.selfmod 2 0x500 1).wf .gcaddr = true := by
  decide

/-! ## One step of each instruction -/

/-- 95_test_vectors.md 2.2, 2.12. -/
theorem test_zend : after (exec (.zend 0) (start [] [])) (·.result) = some .success := by decide

theorem test_znorm : after (exec (.znorm 0) (start [] [])) id = some (start [] []) := by decide

theorem test_zrow : after (step (start [⟨0, 0x60000000⟩] [])) (·.result) =
    some (.failure .unsupportedRow ⟨3, 0, ⟨0, 0x60000000⟩⟩) := by decide

theorem test_zunk1 : after (step (start [⟨0, 0x20000000⟩] [])) (·.result) =
    some (.failure .unknownZcode ⟨1, 0, ⟨0, 0x20000000⟩⟩) := by decide

theorem test_zunk5 : after (step (start [⟨0, 0xA0000000⟩] [])) (·.result) =
    some (.failure .unknownZcode ⟨5, 0, ⟨0, 0xA0000000⟩⟩) := by decide

theorem test_zunk6 : after (step (start [⟨0, 0xC0000000⟩] [])) (·.result) =
    some (.failure .unknownZcode ⟨6, 0, ⟨0, 0xC0000000⟩⟩) := by decide

theorem test_zunk7 : after (step (start [⟨0, 0xE0000000⟩] [])) (·.result) =
    some (.failure .unknownZcode ⟨7, 0, ⟨0, 0xE0000000⟩⟩) := by decide

theorem test_zfs8 : after (exec (.zfs8 3 0x100000) (start [] [])) (fun t => (t.pend, t.vlast)) =
    some (.fillSlide, 0x98100000) := by decide

theorem test_zfs16 : after (exec (.zfs16 0 0x100000) (start [] [])) (fun t => (t.pend, t.vlast)) =
    some (.fillSlide, 0x82100000) := by decide

theorem test_zfs32 : after (exec (.zfs32 0 0x100000) (start [] [])) (fun t => (t.pend, t.vlast)) =
    some (.fillSlide, 0x84100000) := by decide

theorem test_zmcpy : after (exec (.zmcpy 3 0x500000) (start [] [])) (fun t => (t.pend, t.vlast)) =
    some (.memCopy, 0x9E500000) := by decide

/-- 40_sequencer.md R124. -/
theorem test_endif :
    after (step { start [⟨0, 0x40000000⟩] [] with skip := -2 }) (fun t => (t.skip, t.idx)) =
      some (0, 1) := by decide

/-- 95_test_vectors.md S6, Q10. -/
theorem test_selfmod : after (step (start [⟨0x04002500, 1⟩] [])) (fun t => (t.result, t.mem)) =
    some (.failure .selfModify ⟨0x04002500, 0, ⟨0x04002500, 1⟩⟩, []) := by decide

theorem test_guard_wins_over_master :
    after (step (start [⟨0xC4002500, 0⟩] [])) (·.result) =
      some (.failure .selfModify ⟨0xC4002500, 0, ⟨0xC4002500, 0⟩⟩) := by decide

/-- 95_test_vectors.md 2.12. -/
theorem test_master : after (step (start [⟨0xC6FFFFFF, 0xFFFFFFFF⟩] [])) (·.result) =
    some (.failure .masterCode ⟨0xC6FFFFFF, 0, ⟨0xC6FFFFFF, 0xFFFFFFFF⟩⟩) := by decide

/-- 95_test_vectors.md 2.4. -/
theorem test_wr8_fills : memAfter (.wr8 0x100000 2 0xFF) [] =
    some [(0x80100000, 0xFF), (0x80100001, 0xFF), (0x80100002, 0xFF)] := by decide

theorem test_wr8_at_the_end : faultOf (exec (.wr8 0x17FFFFF 1 0x77) (start [] [])) =
    some (.outOfWindow 0x81800000 [(0x817FFFFF, 0x77)]) := by decide

theorem test_wr16_fills : memAfter (.wr16 0x100001 1 0x1234) [] =
    some [(0x80100001, 0x12), (0x80100002, 0x34), (0x80100003, 0x12), (0x80100004, 0x34)] := by
  decide

theorem test_wr32_last_word : memAfter (.wr32 0x17FFFFC 0x11223344) [] =
    some [(0x817FFFFC, 0x11), (0x817FFFFD, 0x22), (0x817FFFFE, 0x33), (0x817FFFFF, 0x44)] := by
  decide

theorem test_wr32_straddles : faultOf (exec (.wr32 0x17FFFFD 0x11223344) (start [] [])) =
    some (.outOfWindow 0x817FFFFD []) := by decide

theorem test_wrf32 : memAfter (.wrf32 0x100000 0x3F800000) [] =
    some [(0x80100000, 0x3F), (0x80100001, 0x80)] := by decide

/-- 95_test_vectors.md 2.5. -/
theorem test_pwr8 : memAfter (.pwr8 0x200000 0xFFFFFF 0x5A) [(0x80200000, 0x80)] =
    some [(0x80200000, 0x80), (0x80FFFFFF, 0x5A)] := by decide

theorem test_pwr8_wraps :
    let m : Memory := [(0x80200000, 0xFF), (0x80200001, 0xFF), (0x80200002, 0xFF), (0x80200003, 0xF8)]
    faultOf (exec (.pwr8 0x200000 0x10 0x12) (start [] m)) = some (.outOfWindow 8 m) := by decide

theorem test_pwr16 :
    let m : Memory := [(0x80200000, 0x80), (0x80200001, 0x30), (0x80200003, 0x01)]
    memAfter (.pwr16 0x200000 1 0xBEEF) m = some (m ++ [(0x80300003, 0xBE), (0x80300004, 0xEF)]) := by
  decide

theorem test_pwr32 :
    let m : Memory := [(0x80200000, 0x80), (0x80200001, 0x30)]
    memAfter (.pwr32 0x200000 0xCAFEBABE) m = some (m ++ [(0x80300000, 0xCA), (0x80300001, 0xFE),
      (0x80300002, 0xBA), (0x80300003, 0xBE)]) := by decide

theorem test_pwr32_null : faultOf (exec (.pwr32 0x200000 1) (start [] [])) =
    some (.outOfWindow 0 []) := by decide

theorem test_pwrf32 :
    let m : Memory := [(0x80200000, 0x80), (0x80200001, 0x30)]
    memAfter (.pwrf32 0x200000 0x40490FDB) m = some (m ++ [(0x80300000, 0x40), (0x80300001, 0x49),
      (0x80300002, 0x0F), (0x80300003, 0xDB)]) := by decide

/-- 95_test_vectors.md 2.6. -/
theorem test_add8 : memAfter (.add8 0x600000 0x12345601) [(0x80600000, 0x7F)] =
    some [(0x80600000, 0x80)] := by decide

theorem test_add8_wraps : memAfter (.add8 0x600000 0x20) [(0x80600000, 0xF0)] =
    some [(0x80600000, 0x10)] := by decide

theorem test_add16 : memAfter (.add16 0x600000 0x00010001) [(0x80600000, 0x12), (0x80600001, 0x34)] =
    some [(0x80600000, 0x12), (0x80600001, 0x35)] := by decide

theorem test_add32 :
    memAfter (.add32 0x600001 1) [(0x80600000, 0xAA), (0x80600004, 0xFF), (0x80600005, 0xBB)] =
      some [(0x80600000, 0xAA), (0x80600003, 0x01), (0x80600005, 0xBB)] := by decide

/-- 95_test_vectors.md 2.7: pi + 2, and 2^24 + 1, a tie that rounds to even. -/
theorem test_addf32 : memAfter (.addf32 0x600000 2)
      [(0x80600000, 0x40), (0x80600001, 0x49), (0x80600002, 0x0F), (0x80600003, 0xDB)] =
    some [(0x80600000, 0x40), (0x80600001, 0xA4), (0x80600002, 0x87), (0x80600003, 0xEE)] := by
  decide

theorem test_f32_add : f32AddFinite 0x4B800000 1 = 0x4B800000 ∧
    f32AddFinite 0xBF800000 1 = 0 ∧ f32AddFinite 0x80000000 0 = 0 ∧
    f32AddFinite 0 0xFFFFFFFF = 0x4F800000 ∧ f32AddFinite 0xFF800000 5 = 0xFF800000 ∧
    f32AddFinite 1 0 = 1 := by decide

/-- 95_test_vectors.md 2.10. -/
theorem test_ceq : skipAfter (.ceq .untilEndif .s8 0x200000 0xFFFFFF05) [(0x80200000, 5)] = some 0 ∧
    skipAfter (.ceq .skipOne .f32 0x200000 0x80000000) [] = some 1 := by decide

theorem test_ceq_out_of_window :
    faultOf (exec (.ceq .skipOne .s8 0x1800000 0) (start [] [])) =
      some (.outOfWindow 0x81800000 []) := by decide

theorem test_cne : skipAfter (.cne .skipTwo .s16 0x200000 0x1234)
    [(0x80200000, 0x12), (0x80200001, 0x34)] = some 2 := by decide

theorem test_clts : skipAfter (.clts .skipAll .s8 0x200000 0x01) [(0x80200000, 0x80)] = some 0 ∧
    skipAfter (.clts .skipAll .s16 0x200000 0x8000) [(0x80200000, 0x7F), (0x80200001, 0xFF)] =
      some (-3) := by decide

theorem test_cgts : skipAfter (.cgts .untilEndif .s32 0x200000 0x7FFFFFFF) [(0x80200000, 0x80)] =
    some (-2) ∧ skipAfter (.cgts .untilEndif .s8 0x200000 0x80) [(0x80200000, 0x7F)] = some 0 := by
  decide

/-- The column CLTS (zext) of 95_test_vectors.md 2.10. -/
theorem test_signed_zero_extend :
    let s := start [] [(0x80200000, 0x80)]
    after (exec (.clts .skipOne .s8 0x200000 0x01)
      { s with cfg := { s.cfg with signedNarrow := .zeroExtend } }) (·.skip) = some 1 := by decide

theorem test_cltu : skipAfter (.cltu .skipOne .s8 0x200000 0x80) [(0x80200000, 0x7F)] = some 0 ∧
    skipAfter (.cltu .skipOne .s8 0x200000 0x01) [(0x80200000, 0x80)] = some 1 := by decide

theorem test_cgtu : skipAfter (.cgtu .skipOne .s16 0x200000 0x7FFF) [(0x80200000, 0x80)] = some 0 ∧
    skipAfter (.cgtu .skipOne .s8 0x200000 0x05) [(0x80200000, 0x05)] = some 1 := by decide

theorem test_cand : skipAfter (.cand .skipOne .s8 0x200000 0x010F) [(0x80200000, 0xF0)] = some 1 ∧
    skipAfter (.cand .skipOne .s8 0x200000 0x05) [(0x80200000, 0x05)] = some 0 := by decide

/-- 95_test_vectors.md 2.8. -/
theorem test_fsdata : compositeAfter (.fsdata 0x1000 0xFF 3 0xFFFF) 0x82100010 [] =
    some [(0x8010000C, 0x0F), (0x8010000D, 0xFE), (0x8010000E, 0x0F), (0x8010000F, 0xFF),
      (0x80100010, 0x10)] := by decide

theorem test_fsdata_wraps : compositeAfter (.fsdata 0xFFFFFFFE 1 3 1) 0x84100000 [] =
    some [(0x80100000, 0xFF), (0x80100001, 0xFF), (0x80100002, 0xFF), (0x80100003, 0xFE),
      (0x80100004, 0xFF), (0x80100005, 0xFF), (0x80100006, 0xFF), (0x80100007, 0xFF)] := by decide

/-- 95_test_vectors.md 2.9: the overlapping copy, and pointer mode. -/
theorem test_mcdata_overlap : compositeAfter (.mcdata 0 0x400000 0 0 0 4) 0x86400001
      [(0x80400000, 0x11), (0x80400001, 0x22), (0x80400002, 0x33), (0x80400003, 0x44)] =
    some [(0x80400000, 0x11), (0x80400001, 0x11), (0x80400002, 0x11), (0x80400003, 0x11),
      (0x80400004, 0x11)] := by decide

theorem test_mcdata_pointers :
    let m : Memory := [(0x80200000, 0x80), (0x80200001, 0x60), (0x80200004, 0x80),
      (0x80200005, 0x70), (0x80600000, 1), (0x80600001, 2), (0x80600002, 3)]
    compositeAfter (.mcdata 0 0x200000 1 0 0 3) 0x86200004 m =
      some (m ++ [(0x80700000, 1), (0x80700001, 2), (0x80700002, 3)]) := by decide

/-- 95_test_vectors.md 2.9: the check field. -/
theorem test_mcdata_bad_count :
    after (exec (.mcdata 0 0x400000 0 1 0 3) { start [] [] with idx := 2, vlast := 0x86500000 })
      (·.result) = some (.failure .memcpyBadValue ⟨0x00010000, 1, ⟨0x00400000, 0x00010003⟩⟩) := by
  decide

/-- 95_test_vectors.md Q15: under the raw basis the entry is a WR32. -/
theorem test_raw_basis :
    let s := start [⟨0x04002500, 1⟩] []
    after (step { s with cfg := { s.cfg with selfmodBasis := .raw } }) (·.mem) =
      some [(0x80002503, 1)] := by decide

/-- 95_test_vectors.md 2.13: the closed gate, and the open one. -/
theorem test_gate :
    after (step (waiting .runAllActive false [aCode])) (fun t => (t.phase, t.active, t.logLatch)) =
      some (.idle, [aCode], false) ∧
    after (step (waiting .runAllActive true [aCode])) (fun t => (t.phase, t.code)) =
      some (.inPass [] [], aCode) := by decide

/-- 60_exceptions.md R276: the flag is set; after it has been cleared again a run may still read it
as on or as off. -/
theorem test_log_flag :
    after (step (waiting (.enableSelfLogging true) true [])) (fun t => (t.useInternalLog, t.selfLog)) =
      some (true, []) ∧
    (enableSelfLogging false (enableSelfLogging true (waiting .getSelfLog true []))).readLogFlag =
      Config.freeStaleRead 0 :=
  ⟨by decide, by simp [State.readLogFlag, enableSelfLogging, waiting, State.reset]⟩

/-! ## Witnesses: each obligation's hypotheses, met together -/

/-- The endif marker, and a WR8. -/
def marker : Entry := ⟨0, 0x40000000⟩
def wr8Entry : Entry := ⟨0x00100000, 0xAA⟩

theorem witness_StepRunsTheDecodedInstruction_dispatch :
    (start [wr8Entry] []).Running ∧ (start [wr8Entry] []).entryAt = some wr8Entry ∧
    (Instr.wr8 0x100000 0 0xAA).wf .gcaddr = true ∧ (start [wr8Entry] []).skip = 0 ∧
    decode .gcaddr (pendContext (start [wr8Entry] []).pend) wr8Entry = .ok (.wr8 0x100000 0 0xAA) :=
  ⟨⟨⟨[], [], rfl⟩, rfl⟩, by decide, by decide, rfl, rfl⟩

theorem witness_StepRunsTheDecodedInstruction_endif :
    { start [marker] [] with skip := skipUntilEndif }.Running ∧
    { start [marker] [] with skip := skipUntilEndif }.entryAt = some marker ∧
    Instr.endif.wf .gcaddr = true ∧ decode .gcaddr .untilEndif marker = .ok .endif :=
  ⟨⟨⟨[], [], rfl⟩, rfl⟩, by decide, rfl, rfl⟩

theorem witness_PlacedWordIsTheNextInstruction :
    State.reset.cfg.selfmodBasis = .gcaddr ∧
    decodeTableWord 64 0x04100000_11223344 = some (.wr32 0x100000 0x11223344) := by decide

theorem witness_DecodingIsTotalOutsideTheMarkerSearch :
    (Context.fillSlide ≠ .untilEndif ∧ marker = endifMarker) ∧
    (⟨0, 0x5FFFFFFF⟩ : Entry) ≠ endifMarker ∧
    decode .raw .dispatch ⟨0x04002500, 1⟩ = .ok (.wr32 0x2500 1) :=
  ⟨by decide, by decide, rfl⟩

theorem witness_DecodeUndoesEncode :
    (Instr.wr8 1 0xFFFFFF 0xFF).wf .gcaddr = true ∧ (Instr.wr32 0x1FFF 1).wf .gcaddr = true ∧
    (Instr.ceq .skipAll .f32 0x3000 1).wf .gcaddr = true ∧ (Instr.wr32 0x2500 1).wf .raw = true ∧
    (Instr.selfmod 0x7F 0xFFF 0).wf .gcaddr = true := by decide

theorem witness_EffectiveAddressIsGcaddrInTheCachedRange :
    cmdGcaddr 0xFFFFFFFF = cmdGcaddr 0x01FFFFFF ∧ eaWord 0xFFFFFFFF = 0x81FFFFFF ∧
    eaWord 0 = 0x80000000 := by decide

/-- The last word in the window, the first straddling one, and the one below it. -/
theorem witness_LoadsAreBigEndian :
    accessible Config.default 0x817FFFFC 4 = true ∧ accessible Config.default 0x817FFFFD 4 = false ∧
    accessible Config.default 0x80000000 1 = true ∧ accessible Config.default 0x7FFFFFFF 1 = false := by
  decide

theorem witness_StoresAreBigEndian :
    Memory.wf [(0x80000000, 1)] = true ∧ accessible Config.default 0x817FFFFE 2 = true ∧
    accessible Config.default 0x817FFFFF 2 = false := by decide

theorem witness_LoadAfterStoreReadsTheValue :
    Memory.wf [(0x80000000, 1)] = true ∧
    memWrite Config.default [(0x80000000, 1)] 0x80000000 .half 0x55AA0003 = .ok [(0x80000001, 3)] ∧
    ¬ InBytes 0x80000000 2 0x80000002 := by
  refine ⟨by decide, rfl, ?_⟩
  rintro ⟨k, hk, h⟩
  have := congrArg BitVec.toNat h
  interval_cases k <;> simp at this

theorem witness_FaultsAreOutOfWindowAccesses :
    exec (.wr8 0x17FFFFF 1 0x77) (start [] []) =
      .fault (.outOfWindow 0x81800000 [(0x817FFFFF, 0x77)]) := rfl

/-- The state over memory `m` with OOW_POLICY flat. -/
def flat (s : State) : State := { s with cfg := { s.cfg with oowPolicy := .flat } }

theorem witness_EveryInstructionRunsUnderFlat :
    (flat (start [] [])).cfg.oowPolicy = .flat ∧
    memAfter (.wr8 0x1800000 0 0x77) [] = none ∧
    after (exec (.wr8 0x1800000 0 0x77) (flat (start [] []))) (·.mem) =
      some [(0x81800000, 0x77)] := by decide

theorem witness_OutOfWindowBytesNeverChange :
    (start [wr8Entry] []).Running ∧ Memory.wf (start [wr8Entry] []).mem = true ∧
    (start [wr8Entry] []).cfg.oowPolicy = .modelFault ∧
    (∃ t, step (start [wr8Entry] []) = .next t) ∧ inWindow Config.default 0x81800000 1 = false :=
  ⟨⟨⟨[], [], rfl⟩, rfl⟩, rfl, rfl, ⟨_, rfl⟩, by decide⟩

theorem witness_CountedSkipHasNoOtherEffect :
    { start [wr8Entry] [] with skip := 1 }.Running ∧
    { start [wr8Entry] [] with skip := 1 }.entryAt = some wr8Entry ∧ 0 < (1 : Word).toInt :=
  ⟨⟨⟨[], [], rfl⟩, rfl⟩, rfl, by decide⟩

theorem witness_SkippedEntriesCountExactly :
    { start [wr8Entry, marker] [] with skip := 2 }.Running ∧ 2 < 2 ^ 31 ∧
    (2 : Word) = BitVec.ofNat 32 2 ∧ 0 + 2 ≤ [wr8Entry, marker].length :=
  ⟨⟨⟨[], [], rfl⟩, rfl⟩, by decide, rfl, by decide⟩

/-- With an entry at IDX, and at the end of the list; two steps answer a next state. -/
theorem witness_SkipAllEndsTheRun :
    { start [wr8Entry] [] with skip := skipAll }.Running ∧
    { start [wr8Entry] [] with skip := skipAll }.entryAt = some wr8Entry ∧
    { start [] [] with skip := skipAll }.entryAt = none ∧
    ∃ t, Host.Core.run Sys2Proof.core 2 { start [wr8Entry] [] with skip := skipAll } = .next t :=
  ⟨⟨⟨[], [], rfl⟩, rfl⟩, rfl, rfl, ⟨_, rfl⟩⟩

/-- One entry is skipped, then the marker stands, or the list ends. -/
theorem witness_SkipUntilEndifEndsAtTheFirstMarker :
    { start [wr8Entry, marker] [] with skip := skipUntilEndif }.Running ∧
    (∀ k < 1, ∃ e, [wr8Entry, marker][0 + k]? = some e ∧ e ≠ ⟨0, 0x40000000⟩) ∧
    [wr8Entry, marker][0 + 1]? = some ⟨0, 0x40000000⟩ ∧ [wr8Entry][0 + 1]? = none := by
  refine ⟨⟨⟨[], [], rfl⟩, rfl⟩, fun k hk => ⟨wr8Entry, ?_, by decide⟩, rfl, rfl⟩
  interval_cases k
  rfl

theorem witness_ListEndIsSuccess :
    { start [] [] with pend := .memCopy, skip := 2 }.Running ∧
    { start [] [] with pend := .memCopy, skip := 2 }.entryAt = none := ⟨⟨⟨[], [], rfl⟩, rfl⟩, rfl⟩

theorem witness_FollowUpIsConsumedAsOperands :
    { start [marker] [] with pend := .fillSlide, vlast := 0x80100000 }.Running ∧
    { start [marker] [] with pend := .fillSlide, vlast := 0x80100000 }.entryAt = some marker ∧
    (∃ t, step { start [marker] [] with pend := .fillSlide, vlast := 0x80100000 } = .next t) ∧
    ∃ t, step { start [marker] [] with pend := .memCopy, vlast := 0x86100000 } = .next t :=
  ⟨⟨⟨[], [], rfl⟩, rfl⟩, rfl, ⟨_, rfl⟩, ⟨_, rfl⟩⟩

/-- The lowest and the highest address of the region, under either basis. -/
theorem witness_GuardStopsDirectTargets :
    (start [⟨0x00002000, 0⟩] []).Running ∧ (start [⟨0x00002000, 0⟩] []).pend = .none ∧
    0x2000 ≤ (cmdGcaddr 0x00002000).toNat ∧ (cmdGcaddr 0xFE002FFF).toNat < 0x3000 ∧
    0x2000 ≤ (0x00002000 : Word).toNat ∧ (0x00002FFF : Word).toNat < 0x3000 :=
  ⟨⟨⟨[], [], rfl⟩, rfl⟩, rfl, by decide, by decide, by decide, by decide⟩

/-- The last two bytes of the window: a fill of two runs, a fill of three faults on the third. -/
theorem witness_Wr8FillsRepeatPlusOneBytes :
    Memory.wf (start [] []).mem = true ∧
    (∀ i ≤ (1 : BitVec 24).toNat,
      accessible Config.default (stepAddr (ea 0x17FFFFE) 1 i) 1 = true) ∧
    accessible Config.default (stepAddr (ea 0x17FFFFE) 1 2) 1 = false := by
  refine ⟨rfl, fun i hi => ?_, by decide⟩
  have : i ≤ 1 := hi
  interval_cases i <;> decide

theorem witness_Wr16FillsRepeatPlusOneHalfWords :
    Memory.wf (start [] []).mem = true ∧
    (∀ i ≤ (1 : BitVec 16).toNat,
      accessible Config.default (stepAddr (ea 0x17FFFFC) 2 i) 2 = true) ∧
    accessible Config.default (stepAddr (ea 0x17FFFFC) 2 2) 2 = false := by
  refine ⟨rfl, fun i hi => ?_, by decide⟩
  have : i ≤ 1 := hi
  interval_cases i <;> decide

theorem witness_WordWritesStoreTheirValue :
    accessible Config.default (ea 0x17FFFFC) 4 = true ∧
    accessible Config.default (ea 0x17FFFFD) 4 = false := by decide

/-- Memory whose word at 0x80200000 is 0x80300000. -/
def pointerMem : Memory := [(0x80200000, 0x80), (0x80200001, 0x30)]

/-- A pointer that reaches the target, one that is not accessible, one whose target is not. -/
theorem witness_Pwr8WritesAtPointerPlusOffset :
    Memory.wf pointerMem = true ∧ accessible Config.default (ea 0x200000) 4 = true ∧
    accessible Config.default (loadBE pointerMem (ea 0x200000) 4 + (0xFFFFFF : BitVec 24).setWidth 32) 1
      = true ∧
    accessible Config.default (ea 0x1FFFFFF) 4 = false ∧
    accessible Config.default (loadBE [] (ea 0x200000) 4 + (0 : BitVec 24).setWidth 32) 1 = false := by
  decide

theorem witness_Pwr16WritesAtPointerPlusTwiceIndex :
    Memory.wf pointerMem = true ∧ accessible Config.default (ea 0x200000) 4 = true ∧
    accessible Config.default (loadBE pointerMem (ea 0x200000) 4 +
      BitVec.ofNat 32 (2 * (0xFFFF : BitVec 16).toNat)) 2 = true ∧
    accessible Config.default (ea 0x1FFFFFF) 4 = false ∧
    accessible Config.default (loadBE [] (ea 0x200000) 4 +
      BitVec.ofNat 32 (2 * (0 : BitVec 16).toNat)) 2 = false := by decide

theorem witness_PointerWordWritesStoreAtThePointer :
    Memory.wf pointerMem = true ∧ accessible Config.default (ea 0x200000) 4 = true ∧
    accessible Config.default (loadBE pointerMem (ea 0x200000) 4) 4 = true ∧
    accessible Config.default (ea 0x1FFFFFF) 4 = false ∧
    accessible Config.default (loadBE [] (ea 0x200000) 4) 4 = false := by decide

theorem witness_AddsWrapAtTheirWidth :
    Memory.wf pointerMem = true ∧ accessible Config.default (ea 0x17FFFFF) Width.byte.bytes = true ∧
    accessible Config.default (ea 0x17FFFFF) Width.half.bytes = false ∧
    accessible Config.default (ea 0x17FFFFC) Width.word.bytes = true := by decide

/-- A number, an exact zero sum (-1.0 + 1), an infinity, a NaN, and the reading that is not the
default. -/
theorem witness_FloatAddStoresTheSum :
    accessible Config.default (ea 0x600000) 4 = true ∧
    accessible Config.default (ea 0x1FFFFFF) 4 = false ∧
    isNaN (loadBE [] (ea 0x600000) 4) = false ∧
    isNaN (loadBE [(0x80600000, 0x7F), (0x80600001, 0xC0)] (ea 0x600000) 4) = true ∧
    isInf (loadBE [] (ea 0x600000) 4) = false ∧
    isInf 0xBF800000 = false ∧ f32Value 0xBF800000 + f32Value (f32OfU32 1) = 0 ∧
    isNaN 0xFF800000 = false ∧ isInf 0xFF800000 = true ∧ isNaN 0xFF800001 = true ∧
    Config.default.f32Add = .nearestEven ∧ { Config.default with f32Add := .other }.f32Add = .other := by
  decide

/-- A tie, whose lower neighbour is the even one, and the largest finite value. -/
theorem witness_FloatRoundingIsNearestTiesToEven :
    f32Round (2 ^ 24 + 1) = 0x01000000 ∧ f32Round (2 ^ 24 + 1) < f32Infinity ∧
    0x01000001 < f32Infinity ∧ (0x01000001 : Nat) ≠ f32Round (2 ^ 24 + 1) ∧
    f32Units 0x01000000 = 2 ^ 24 ∧ f32Units 0x01000001 = 2 ^ 24 + 2 := by decide

/-- The largest finite word and the smallest with the exponent 255; the addend 2^24. -/
theorem witness_FloatWordsAreReadByTheirFields :
    ((0xFF7FFFFF : Word).extractLsb' 23 8).toNat ≠ 255 ∧
    ((0x7F800000 : Word).extractLsb' 23 8).toNat = 255 ∧ (0x01000000 : Word).toNat ≤ 2 ^ 24 := by
  decide

theorem witness_ConditionalsWriteOnlySkip :
    isConditional (.cand .untilEndif .s8 0x200000 5) = true ∧
    ∃ t, exec (.cand .untilEndif .s8 0x200000 5) (start [] []) = .next t := ⟨rfl, ⟨_, rfl⟩⟩

/-- The hypotheses inside `Compares`: an accessible operand and one that is not, a true compare and a
false one, for each of the seven. -/
theorem witness_Compares_access :
    accessible Config.default (ea 0x17FFFFF) (sizeWidth .s8).bytes = true ∧
    accessible Config.default (ea 0x17FFFFF) (sizeWidth .s16).bytes = false ∧
    accessible Config.default (ea 0x17FFFFC) (sizeWidth .f32).bytes = true ∧
    accessible Config.default (ea 0x17FFFFD) (sizeWidth .s32).bytes = false := by decide

theorem witness_EqualityComparesSkipOnFalse :
    let s := start [] [(0x80200000, 5)]
    (condOperand s .s8 0x200000).toNat = (0xFFFFFF05 : Word).toNat % 2 ^ 8 ∧
    (condOperand s .s8 0x200000).toNat ≠ (0xFFFFFF06 : Word).toNat % 2 ^ 8 := by decide

theorem witness_UnsignedComparesSkipOnFalse :
    let s := start [] [(0x80200000, 0x80)]
    (condOperand s .s8 0x200000).toNat < (0x81 : Word).toNat % 2 ^ 8 ∧
    (condOperand s .s8 0x200000).toNat > (0x7F : Word).toNat % 2 ^ 8 := by decide

theorem witness_AndCompareTestsCommonBits :
    let s := start [] [(0x80200000, 0xF0)]
    (∃ j < 8, (condOperand s .s8 0x200000).getLsbD j = true ∧ (0x80 : Word).getLsbD j = true) ∧
    ¬ ∃ j < 8, (condOperand s .s8 0x200000).getLsbD j = true ∧ (0x10F : Word).getLsbD j = true := by
  decide

theorem witness_SignedComparesAtFullWidth :
    let s := start [] [(0x80200000, 0x80)]
    (condOperand s .s32 0x200000).toInt < (0x7FFFFFFF : Word).toInt ∧
    ¬ (condOperand s .s32 0x200000).toInt > (0x7FFFFFFF : Word).toInt := by decide

theorem witness_SignedComparesAtNarrowWidths :
    (start [] []).cfg.signedNarrow = .signAtWidth ∧
    { Config.default with signedNarrow := .zeroExtend }.signedNarrow = .zeroExtend ∧
    (0x80 : Byte).toInt < (0x7F : Byte).toInt ∧ (0x80 : Byte).toNat > (0x7F : Byte).toNat := by decide

/-- Three writes downward that are accessible; at the end of the window the third is not. -/
theorem witness_FillAndSlideWritesItsSeries :
    let s := { start [] [] with vlast := 0x817FFFFE }
    Memory.wf s.mem = true ∧ cmdSize s.vlast ≠ 3 ∧
    Width.byte = sizeWidth (Size.ofBits (cmdSize s.vlast)) ∧
    (∀ i < (3 : Byte).toNat, accessible s.cfg (stepAddr (eaWord s.vlast) (cursorStep .byte 0xFFFF) i) 1
      = true) ∧
    (∀ i < 2, accessible s.cfg (stepAddr (eaWord s.vlast) (cursorStep .byte 1) i) 1 = true) ∧
    accessible s.cfg (stepAddr (eaWord s.vlast) (cursorStep .byte 1) 2) 1 = false := by
  refine ⟨rfl, by decide, by decide, fun i hi => ?_, fun i hi => ?_, by decide⟩
  · have : i < 3 := hi
    interval_cases i <;> decide
  · interval_cases i <;> decide

/-- Cursor steps that overlap: with step 0 only the last of the writes is untouched later. -/
theorem witness_SlideHolds_overlap :
    InBytes (stepAddr 0x80100000 0 2) 1 (stepAddr 0x80100000 0 1 + BitVec.ofNat 32 0) ∧
    ¬ InBytes (stepAddr 0x80100000 1 2) 1 (stepAddr 0x80100000 1 1 + BitVec.ofNat 32 0) := by
  refine ⟨⟨0, by decide, by decide⟩, ?_⟩
  rintro ⟨k, hk, h⟩
  interval_cases k
  simp [stepAddr] at h

theorem witness_MemoryCopyChecksItsCountWord : (1 : Byte) ≠ 0 := by decide

/-- The last byte of the window can be copied, the byte after it cannot be read nor written. -/
theorem witness_MemoryCopyDirectMovesBytes :
    Memory.wf (start [] []).mem = true ∧
    (∀ i < (1 : BitVec 15).toNat,
      CopyAccessible Config.default (ea 0x17FFFFF) (copyDest 0x86500000) i) ∧
    ¬ CopyAccessible Config.default (ea 0x17FFFFF) (copyDest 0x86500000) 1 ∧
    ¬ CopyAccessible Config.default (ea 0x400000) (copyDest 0x877FFFFF) 1 := by
  refine ⟨rfl, fun i hi => ?_, ?_, ?_⟩
  · have : i < 1 := hi
    interval_cases i
    exact ⟨by decide, by decide⟩
  · rintro ⟨h, -⟩
    exact absurd h (by decide)
  · rintro ⟨-, h⟩
    exact absurd h (by decide)

/-- Pointers that can be chased, a destination pointer and a source pointer that cannot be read. -/
theorem witness_MemoryCopyPointerModeChasesBothPointers :
    Memory.wf pointerMem = true ∧ (1 : Byte) ≠ 0 ∧
    accessible Config.default (copyDest 0x86200000) 4 = true ∧
    accessible Config.default (ea 0x200000) 4 = true ∧
    CopyAccessible Config.default (loadBE pointerMem (ea 0x200000) 4)
      (loadBE pointerMem (copyDest 0x86200000) 4) 0 ∧
    accessible Config.default (copyDest 0x9E500000) 4 = false ∧
    accessible Config.default (ea 0x1FFFFFF) 4 = false :=
  ⟨by decide, by decide, by decide, by decide, ⟨by decide, by decide⟩, by decide, by decide⟩

/-- Each register of the statement can change. -/
theorem witness_RegistersAreWrittenByTheirInstructionsAlone :
    skipAfter (.ceq .skipTwo .s8 0x200000 1) [] = some 2 ∧
    after (exec (.zmcpy 0 0) (start [] [])) (fun t => (t.pend, t.vlast)) =
      some (.memCopy, 0x86000000) ∧
    after (exec (.zend 0) (start [] [])) (·.result) = some .success ∧
    memAfter (.add8 0x600000 1) [] = some [(0x80600000, 1)] ∧
    (f32AddU32 Config.default 0 0x7FC00000 1).2 = 1 := by
  refine ⟨by decide, by decide, by decide, by decide, rfl⟩

/-- With an entry at IDX, and at the end of the list. -/
theorem witness_RunsLeaveTheHostAndTheCodeAlone :
    (start [wr8Entry] []).Running ∧ (start [wr8Entry] []).entryAt ≠ none ∧
    (∃ t, step (start [wr8Entry] []) = .next t) ∧
    (start [] []).Running ∧ (start [] []).entryAt = none ∧ ∃ t, step (start [] []) = .next t :=
  ⟨⟨⟨[], [], rfl⟩, rfl⟩, by decide, ⟨_, rfl⟩, ⟨⟨[], [], rfl⟩, rfl⟩, rfl, ⟨_, rfl⟩⟩

theorem witness_FailuresArePrecise :
    (start [⟨0, 0x60000000⟩] []).Running ∧
    ∃ t info, step (start [⟨0, 0x60000000⟩] []) = .next t ∧
      t.result = .failure .unsupportedRow info := ⟨⟨⟨[], [], rfl⟩, rfl⟩, ⟨_, _, rfl, rfl⟩⟩

theorem start_inv (ops : List Entry) : (start ops []).Inv where
  mem_wf := rfl
  skip_legal := by simp [SkipLegal, start, State.reset]
  pend_skip := fun _ => rfl
  pend_selector := fun h => absurd rfl h
  fill_size := fun h => by cases h
  copy_size := fun h => by cases h
  idx_le := Nat.zero_le _
  failure_named := fun _ _ h => by cases h

theorem witness_StepKeepsTheInvariant :
    (start [wr8Entry] []).Inv ∧ ∃ t, step (start [wr8Entry] []) = .next t := ⟨start_inv _, ⟨_, rfl⟩⟩

/-- A pass of one code whose run has just ended. -/
def ended (r : RunResult) (todo : List Code) : State :=
  { start [] [] with code := aCode, active := aCode :: todo, result := r, phase := .inPass todo [] }

theorem witness_PassKeepsTheOrderOfSurvivors :
    (ended .success []).PassInv ∧ (ended .success []).phase ≠ .idle ∧
    ∃ t, step (ended .success []) = .next t ∧ t.phase = .idle := by
  refine ⟨fun todo survivors h => ?_, by simp [ended], ⟨_, rfl, rfl⟩⟩
  cases h
  exact ⟨[], rfl, List.Sublist.refl _⟩

theorem witness_EveryPassEnds : (ended .running [inactiveCode]).phase = .inPass [inactiveCode] [] := rfl

/-- A step that answers, and one that faults. -/
theorem witness_LoggingHasNoArchitecturalEffect :
    (∃ t, step (start [wr8Entry] []) = .next t) ∧
    ∃ f, step (start [⟨0x01800000, 0x55⟩] []) = .fault f := ⟨⟨_, rfl⟩, ⟨_, rfl⟩⟩

/-- A failure for the next two statements. -/
def aFailure : RunResult := .failure .masterCode ⟨0xC0000000, 0, ⟨0xC0000000, 0⟩⟩

theorem witness_FinishedRunsHandOverToTheNextCode :
    (ended .success [inactiveCode]).phase = .inPass (inactiveCode :: []) [] ∧
    (ended .success [inactiveCode]).result ≠ .running ∧
    (ended aFailure [inactiveCode]).result = aFailure ∧
    (ended aFailure [inactiveCode]).useInternalLog = false ∧
    (ended aFailure [inactiveCode]).logFlagMoved = false := ⟨rfl, by simp [ended], rfl, rfl, rfl⟩

theorem witness_PassEndKeepsTheSurvivors :
    (ended .success []).phase = .inPass [] [] ∧ (ended .success []).result ≠ .running ∧
    (ended aFailure []).result = aFailure ∧ (ended aFailure []).useInternalLog = false ∧
    (ended aFailure []).logFlagMoved = false := ⟨rfl, by simp [ended], rfl, rfl, rfl⟩

theorem witness_TickStartsTheFirstActiveCode :
    (waiting .runAllActive true [aCode]).phase = .idle ∧
    (waiting .runAllActive true [aCode]).inputs = .runAllActive :: [] ∧
    (waiting .runAllActive true [aCode]).cheatsEnabled = true ∧
    (waiting .runAllActive true [aCode]).active = aCode :: [] ∧
    (waiting .runAllActive true []).active = [] := by decide

theorem witness_ClosedGateStopsTheHost :
    (waiting .clearSelfLog false []).phase = .idle ∧
    (waiting .clearSelfLog false []).inputs = .clearSelfLog :: [] ∧
    (waiting .clearSelfLog false []).cheatsEnabled = false := by decide

theorem witness_ApplyCodesReplacesTheActiveSet :
    (waiting (.applyCodes [aCode, inactiveCode]) true []).phase = .idle ∧
    (waiting (.applyCodes [aCode, inactiveCode]) true []).inputs =
      .applyCodes [aCode, inactiveCode] :: [] ∧
    (waiting (.applyCodes [aCode, inactiveCode]) true []).cheatsEnabled = true := by decide

theorem witness_AddCodeAppendsAnActiveCode :
    (waiting (.addCode aCode) true []).phase = .idle ∧
    (waiting (.addCode aCode) true []).inputs = .addCode aCode :: [] ∧
    (waiting (.addCode aCode) true []).cheatsEnabled = true ∧ aCode.active = true ∧
    (waiting (.addCode aCode) false []).cheatsEnabled = false ∧ inactiveCode.active = false := by decide

theorem witness_GuestWritesOneByte :
    (waiting (.guestWrite 0x80000000 1) true []).phase = .idle ∧
    (waiting (.guestWrite 0x80000000 1) true []).inputs = .guestWrite 0x80000000 1 :: [] ∧
    Memory.wf (waiting (.guestWrite 0x80000000 1) true []).mem = true := by decide

end Sys2Proof.Tests
end

section
/-! PROOFS. The effective address (30_encoding.md R83) as a function of gcaddr, and as a number. -/

namespace Sys2Proof.Machine

/-- Masking with 0x01FFFFFF keeps exactly the bits of the gcaddr field. -/
theorem setWidth_cmdGcaddr (w : Word) : (cmdGcaddr w).setWidth 32 = w &&& 0x01FFFFFF := by
  have field : (cmdGcaddr w).toNat = w.toNat % 2 ^ 25 := by
    rw [cmdGcaddr, BitVec.extractLsb'_toNat, Nat.shiftRight_zero]
  have mask : (w &&& 0x01FFFFFF).toNat = w.toNat % 2 ^ 25 :=
    Nat.and_two_pow_sub_one_eq_mod w.toNat 25
  apply BitVec.eq_of_toNat_eq
  rw [BitVec.toNat_setWidth_of_le (by decide), field, mask]

/-- A command word has the effective address of its gcaddr, so bits [31:25] do not reach it. -/
theorem eaWord_eq_ea_cmdGcaddr (w : Word) : eaWord w = ea (cmdGcaddr w) := by
  rw [eaWord, ea, setWidth_cmdGcaddr]

/-- gcaddr stands below bit 31, so the OR with 0x80000000 adds it. -/
theorem toNat_ea (g : GcAddr) : (ea g).toNat = 0x80000000 + g.toNat := by
  have below : g.toNat < 2 ^ 31 := g.isLt.trans (by decide)
  calc (ea g).toNat
      = g.toNat ||| 2 ^ 31 := by
        rw [ea, BitVec.toNat_or, BitVec.toNat_setWidth_of_le (by decide)]; rfl
    _ = 2 ^ 31 + g.toNat := by
        rw [Nat.or_comm, ← Nat.mul_one (2 ^ 31), ← Nat.two_pow_add_eq_or_of_lt below 1]

/-- The effective address of any gcaddr lies in 0x80000000 to 0x81FFFFFF. -/
theorem ea_mem_cached_range (g : GcAddr) :
    0x80000000 ≤ (ea g).toNat ∧ (ea g).toNat ≤ 0x81FFFFFF := by
  have := toNat_ea g
  have := g.isLt
  omega

/-- Settles O8: EA goes through gcaddr alone, whose 25 bits stand below the OR's bit 31. -/
theorem effectiveAddressIsGcaddrInTheCachedRange :
    Obligations.EffectiveAddressIsGcaddrInTheCachedRange := by
  refine ⟨fun w => ⟨rfl, eaWord_eq_ea_cmdGcaddr w, ?_⟩, fun v w same => ?_, fun _ => rfl⟩
  · rw [eaWord_eq_ea_cmdGcaddr]
    exact ⟨toNat_ea _, ea_mem_cached_range _⟩
  · rw [eaWord_eq_ea_cmdGcaddr, eaWord_eq_ea_cmdGcaddr, same]

end Sys2Proof.Machine
end

section
/-! PROOFS. A step of a run (40_sequencer.md R120) at an entry, and the counted skip (R122). -/

namespace Sys2Proof.Machine

/-- In a running run the step is the run's step. -/
theorem State.Running.step_eq_runStep {s : State} (running : s.Running) : step s = runStep s := by
  obtain ⟨⟨todo, survivors, hphase⟩, hresult⟩ := running
  simp only [step, hphase, passStep, hresult]

/-- In a running run with the entry `e` at IDX, the step is the step of `e` after IDX advanced. -/
theorem State.Running.step_of_entryAt {s : State} {e : Entry} (running : s.Running)
    (entry : s.entryAt = some e) : step s = entryStep e s.advance := by
  rw [State.entryAt] at entry
  rw [running.step_eq_runStep, runStep, entry]

/-- While SKIP is positive an entry, whatever its bits, only takes one off SKIP. -/
theorem entryStep_of_skip_pos (e : Entry) {s : State} (positive : 0 < s.skip.toInt) :
    entryStep e s = .next (s.setSkip (s.skip - 1)) := by
  rw [entryStep, if_pos positive]

/-- Settles O15: the entry's step is reached with SKIP as it was, and its first stage answers. -/
theorem countedSkipHasNoOtherEffect : Obligations.CountedSkipHasNoOtherEffect := by
  intro s e running entry positive
  calc step s
      = entryStep e s.advance := running.step_of_entryAt entry
    _ = .next (s.advance.setSkip (s.skip - 1)) := entryStep_of_skip_pos e positive
    _ = .next { s with idx := s.idx + 1, skip := s.skip - 1 } := rfl

end Sys2Proof.Machine
end

section
/-! PROOFS. The normal codes that write memory (42_normal_codes.md R170 to R184): one rule for a
single store, for a write to a pointer, for an add in place and for a fill, then each code by the
rule of its operation. -/

namespace Sys2Proof.Machine

variable {s : State} {a v : Word} {w : Width}

/-! ## A single store -/

/-- A store at an accessible address changes its own bytes alone. -/
theorem putMem_memWrite_storesAt (hm : Memory.wf s.mem = true)
    (ha : accessible s.cfg a w.bytes = true) :
    StoresAt s (putMem s (memWrite s.cfg s.mem a w v)) a w v := by
  have written := memWrite_of_accessible (m := s.mem) (v := v) ha
  obtain ⟨wf, holds, frame⟩ := memWrite_spec written hm
  exact ⟨_, by rw [written]; rfl, wf, holds, frame⟩

theorem putMem_memWrite_of_not_accessible (ha : accessible s.cfg a w.bytes = false) :
    putMem s (memWrite s.cfg s.mem a w v) = .fault (.outOfWindow a s.mem) :=
  putMem_eq_fault.mpr (memWrite_eq_error.mpr ⟨ha, rfl⟩)

/-- Settles O28: both are the one store of the whole word at `E`. -/
theorem wordWritesStoreTheirValue : Obligations.WordWritesStoreTheirValue := by
  rintro g data s hm i (rfl | rfl) <;>
    exact ⟨putMem_memWrite_storesAt (w := .word) hm,
      putMem_memWrite_of_not_accessible (w := .word)⟩

/-! ## Write to pointer -/

variable {e off target : Word}

theorem pointerWrite_of_accessible (he : accessible s.cfg e 4 = true) :
    pointerWrite w e off v s = putMem s (memWrite s.cfg s.mem (loadBE s.mem e 4 + off) w v) := by
  rw [pointerWrite, memRead_of_accessible (w := .word) he]
  rfl

theorem pointerWrite_of_not_accessible (he : accessible s.cfg e 4 = false) :
    pointerWrite w e off v s = .fault (.outOfWindow e s.mem) := by
  rw [pointerWrite, memRead_eq_error.mpr ⟨he, rfl⟩]

/-- With the pointer and its target accessible there is one store, at the target; otherwise the
fault is at the pointer first and at the target second, and nothing is written. -/
theorem pointerWrite_outcome (hm : Memory.wf s.mem = true) (ht : loadBE s.mem e 4 + off = target) :
    (accessible s.cfg e 4 = true → accessible s.cfg target w.bytes = true →
      StoresAt s (pointerWrite w e off v s) target w v) ∧
    (accessible s.cfg e 4 = false →
      pointerWrite w e off v s = .fault (.outOfWindow e s.mem)) ∧
    (accessible s.cfg e 4 = true → accessible s.cfg target w.bytes = false →
      pointerWrite w e off v s = .fault (.outOfWindow target s.mem)) := by
  subst ht
  refine ⟨fun he ha => ?_, pointerWrite_of_not_accessible, fun he ha => ?_⟩
  · rw [pointerWrite_of_accessible he]
    exact putMem_memWrite_storesAt hm ha
  · rw [pointerWrite_of_accessible he]
    exact putMem_memWrite_of_not_accessible ha

/-- PWR16's offset counts half-words: at most 0x1FFFE, it does not wrap. -/
theorem halfOffset_eq_twice (index : BitVec 16) :
    halfOffset index = BitVec.ofNat 32 (2 * index.toNat) := by
  apply BitVec.eq_of_toNat_eq
  simp [halfOffset, Nat.shiftLeft_eq, Nat.mul_comm]

/-- Settles O29: the offset is the 24-bit field, zero-extended. -/
theorem pwr8WritesAtPointerPlusOffset : Obligations.Pwr8WritesAtPointerPlusOffset :=
  fun _ _ _ _ hm => pointerWrite_outcome (w := .byte) hm rfl

/-- Settles O30: the offset is twice the index. -/
theorem pwr16WritesAtPointerPlusTwiceIndex : Obligations.Pwr16WritesAtPointerPlusTwiceIndex :=
  fun _ index _ _ hm => pointerWrite_outcome (w := .half) hm (by rw [halfOffset_eq_twice])

/-- Settles O31: both write at the pointer with the offset 0. -/
theorem pointerWordWritesStoreAtThePointer : Obligations.PointerWordWritesStoreAtThePointer := by
  rintro g data s hm target i (rfl | rfl) <;>
    exact pointerWrite_outcome (w := .word) hm (BitVec.add_zero target)

/-! ## Reading a stored value back -/

/-- One turn of the load loop brings in the next byte of `v`. -/
theorem shiftLeft_or_nextByte (v : Word) (n : Nat) :
    (v >>> (8 * (n + 1))) <<< 8 ||| (v.extractLsb' (8 * n) 8).setWidth 32 = v >>> (8 * n) := by
  apply BitVec.eq_of_getLsbD_eq
  intro j hj
  simp only [BitVec.getLsbD_or, BitVec.getLsbD_shiftLeft, BitVec.getLsbD_ushiftRight,
    BitVec.getLsbD_setWidth, BitVec.getLsbD_extractLsb', hj]
  rcases Nat.lt_or_ge j 8 with low | high
  · simp [low]
  · have index : 8 * (n + 1) + (j - 8) = 8 * n + j := by omega
    simp [Nat.not_lt.mpr high, index]

/-- A load loop that has the part of `v` above its `n` bytes, over bytes that hold the rest of `v`,
answers `v`. -/
theorem loadLoop_eq_of_bytes {m : Memory} {n : Nat}
    (h : ∀ k < n, Memory.byteAt m (a + BitVec.ofNat 32 k) = v.extractLsb' (8 * (n - 1 - k)) 8) :
    loadLoop m n a (v >>> (8 * n)) = v := by
  induction n generalizing a with
  | zero => simp [loadLoop]
  | succ n ih =>
    have first : Memory.byteAt m a = v.extractLsb' (8 * n) 8 := by simpa using h 0 (by omega)
    rw [loadLoop, first, shiftLeft_or_nextByte]
    refine ih fun k hk => ?_
    rw [← addr_succ, h (k + 1) (by omega), show n + 1 - 1 - (k + 1) = n - 1 - k by omega]

/-- Masking to a width keeps the value modulo the width. -/
theorem maskTo_toNat (w : Width) (v : Word) :
    (maskTo w v).toNat = v.toNat % 2 ^ (8 * w.bytes) := by
  cases w with
  | byte => exact Nat.and_two_pow_sub_one_eq_mod v.toNat 8
  | half => exact Nat.and_two_pow_sub_one_eq_mod v.toNat 16
  | word => exact (Nat.mod_eq_of_lt v.isLt).symm

theorem getLsbD_maskTo (w : Width) (v : Word) (j : Nat) :
    (maskTo w v).getLsbD j = (decide (j < 8 * w.bytes) && v.getLsbD j) := by
  rw [BitVec.getLsbD, maskTo_toNat, Nat.testBit_mod_two_pow, BitVec.getLsbD]

/-- Nothing stands above the width of a masked value. -/
theorem maskTo_ushiftRight (w : Width) (v : Word) : maskTo w v >>> (8 * w.bytes) = 0 := by
  apply BitVec.eq_of_getLsbD_eq
  intro j hj
  simp [getLsbD_maskTo]

/-- A masked value has the bytes of the value within the width. -/
theorem extractByte_maskTo {k : Nat} (v : Word) (hk : k < w.bytes) :
    (maskTo w v).extractLsb' (8 * k) 8 = v.extractLsb' (8 * k) 8 := by
  apply BitVec.eq_of_getLsbD_eq
  intro j hj
  have inWidth : 8 * k + j < 8 * w.bytes := by omega
  simp [getLsbD_maskTo, inWidth]

/-- Bytes that hold `v` read back as `v` masked to the width. -/
theorem loadBE_of_holds {m : Memory} (h : Holds m a w v) : loadBE m a w.bytes = maskTo w v := by
  rw [loadBE, ← maskTo_ushiftRight w v]
  refine loadLoop_eq_of_bytes fun k hk => ?_
  rw [h k hk, extractByte_maskTo v (by omega)]

/-! ## Add in place -/

theorem addInPlace_of_accessible {d : Word} (ha : accessible s.cfg a w.bytes = true) :
    addInPlace w a d s = putMem s (memWrite s.cfg s.mem a w (loadBE s.mem a w.bytes + d)) := by
  rw [addInPlace, memRead_of_accessible ha]

/-- The store of the sum cuts it to the width, which the wrap at 32 bits does not disturb. -/
theorem addInPlace_outcome {d : Word} (hm : Memory.wf s.mem = true) :
    (accessible s.cfg a w.bytes = true →
      ∃ m, addInPlace w a d s = .next { s with mem := m } ∧ Memory.wf m = true ∧
        (loadBE m a w.bytes).toNat =
          ((loadBE s.mem a w.bytes).toNat + d.toNat) % 2 ^ (8 * w.bytes) ∧
        SameOutside (InBytes a w.bytes) s.mem m) ∧
    (accessible s.cfg a w.bytes = false →
      addInPlace w a d s = .fault (.outOfWindow a s.mem)) := by
  refine ⟨fun ha => ?_, fun ha => by rw [addInPlace, memRead_eq_error.mpr ⟨ha, rfl⟩]⟩
  obtain ⟨m, next, wf, holds, frame⟩ :=
    putMem_memWrite_storesAt (v := loadBE s.mem a w.bytes + d) hm ha
  refine ⟨m, (addInPlace_of_accessible ha).trans next, wf, ?_, frame⟩
  have width : 8 * w.bytes ≤ 32 := by have := w.bytes_le; omega
  rw [loadBE_of_holds holds, maskTo_toNat, BitVec.toNat_add,
    Nat.mod_mod_of_dvd _ (Nat.pow_dvd_pow 2 width)]

/-- Settles O32: each add is the add in place of its width. -/
theorem addsWrapAtTheirWidth : Obligations.AddsWrapAtTheirWidth := by
  rintro g d s w i hm (⟨rfl, rfl⟩ | ⟨rfl, rfl⟩ | ⟨rfl, rfl⟩)
  · exact addInPlace_outcome (w := .byte) hm
  · exact addInPlace_outcome (w := .half) hm
  · exact addInPlace_outcome (w := .word) hm

/-! ## Fills -/

section Fill

variable {cfg : Config} {m m' : Memory} {n reps : Nat}

/-- A slide faults at its first inaccessible write, after the writes before it. -/
theorem slide_eq_error_at {dcur dval : Word} {j : Nat} (hj : j < n)
    (before : ∀ i < j, accessible cfg (stepAddr a dcur i) w.bytes = true)
    (bad : accessible cfg (stepAddr a dcur j) w.bytes = false) :
    ∃ m', slide cfg w dcur dval j a v m = .ok m' ∧
      slide cfg w dcur dval n a v m = .error (.outOfWindow (stepAddr a dcur j) m') := by
  cases run : slide cfg w dcur dval n a v m with
  | ok m1 => exact absurd (slide_accessible run j hj) (by rw [bad]; decide)
  | error f =>
    obtain ⟨i, m1, -, made, badI, rfl⟩ := slide_error run
    have firstI : i = j := by
      rcases Nat.lt_trichotomy i j with lt | eq | gt
      · exact absurd (before i lt) (by rw [badI]; decide)
      · exact eq
      · exact absurd (slide_accessible made j gt) (by rw [bad]; decide)
    subst firstI
    exact ⟨m1, made, rfl⟩

/-- Byte `k` of a fill's `i`-th write, as a distance from the start. -/
theorem stepAddr_ofNat_add (a : Word) (b i k : Nat) :
    stepAddr a (BitVec.ofNat 32 b) i + BitVec.ofNat 32 k = a + BitVec.ofNat 32 (i * b + k) := by
  rw [stepAddr, ← BitVec.ofNat_mul, BitVec.add_assoc, ← BitVec.ofNat_add]

/-- Distances below 2^32 from one start are one address only when they are equal. -/
theorem eq_of_add_ofNat_eq {p q : Nat} (hp : p < 2 ^ 32) (hq : q < 2 ^ 32)
    (h : a + BitVec.ofNat 32 p = a + BitVec.ofNat 32 q) : p = q := by
  have := congrArg BitVec.toNat (add_left_cancel h)
  rwa [BitVec.toNat_ofNat, BitVec.toNat_ofNat, Nat.mod_eq_of_lt hp, Nat.mod_eq_of_lt hq] at this

/-- The writes of a fill shorter than the address space do not overlap. -/
theorem fill_writes_disjoint {b i j k : Nat} (short : n * b ≤ 2 ^ 32) (hij : i < j) (hj : j < n)
    (hk : k < b) : ¬ InBytes (stepAddr a (BitVec.ofNat 32 b) j) b
      (stepAddr a (BitVec.ofNat 32 b) i + BitVec.ofNat 32 k) := by
  rintro ⟨l, hl, h⟩
  rw [stepAddr_ofNat_add, stepAddr_ofNat_add] at h
  have nextI : (i + 1) * b ≤ j * b := Nat.mul_le_mul_right b hij
  have nextJ : (j + 1) * b ≤ n * b := Nat.mul_le_mul_right b hj
  rw [Nat.succ_mul] at nextI nextJ
  have := eq_of_add_ofNat_eq (by omega) (by omega) h
  omega

/-- What a fill that runs to its end leaves: each of its writes holds the value, and every other
byte is as before. -/
theorem fill_slide_spec (hm : Memory.wf m = true) (short : n * w.bytes ≤ 2 ^ 32)
    (run : slide cfg w (BitVec.ofNat 32 w.bytes) 0 n a v m = .ok m') :
    Memory.wf m' = true ∧ (∀ i < n, Holds m' (stepAddr a (BitVec.ofNat 32 w.bytes) i) w v) ∧
      SameOutside (SlideBytes a (BitVec.ofNat 32 w.bytes) w n) m m' := by
  obtain ⟨wf, frame⟩ := slide_spec run hm
  refine ⟨wf, fun i hi k hk => ?_, fun x hx => frame x fun i hi hin => hx ⟨i, hi, hin⟩⟩
  have sameValue : stepAddr v 0 i = v := by simp [stepAddr]
  rw [slide_byteAt run hm hi hk fun j hij hj => fill_writes_disjoint short hij hj hk, sameValue]

/-- A fill whose writes are all accessible: each holds the value, and nothing else changes. -/
theorem putMem_fill_of_accessible (hm : Memory.wf s.mem = true)
    (short : (reps + 1) * w.bytes ≤ 2 ^ 32)
    (all : ∀ i ≤ reps, accessible s.cfg (stepAddr a (BitVec.ofNat 32 w.bytes) i) w.bytes = true) :
    ∃ m, putMem s (fill s.cfg w reps a v s.mem) = .next { s with mem := m } ∧
      Memory.wf m = true ∧
      (∀ i ≤ reps, Holds m (stepAddr a (BitVec.ofNat 32 w.bytes) i) w v) ∧
      SameOutside (SlideBytes a (BitVec.ofNat 32 w.bytes) w (reps + 1)) s.mem m := by
  obtain ⟨m, run⟩ := slide_ok (m := s.mem) (val := v) (dval := 0)
    fun i (hi : i < reps + 1) => all i (Nat.le_of_lt_succ hi)
  obtain ⟨wf, holds, frame⟩ := fill_slide_spec hm short run
  exact ⟨m, putMem_eq_next.mpr ⟨m, run, rfl⟩, wf, fun i hi => holds i (Nat.lt_succ_of_le hi), frame⟩

/-- A fill whose `j`-th write is the first inaccessible one faults there, with the `j` writes before
it made and no other. -/
theorem putMem_fill_of_not_accessible (hm : Memory.wf s.mem = true)
    (short : (reps + 1) * w.bytes ≤ 2 ^ 32) {j : Nat} (hj : j ≤ reps)
    (before : ∀ i < j, accessible s.cfg (stepAddr a (BitVec.ofNat 32 w.bytes) i) w.bytes = true)
    (bad : accessible s.cfg (stepAddr a (BitVec.ofNat 32 w.bytes) j) w.bytes = false) :
    ∃ m, putMem s (fill s.cfg w reps a v s.mem) =
        .fault (.outOfWindow (stepAddr a (BitVec.ofNat 32 w.bytes) j) m) ∧
      (∀ i < j, Holds m (stepAddr a (BitVec.ofNat 32 w.bytes) i) w v) ∧
      SameOutside (SlideBytes a (BitVec.ofNat 32 w.bytes) w j) s.mem m := by
  obtain ⟨m, made, run⟩ := slide_eq_error_at (m := s.mem) (v := v) (dval := 0)
    (Nat.lt_succ_of_le hj) before bad
  have shortJ : j * w.bytes ≤ 2 ^ 32 := (Nat.mul_le_mul_right _ (by omega)).trans short
  obtain ⟨-, holds, frame⟩ := fill_slide_spec hm shortJ made
  exact ⟨m, putMem_eq_fault.mpr run, holds, frame⟩

end Fill

/-- Settles O26: a fill of bytes, at most 2^24 long. -/
theorem wr8FillsRepeatPlusOneBytes : Obligations.Wr8FillsRepeatPlusOneBytes := by
  intro g reps data s hm
  have short : (reps.toNat + 1) * Width.byte.bytes ≤ 2 ^ 32 := by
    have := reps.isLt
    simp only [Width.bytes]
    omega
  exact ⟨putMem_fill_of_accessible (w := .byte) (a := ea g) hm short,
    fun j => putMem_fill_of_not_accessible (w := .byte) (a := ea g) hm short⟩

/-- Settles O27: a fill of half-words, at most 2^17 bytes long. -/
theorem wr16FillsRepeatPlusOneHalfWords : Obligations.Wr16FillsRepeatPlusOneHalfWords := by
  intro g reps data s hm
  have short : (reps.toNat + 1) * Width.half.bytes ≤ 2 ^ 32 := by
    have := reps.isLt
    simp only [Width.bytes]
    omega
  exact ⟨putMem_fill_of_accessible (w := .half) (a := ea g) hm short,
    fun j => putMem_fill_of_not_accessible (w := .half) (a := ea g) hm short⟩

end Sys2Proof.Machine
end

section
/-! PROOFS. The seven conditionals (44_conditionals.md R230 to R238): the compare of each as a
proposition on the operand and the masked value, and what an answer of any can be. -/

namespace Sys2Proof.Machine

/-! ## The compare of each conditional -/

section Compare

variable (o : OnFalse) (z : Size) (g : GcAddr) (v : Word) (s : State)

theorem compares_ceq :
    Compares (.ceq o z g v) o z g (condOperand s z g = maskTo (sizeWidth z) v) s :=
  compares_of_conditional rfl decide_eq_true_iff

theorem compares_cne :
    Compares (.cne o z g v) o z g (condOperand s z g ≠ maskTo (sizeWidth z) v) s :=
  compares_of_conditional rfl decide_eq_true_iff

theorem compares_clts :
    Compares (.clts o z g v) o z g
      (signedView s.cfg (sizeWidth z) (condOperand s z g) <
        signedView s.cfg (sizeWidth z) (maskTo (sizeWidth z) v)) s :=
  compares_of_conditional rfl decide_eq_true_iff

theorem compares_cgts :
    Compares (.cgts o z g v) o z g
      (signedView s.cfg (sizeWidth z) (condOperand s z g) >
        signedView s.cfg (sizeWidth z) (maskTo (sizeWidth z) v)) s :=
  compares_of_conditional rfl decide_eq_true_iff

theorem compares_cltu :
    Compares (.cltu o z g v) o z g
      ((condOperand s z g).toNat < (maskTo (sizeWidth z) v).toNat) s :=
  compares_of_conditional rfl decide_eq_true_iff

theorem compares_cgtu :
    Compares (.cgtu o z g v) o z g
      ((condOperand s z g).toNat > (maskTo (sizeWidth z) v).toNat) s :=
  compares_of_conditional rfl decide_eq_true_iff

theorem compares_cand :
    Compares (.cand o z g v) o z g (condOperand s z g &&& maskTo (sizeWidth z) v ≠ 0) s :=
  compares_of_conditional rfl decide_eq_true_iff

end Compare

/-! ## What any conditional can answer -/

/-- A conditional's command word carries its subtype. -/
theorem onFalse_of_cmdWord (o : OnFalse) (type : BitVec 3) (size : BitVec 2) (g : GcAddr) :
    OnFalse.ofBits (cmdSubtype (cmdWord o.bits type size g)) = o := by
  rw [cmdSubtype_cmdWord, OnFalse.ofBits_bits]

/-- Each conditional is the shared operation with the subtype of its own command word. -/
theorem exec_of_isConditional {i : Instr} (hi : isConditional i = true) (s : State) :
    ∃ cmp z e d,
      exec i s = conditional cmp (OnFalse.ofBits (cmdSubtype (encode i).cmd)) z e d s := by
  cases i with
  | ceq o z g v => exact ⟨cmpEq, z, ea g, v, by rw [encode, onFalse_of_cmdWord]; rfl⟩
  | cne o z g v => exact ⟨cmpNe, z, ea g, v, by rw [encode, onFalse_of_cmdWord]; rfl⟩
  | clts o z g v => exact ⟨cmpLts, z, ea g, v, by rw [encode, onFalse_of_cmdWord]; rfl⟩
  | cgts o z g v => exact ⟨cmpGts, z, ea g, v, by rw [encode, onFalse_of_cmdWord]; rfl⟩
  | cltu o z g v => exact ⟨cmpLtu, z, ea g, v, by rw [encode, onFalse_of_cmdWord]; rfl⟩
  | cgtu o z g v => exact ⟨cmpGtu, z, ea g, v, by rw [encode, onFalse_of_cmdWord]; rfl⟩
  | cand o z g v => exact ⟨cmpAnd, z, ea g, v, by rw [encode, onFalse_of_cmdWord]; rfl⟩
  | _ => cases hi

/-- A conditional that answers leaves the state as it is or sets SKIP from its subtype. -/
theorem eq_or_eq_setSkip_of_isConditional {i : Instr} {s t : State} (hi : isConditional i = true)
    (h : exec i s = .next t) :
    t = s ∨ t = s.setSkip (onFalseSkip (OnFalse.ofBits (cmdSubtype (encode i).cmd))) := by
  obtain ⟨cmp, z, e, d, hexec⟩ := exec_of_isConditional hi s
  obtain ⟨-, ht⟩ := conditional_eq_next.mp (hexec ▸ h)
  split at ht
  · exact .inl ht
  · exact .inr ht

/-- SKIP by the two bits of `subtype` (R231). -/
theorem onFalseSkip_ofBits (b : BitVec 2) :
    onFalseSkip (OnFalse.ofBits b) = if b = 0 then 1 else if b = 1 then 2 else if b = 2 then -2
      else -3 := by
  revert b
  decide

/-- Settles O35: each conditional is the shared operation with its own compare and subtype. -/
theorem conditionalsWriteOnlySkip : Obligations.ConditionalsWriteOnlySkip := by
  refine ⟨fun i s t hi h => ?_, fun o z g v s => ⟨?_, ?_⟩⟩
  · rw [← onFalseSkip_ofBits]
    exact eq_or_eq_setSkip_of_isConditional hi h
  · cases o <;> rfl
  · exact ⟨compares_ceq o z g v s, compares_cne o z g v s, compares_clts o z g v s,
      compares_cgts o z g v s, compares_cltu o z g v s, compares_cgtu o z g v s,
      compares_cand o z g v s⟩

/-! ## Equality, unsigned order and common bits below the width -/

/-- A word equals the masked value when it is the value modulo the width. -/
theorem eq_maskTo_iff (w : Width) (x v : Word) :
    x = maskTo w v ↔ x.toNat = v.toNat % 2 ^ (8 * w.bytes) := by
  rw [← BitVec.toNat_inj, maskTo_toNat]

/-- Settles O36: the compare with the masked value, as numbers. -/
theorem equalityComparesSkipOnFalse : Obligations.EqualityComparesSkipOnFalse := by
  intro o z g v s
  rw [Ne, ← eq_maskTo_iff]
  exact ⟨compares_ceq o z g v s, compares_cne o z g v s⟩

/-- Settles O37: the masked value is the value modulo the width. -/
theorem unsignedComparesSkipOnFalse : Obligations.UnsignedComparesSkipOnFalse := by
  intro o z g v s
  rw [← maskTo_toNat]
  exact ⟨compares_cltu o z g v s, compares_cgtu o z g v s⟩

/-- A word and the masked value have a common bit exactly when the word and the value have one
below the width. -/
theorem and_maskTo_ne_zero_iff (w : Width) (x v : Word) :
    x &&& maskTo w v ≠ 0 ↔
      ∃ j < 8 * w.bytes, x.getLsbD j = true ∧ v.getLsbD j = true := by
  have bit (j : Nat) : (x &&& maskTo w v).getLsbD j = true ↔
      j < 8 * w.bytes ∧ x.getLsbD j = true ∧ v.getLsbD j = true := by
    simp only [BitVec.getLsbD_and, getLsbD_maskTo, Bool.and_eq_true, decide_eq_true_iff]
    exact and_left_comm
  constructor
  · intro nonzero
    by_contra none
    refine nonzero (BitVec.eq_of_getLsbD_eq fun j _ => ?_)
    rw [BitVec.ofNat_eq_ofNat, BitVec.getLsbD_zero, ← Bool.not_eq_true, bit]
    exact fun common => none ⟨j, common⟩
  · rintro ⟨j, common⟩ zero
    have := (bit j).mpr common
    rw [zero, BitVec.ofNat_eq_ofNat, BitVec.getLsbD_zero] at this
    cases this

/-- Settles O38: a mask keeps the bits below the width. -/
theorem andCompareTestsCommonBits : Obligations.AndCompareTestsCommonBits := by
  intro o z g v s
  rw [← and_maskTo_ne_zero_iff]
  exact compares_cand o z g v s

end Sys2Proof.Machine
end

section
/-! PROOFS. The decoder and the encoder (30_encoding.md R80 to R93): the fields of an entry, what
decoding answers in each context, and that each undoes the other. -/

namespace Sys2Proof

/-! ## Fields of an entry, cut and joined -/

section Fields

variable (v : Word)

/-- The cut of R84: `zcode` and the 29 bits below it. -/
theorem zcode_append_low : (v.extractLsb' 29 3 ++ v.extractLsb' 0 29 : Word) = v := by
  rw [BitVec.extractLsb'_append_extractLsb'_eq_extractLsb' (start₂ := 29) (len₁ := 29) rfl,
    BitVec.extractLsb'_eq_self]

theorem byteCut_append : (v.extractLsb' 8 24 ++ v.extractLsb' 0 8 : Word) = v := by
  rw [BitVec.extractLsb'_append_extractLsb'_eq_extractLsb' (start₂ := 8) (len₁ := 8) rfl,
    BitVec.extractLsb'_eq_self]

theorem halfCut_append : (v.extractLsb' 16 16 ++ v.extractLsb' 0 16 : Word) = v := by
  rw [BitVec.extractLsb'_append_extractLsb'_eq_extractLsb' (start₂ := 16) (len₁ := 16) rfl,
    BitVec.extractLsb'_eq_self]

/-- The cut of R85: `zcode`, `t2`, `sel`, `addr`. -/
theorem selectorFields_append :
    (v.extractLsb' 29 3 ++ v.extractLsb' 27 2 ++ v.extractLsb' 25 2 ++ v.extractLsb' 0 25 : Word) =
      v := by
  rw [BitVec.extractLsb'_append_extractLsb'_eq_extractLsb' (start₂ := 29) (len₁ := 2) rfl,
    BitVec.extractLsb'_append_extractLsb'_eq_extractLsb' (start₂ := 27) (len₁ := 2) rfl,
    BitVec.extractLsb'_append_extractLsb'_eq_extractLsb' (start₂ := 25) (len₁ := 25) rfl,
    BitVec.extractLsb'_eq_self]

/-- The cut of R89: `val_incr`, `write_num`, `addr_incr`. -/
theorem fillFields_append :
    (v.extractLsb' 24 8 ++ v.extractLsb' 16 8 ++ v.extractLsb' 0 16 : Word) = v := by
  rw [BitVec.extractLsb'_append_extractLsb'_eq_extractLsb' (start₂ := 24) (len₁ := 8) rfl,
    BitVec.extractLsb'_append_extractLsb'_eq_extractLsb' (start₂ := 16) (len₁ := 16) rfl,
    BitVec.extractLsb'_eq_self]

/-- The cut of R90's value word. -/
theorem copyFields_append :
    (v.extractLsb' 24 8 ++ v.extractLsb' 16 8 ++ v.extractLsb' 15 1 ++ v.extractLsb' 0 15 : Word) =
      v := by
  rw [BitVec.extractLsb'_append_extractLsb'_eq_extractLsb' (start₂ := 24) (len₁ := 8) rfl,
    BitVec.extractLsb'_append_extractLsb'_eq_extractLsb' (start₂ := 16) (len₁ := 1) rfl,
    BitVec.extractLsb'_append_extractLsb'_eq_extractLsb' (start₂ := 15) (len₁ := 15) rfl,
    BitVec.extractLsb'_eq_self]

/-- The seven ignored bits of a command word, and gcaddr. -/
theorem topCut_append : (v.extractLsb' 25 7 ++ cmdGcaddr v : Word) = v := by
  rw [cmdGcaddr,
    BitVec.extractLsb'_append_extractLsb'_eq_extractLsb' (start₂ := 25) (len₁ := 25) rfl,
    BitVec.extractLsb'_eq_self]

end Fields

theorem zeroEntry_zcode (z : BitVec 3) (low : BitVec 29) :
    (zeroEntry z low).value.extractLsb' 29 3 = z :=
  BitVec.extractLsb'_append_eq_left

theorem zeroEntry_low (z : BitVec 3) (low : BitVec 29) :
    (zeroEntry z low).value.extractLsb' 0 29 = low :=
  BitVec.extractLsb'_append_eq_right

theorem selectorEntry_t2 (sel t2 : BitVec 2) (a : GcAddr) :
    (selectorEntry sel t2 a).value.extractLsb' 27 2 = t2 := by
  rw [selectorEntry, BitVec.extractLsb'_append_eq_of_le (by decide),
    BitVec.extractLsb'_append_eq_of_le (by decide), BitVec.extractLsb'_append_eq_right]

theorem selectorEntry_addr (sel t2 : BitVec 2) (a : GcAddr) :
    cmdGcaddr (selectorEntry sel t2 a).value = a :=
  BitVec.extractLsb'_append_eq_right

/-! ## The guard (40_sequencer.md R126) -/

/-- Under either basis the guard's test fixes the address's bits [24:12]. -/
theorem extractPage_of_selfModHit {b : SelfmodBasis} {w : Word} (hit : selfModHit b w = true) :
    w.extractLsb' 12 13 = 0x2#13 := by
  apply BitVec.eq_of_toNat_eq
  rw [BitVec.extractLsb'_toNat, Nat.shiftRight_eq_div_pow]
  cases b with
  | gcaddr =>
    simp only [selfModHit, Bool.and_eq_true, decide_eq_true_eq] at hit
    simp only [cmdGcaddr, BitVec.extractLsb'_toNat, Nat.shiftRight_zero] at hit
    simp only [BitVec.toNat_ofNat]
    omega
  | raw =>
    simp only [selfModHit, Bool.and_eq_true, decide_eq_true_eq] at hit
    simp only [BitVec.toNat_ofNat]
    omega

theorem selfModHit_zero (b : SelfmodBasis) : selfModHit b 0 = false := by cases b <;> decide

theorem Instr.unguarded_eq_true {b : SelfmodBasis} {i : Instr} :
    i.unguarded b = true ↔ selfModHit b (encode i).cmd = false := by
  simp [Instr.unguarded]

/-- A command word the guard catches is the SELFMOD of its two ignored fields. -/
theorem encode_selfmod_of_hit {b : SelfmodBasis} {a v : Word} (hit : selfModHit b a = true) :
    encode (.selfmod (a.extractLsb' 25 7) (a.extractLsb' 0 12) v) = ⟨a, v⟩ := by
  rw [encode, ← extractPage_of_selfModHit hit,
    BitVec.extractLsb'_append_extractLsb'_eq_extractLsb' (start₂ := 25) (len₁ := 13) rfl,
    BitVec.extractLsb'_append_extractLsb'_eq_extractLsb' (start₂ := 12) (len₁ := 12) rfl,
    BitVec.extractLsb'_eq_self]

/-! ## Encoding what was decoded -/

/-- The last of the eight values of a three-bit field. -/
theorem eq_seven_of_ne {z : BitVec 3} (h0 : z ≠ 0) (h1 : z ≠ 1) (h2 : z ≠ 2) (h3 : z ≠ 3)
    (h4 : z ≠ 4) (h5 : z ≠ 5) (h6 : z ≠ 6) : z = 7 := by
  bv_omega

theorem eq_three_of_ne {s : BitVec 2} (h0 : s ≠ 0) (h1 : s ≠ 1) (h2 : s ≠ 2) : s = 3 := by
  bv_omega

theorem zeroEntry_of_zcode {v : Word} {z : BitVec 3} (h : v.extractLsb' 29 3 = z) :
    zeroEntry z (v.extractLsb' 0 29) = ⟨0, v⟩ := by
  rw [zeroEntry, ← h, zcode_append_low]

theorem selectorEntry_of_fields {v : Word} {sel : BitVec 2} (hz : v.extractLsb' 29 3 = 4)
    (hs : cmdSize v = sel) :
    selectorEntry sel (v.extractLsb' 27 2) (cmdGcaddr v) = ⟨0, v⟩ := by
  rw [selectorEntry, ← hs, show (4#3) = v.extractLsb' 29 3 from hz.symm]
  exact congrArg _ (selectorFields_append v)

theorem cmdSize_of_ofBits {w : Word} {z : Size} (h : Size.ofBits (cmdSize w) = z) :
    cmdSize w = z.bits := by
  rw [← h, Size.bits_ofBits]

theorem encode_decodeZero (v : Word) : encode (decodeZero v) = ⟨0, v⟩ := by
  unfold decodeZero
  dsimp only
  split_ifs with h0 h1 h2 h3 h4 h5 h6
  · exact zeroEntry_of_zcode h0
  · exact zeroEntry_of_zcode h1
  · exact zeroEntry_of_zcode h2
  · exact zeroEntry_of_zcode h3
  · split <;> exact selectorEntry_of_fields h4 (cmdSize_of_ofBits ‹_›)
  · exact zeroEntry_of_zcode h5
  · exact zeroEntry_of_zcode h6
  · exact zeroEntry_of_zcode (eq_seven_of_ne h0 h1 h2 h3 h4 h5 h6)

/-- A command word from its fields, where some of them are known. -/
theorem cmdWord_of_fields {a : Word} {s : BitVec 2} {t : BitVec 3} {z : BitVec 2}
    (hs : cmdSubtype a = s) (ht : cmdType a = t) (hz : cmdSize a = z) :
    cmdWord s t z (cmdGcaddr a) = a := by
  rw [← hs, ← ht, ← hz, cmdWord_fields]

theorem encode_decodeNormal {a : Word} (v : Word) (ht : cmdType a = 0) :
    encode (decodeNormal a v) = ⟨a, v⟩ := by
  unfold decodeNormal
  dsimp only
  split_ifs with h0 h1 h2
  · split <;> simp only [encode, byteCut_append, halfCut_append] <;>
      exact congrArg (Entry.mk · v) (cmdWord_of_fields h0 ht (cmdSize_of_ofBits ‹_›))
  · split <;> simp only [encode, byteCut_append, halfCut_append] <;>
      exact congrArg (Entry.mk · v) (cmdWord_of_fields h1 ht (cmdSize_of_ofBits ‹_›))
  · split <;>
      exact congrArg (Entry.mk · v) (cmdWord_of_fields h2 ht (cmdSize_of_ofBits ‹_›))
  · rw [encode, Size.bits_ofBits, cmdWord_of_fields (eq_three_of_ne h0 h1 h2) ht rfl]

theorem encode_decodeConditional {a : Word} (v : Word) (ht : cmdType a ≠ 0) :
    encode (decodeConditional a v) = ⟨a, v⟩ := by
  unfold decodeConditional
  dsimp only
  split_ifs with h1 h2 h3 h4 h5 h6 <;>
    simp only [encode, Size.bits_ofBits, OnFalse.bits_ofBits]
  · rw [cmdWord_of_fields rfl h1 rfl]
  · rw [cmdWord_of_fields rfl h2 rfl]
  · rw [cmdWord_of_fields rfl h3 rfl]
  · rw [cmdWord_of_fields rfl h4 rfl]
  · rw [cmdWord_of_fields rfl h5 rfl]
  · rw [cmdWord_of_fields rfl h6 rfl]
  · rw [cmdWord_of_fields rfl (eq_seven_of_ne ht h1 h2 h3 h4 h5 h6) rfl]

theorem encode_decodeDispatch (b : SelfmodBasis) (e : Entry) : encode (decodeDispatch b e) = e := by
  unfold decodeDispatch
  split_ifs with hit zero normal
  · exact encode_selfmod_of_hit hit
  · rw [encode_decodeZero, ← zero]
  · exact encode_decodeNormal _ normal
  · exact encode_decodeConditional _ normal

theorem encode_decodeFillSlide (e : Entry) : encode (decodeFillSlide e) = e := by
  rw [decodeFillSlide, encode, fillFields_append]

theorem encode_decodeMemCopy (e : Entry) : encode (decodeMemCopy e) = e := by
  rw [decodeMemCopy, encode, topCut_append, copyFields_append]

/-- Decoding loses no bit. -/
theorem encode_of_decode {b : SelfmodBasis} {c : Context} {e : Entry} {i : Instr}
    (h : decode b c e = .ok i) : encode i = e := by
  cases c with
  | untilEndif =>
    rw [decode] at h
    split at h
    · cases h; exact ‹e = endifMarker›.symm
    · cases h
  | fillSlide => cases h; exact encode_decodeFillSlide e
  | memCopy => cases h; exact encode_decodeMemCopy e
  | dispatch => cases h; exact encode_decodeDispatch b e

/-! ## Context and well-formedness of what was decoded -/

theorem decodeZero_wf (b : SelfmodBasis) (v : Word) :
    (decodeZero v).wf b = true ∧ (decodeZero v).context = .dispatch := by
  unfold decodeZero
  dsimp only
  split_ifs
  iterate 4 exact ⟨rfl, rfl⟩
  · split <;> exact ⟨rfl, rfl⟩
  all_goals exact ⟨rfl, rfl⟩

theorem decodeConditional_wf {b : SelfmodBasis} {a v : Word}
    (pass : (decodeConditional a v).unguarded b = true) :
    (decodeConditional a v).wf b = true ∧ (decodeConditional a v).context = .dispatch := by
  unfold decodeConditional at pass ⊢
  dsimp only at pass ⊢
  split_ifs at pass ⊢ <;> exact ⟨pass, rfl⟩

/-- The one normal code with a further condition is WR8, whose word with gcaddr 0 is all zero. -/
theorem decodeNormal_wf {b : SelfmodBasis} {a v : Word} (nonzero : a ≠ 0) (ht : cmdType a = 0)
    (pass : (decodeNormal a v).unguarded b = true) :
    (decodeNormal a v).wf b = true ∧ (decodeNormal a v).context = .dispatch := by
  unfold decodeNormal at pass ⊢
  dsimp only at pass ⊢
  split_ifs at pass ⊢ with h0
  · split at pass
    · rename_i hz
      have gcaddr : cmdGcaddr a ≠ 0 := fun hg => nonzero <| by
        rw [← cmdWord_of_fields h0 ht (cmdSize_of_ofBits hz), hg]
        rfl
      exact ⟨Bool.and_eq_true_iff.mpr ⟨bne_iff_ne.mpr gcaddr, pass⟩, rfl⟩
    all_goals exact ⟨pass, rfl⟩
  · split at pass <;> exact ⟨pass, rfl⟩
  · split at pass <;> exact ⟨pass, rfl⟩
  · exact ⟨pass, rfl⟩

theorem decodeDispatch_wf (b : SelfmodBasis) (e : Entry) :
    (decodeDispatch b e).wf b = true ∧ (decodeDispatch b e).context = .dispatch := by
  unfold decodeDispatch
  split_ifs with hit zero normal
  · exact ⟨by rw [Instr.wf, encode_selfmod_of_hit hit, hit], rfl⟩
  · exact decodeZero_wf b e.value
  · refine decodeNormal_wf zero normal (Instr.unguarded_eq_true.mpr ?_)
    rw [encode_decodeNormal _ normal, Bool.eq_false_iff]
    exact hit
  · refine decodeConditional_wf (Instr.unguarded_eq_true.mpr ?_)
    rw [encode_decodeConditional _ normal, Bool.eq_false_iff]
    exact hit

/-- What decodes is well-formed and belongs to its context. -/
theorem wf_of_decode {b : SelfmodBasis} {c : Context} {e : Entry} {i : Instr}
    (h : decode b c e = .ok i) : i.wf b = true ∧ i.context = c := by
  cases c with
  | untilEndif =>
    rw [decode] at h
    split at h
    · cases h; exact ⟨rfl, rfl⟩
    · cases h
  | fillSlide => cases h; exact ⟨rfl, rfl⟩
  | memCopy => cases h; exact ⟨rfl, rfl⟩
  | dispatch => cases h; exact decodeDispatch_wf b e

/-- Settles O6: only the marker search looks at the entry before it decodes it. -/
theorem decodingIsTotalOutsideTheMarkerSearch :
    Obligations.DecodingIsTotalOutsideTheMarkerSearch := by
  refine ⟨fun b c e h => ?_, fun b e h => ?_, fun b c e i h => ?_⟩
  · cases c with
    | untilEndif => exact ⟨.endif, by rw [decode, if_pos (h.resolve_left (· rfl))]⟩
    | fillSlide => exact ⟨_, rfl⟩
    | memCopy => exact ⟨_, rfl⟩
    | dispatch => exact ⟨_, rfl⟩
  · rw [decode, if_neg h]
  · exact ⟨encode_of_decode h, wf_of_decode h⟩

/-! ## Decoding what was encoded -/

theorem decodeDispatch_of_hit {b : SelfmodBasis} {e : Entry} (hit : selfModHit b e.cmd = true) :
    decodeDispatch b e = .selfmod (e.cmd.extractLsb' 25 7) (e.cmd.extractLsb' 0 12) e.value := by
  rw [decodeDispatch, if_pos hit]

theorem decodeDispatch_zero (b : SelfmodBasis) (v : Word) :
    decodeDispatch b ⟨0, v⟩ = decodeZero v := by
  rw [decodeDispatch, if_neg (by rw [selfModHit_zero]; decide), if_pos rfl]

theorem decodeDispatch_cmdWord {b : SelfmodBasis} {s : BitVec 2} {t : BitVec 3} {z : BitVec 2}
    {g : GcAddr} (v : Word) (pass : selfModHit b (cmdWord s t z g) = false)
    (nonzero : s ≠ 0 ∨ t ≠ 0 ∨ z ≠ 0 ∨ g ≠ 0) :
    decodeDispatch b ⟨cmdWord s t z g, v⟩ =
      if t = 0 then decodeNormal (cmdWord s t z g) v
      else decodeConditional (cmdWord s t z g) v := by
  have word : cmdWord s t z g ≠ 0 := fun h => by
    have hs := cmdSubtype_cmdWord s t z g
    have ht := cmdType_cmdWord s t z g
    have hz := cmdSize_cmdWord s t z g
    have hg := cmdGcaddr_cmdWord s t z g
    rw [h] at hs ht hz hg
    rcases nonzero with n | n | n | n
    · exact n (hs.symm.trans rfl)
    · exact n (ht.symm.trans rfl)
    · exact n (hz.symm.trans rfl)
    · exact n (hg.symm.trans rfl)
  rw [decodeDispatch, if_neg (by rw [pass]; decide), if_neg word, cmdType_cmdWord]

theorem decode_zeroEntry {b : SelfmodBasis} {z : BitVec 3} {low : BitVec 29} {i : Instr}
    (h : decodeZero (zeroEntry z low).value = i) :
    decode b .dispatch (zeroEntry z low) = .ok i :=
  congrArg Except.ok ((decodeDispatch_zero b _).trans h)

theorem decode_selectorEntry {b : SelfmodBasis} {sel t2 : BitVec 2} {a : GcAddr} {i : Instr}
    (h : decodeZero (selectorEntry sel t2 a).value = i) :
    decode b .dispatch (selectorEntry sel t2 a) = .ok i :=
  congrArg Except.ok ((decodeDispatch_zero b _).trans h)

theorem decode_normal {b : SelfmodBasis} {s z : BitVec 2} {g : GcAddr} {v : Word} {i : Instr}
    (he : encode i = ⟨cmdWord s 0 z g, v⟩) (pass : i.unguarded b = true)
    (nonzero : s ≠ 0 ∨ z ≠ 0 ∨ g ≠ 0) (h : decodeNormal (cmdWord s 0 z g) v = i) :
    decode b .dispatch (encode i) = .ok i := by
  rw [Instr.unguarded_eq_true, he] at pass
  rw [he, decode, decodeDispatch_cmdWord v pass (nonzero.imp_right .inr), if_pos rfl, h]

theorem decode_conditional {b : SelfmodBasis} {s z : BitVec 2} {t : BitVec 3} {g : GcAddr}
    {v : Word} {i : Instr} (he : encode i = ⟨cmdWord s t z g, v⟩) (pass : i.unguarded b = true)
    (ht : t ≠ 0) (h : decodeConditional (cmdWord s t z g) v = i) :
    decode b .dispatch (encode i) = .ok i := by
  rw [Instr.unguarded_eq_true, he] at pass
  rw [he, decode, decodeDispatch_cmdWord v pass (.inr (.inl ht)), if_neg ht, h]

theorem decode_selfmod {b : SelfmodBasis} {top : BitVec 7} {low : BitVec 12} {v : Word}
    (hit : selfModHit b (encode (.selfmod top low v)).cmd = true) :
    decode b .dispatch (encode (.selfmod top low v)) = .ok (.selfmod top low v) := by
  have topBits : (top ++ 0x2#13 ++ low : Word).extractLsb' 25 7 = top := by
    rw [BitVec.extractLsb'_append_eq_of_le (by decide), BitVec.extractLsb'_append_eq_left]
  have lowBits : (top ++ 0x2#13 ++ low : Word).extractLsb' 0 12 = low :=
    BitVec.extractLsb'_append_eq_right
  rw [decode, decodeDispatch_of_hit hit, encode, topBits, lowBits]

theorem decode_fsdata (b : SelfmodBasis) (val : Word) (vi wn : Byte) (ai : BitVec 16) :
    decode b .fillSlide (encode (.fsdata val vi wn ai)) = .ok (.fsdata val vi wn ai) := by
  have viBits : (vi ++ wn ++ ai : Word).extractLsb' 24 8 = vi := by
    rw [BitVec.extractLsb'_append_eq_of_le (by decide), BitVec.extractLsb'_append_eq_left]
  have wnBits : (vi ++ wn ++ ai : Word).extractLsb' 16 8 = wn := by
    rw [BitVec.extractLsb'_append_eq_of_le (by decide), BitVec.extractLsb'_append_eq_right]
  have aiBits : (vi ++ wn ++ ai : Word).extractLsb' 0 16 = ai := BitVec.extractLsb'_append_eq_right
  rw [decode, decodeFillSlide, encode, viBits, wnBits, aiBits]

theorem decode_mcdata (b : SelfmodBasis) (top : BitVec 7) (src : GcAddr) (ptr check : Byte)
    (bit15 : BitVec 1) (n : BitVec 15) :
    decode b .memCopy (encode (.mcdata top src ptr check bit15 n)) =
      .ok (.mcdata top src ptr check bit15 n) := by
  have topBits : (top ++ src : Word).extractLsb' 25 7 = top := BitVec.extractLsb'_append_eq_left
  have srcBits : cmdGcaddr (top ++ src : Word) = src := BitVec.extractLsb'_append_eq_right
  have ptrBits : (ptr ++ check ++ bit15 ++ n : Word).extractLsb' 24 8 = ptr := by
    rw [BitVec.extractLsb'_append_eq_of_le (by decide),
      BitVec.extractLsb'_append_eq_of_le (by decide), BitVec.extractLsb'_append_eq_left]
  have checkBits : (ptr ++ check ++ bit15 ++ n : Word).extractLsb' 16 8 = check := by
    rw [BitVec.extractLsb'_append_eq_of_le (by decide),
      BitVec.extractLsb'_append_eq_of_le (by decide), BitVec.extractLsb'_append_eq_right]
  have flagBit : (ptr ++ check ++ bit15 ++ n : Word).extractLsb' 15 1 = bit15 := by
    rw [BitVec.extractLsb'_append_eq_of_le (by decide), BitVec.extractLsb'_append_eq_right]
  have countBits : (ptr ++ check ++ bit15 ++ n : Word).extractLsb' 0 15 = n :=
    BitVec.extractLsb'_append_eq_right
  rw [decode, decodeMemCopy, encode, topBits, srcBits, ptrBits, checkBits, flagBit, countBits]

theorem extract_repeat24 (r : BitVec 24) (d : Byte) : (r ++ d : Word).extractLsb' 8 24 = r :=
  BitVec.extractLsb'_append_eq_left

theorem extract_data8 (r : BitVec 24) (d : Byte) : (r ++ d : Word).extractLsb' 0 8 = d :=
  BitVec.extractLsb'_append_eq_right

theorem extract_repeat16 (r d : BitVec 16) : (r ++ d : Word).extractLsb' 16 16 = r :=
  BitVec.extractLsb'_append_eq_left

theorem extract_data16 (r d : BitVec 16) : (r ++ d : Word).extractLsb' 0 16 = d :=
  BitVec.extractLsb'_append_eq_right

/-- Settles O7: the entry's row is found by its fields, which stand where the encoder put them. -/
theorem decodeUndoesEncode : Obligations.DecodeUndoesEncode := by
  intro b i h
  cases i
  case zend | zunk1 | znorm | zrow | zunk5 | zunk6 | zunk7 =>
    exact decode_zeroEntry (by simp [decodeZero, zeroEntry_zcode, zeroEntry_low])
  case zfs8 | zfs16 | zfs32 | zmcpy =>
    exact decode_selectorEntry (by
      simp [decodeZero, Machine.selector_fields, selectorEntry_t2, selectorEntry_addr, Size.ofBits])
  case selfmod => exact decode_selfmod h
  case endif => rfl
  case fsdata => exact decode_fsdata b _ _ _ _
  case mcdata => exact decode_mcdata b _ _ _ _ _ _
  case wr8 =>
    simp only [Instr.wf, Bool.and_eq_true, bne_iff_ne] at h
    obtain ⟨nonzero, pass⟩ := h
    exact decode_normal rfl pass (.inr (.inr nonzero))
      (by simp [decodeNormal, cmdSubtype_cmdWord, cmdSize_cmdWord, cmdGcaddr_cmdWord, Size.ofBits,
        extract_repeat24, extract_data8])
  case wr16 | wr32 | wrf32 =>
    exact decode_normal rfl h (.inr (.inl (by decide)))
      (by simp [decodeNormal, cmdSubtype_cmdWord, cmdSize_cmdWord, cmdGcaddr_cmdWord, Size.ofBits,
        extract_repeat16, extract_data16])
  case pwr8 | pwr16 | pwr32 | pwrf32 | add8 | add16 | add32 | addf32 =>
    exact decode_normal rfl h (.inl (by decide))
      (by simp [decodeNormal, cmdSubtype_cmdWord, cmdSize_cmdWord, cmdGcaddr_cmdWord, Size.ofBits,
        extract_repeat24, extract_data8, extract_repeat16, extract_data16])
  case master =>
    exact decode_normal rfl h (.inl (by decide))
      (by simp [decodeNormal, cmdSubtype_cmdWord, cmdSize_cmdWord, cmdGcaddr_cmdWord])
  case ceq | cne | clts | cgts | cltu | cgtu | cand =>
    exact decode_conditional rfl h (by decide)
      (by simp [decodeConditional, cmdSubtype_cmdWord, cmdType_cmdWord, cmdSize_cmdWord,
        cmdGcaddr_cmdWord])

end Sys2Proof
end

section
/-! PROOFS. One entry of a run: the stages of an entry's step (40_sequencer.md R121 to R127), the
skips (R122 to R124), the end of the list (R120) and the follow-ups (R125). -/

namespace Sys2Proof.Machine

variable {s t : State} {e : Entry} {i : Instr}

/-! ## The stages of an entry's step -/

theorem runEntry_of_decode {c : Context} (h : decode s.cfg.selfmodBasis c e = .ok i) :
    runEntry c e s = exec i s := by
  rw [runEntry, h]

theorem entryStep_of_skipAll (h : s.skip = skipAll) : entryStep e s = returnSuccess s := by
  have notPositive : ¬ 0 < s.skip.toInt := by rw [h]; decide
  rw [entryStep, if_neg notPositive, if_pos h]

theorem entryStep_of_skipUntilEndif (h : s.skip = skipUntilEndif) :
    entryStep e s = runEntry .untilEndif e s := by
  have notPositive : ¬ 0 < s.skip.toInt := by rw [h]; decide
  have notAll : s.skip ≠ skipAll := by rw [h]; decide
  rw [entryStep, if_neg notPositive, if_neg notAll, if_pos h]

theorem entryStep_of_skip_zero (h : s.skip = 0) :
    entryStep e s = runEntry (pendContext s.pend) e s := by
  have notPositive : ¬ 0 < s.skip.toInt := by rw [h]; decide
  have notAll : s.skip ≠ skipAll := by rw [h]; decide
  have notMarker : s.skip ≠ skipUntilEndif := by rw [h]; decide
  rw [entryStep, if_neg notPositive, if_neg notAll, if_neg notMarker]

/-- While the marker is sought, an entry that is not the marker changes nothing. -/
theorem runEntry_untilEndif_of_ne (h : e ≠ endifMarker) : runEntry .untilEndif e s = .next s := by
  rw [runEntry, decode, if_neg h]

theorem runEntry_untilEndif_marker : runEntry .untilEndif endifMarker s = .next (s.setSkip 0) := by
  rw [runEntry, decode, if_pos rfl]
  rfl

/-- An entry that is not skipped is executed as what it decodes to in the context of PEND. -/
theorem State.Running.step_of_decode (running : s.Running) (entry : s.entryAt = some e)
    (skip : s.skip = 0) (h : decode s.cfg.selfmodBasis (pendContext s.pend) e = .ok i) :
    step s = exec i s.advance := by
  rw [running.step_of_entryAt entry, entryStep_of_skip_zero (s := s.advance) skip]
  exact runEntry_of_decode (s := s.advance) h

/-- Settles O4: in either context the entry's step is the decoded instruction. -/
theorem stepRunsTheDecodedInstruction : Obligations.StepRunsTheDecodedInstruction := by
  rintro s e i running entry - (⟨skip, h⟩ | ⟨skip, h⟩)
  · exact running.step_of_decode entry skip h
  · rw [running.step_of_entryAt entry, entryStep_of_skipUntilEndif (s := s.advance) skip]
    exact runEntry_of_decode (s := s.advance) h

/-! ## Placing an entry -/

theorem putEntry_getElem? (ops : List Entry) (n : Nat) (e : Entry) :
    (putEntry ops n e)[n]? = some e := by
  have before : (ops.take n ++ List.replicate (n - ops.length) endifMarker).length = n := by
    rw [List.length_append, List.length_take, List.length_replicate]
    omega
  rw [putEntry, List.getElem?_append_right (by omega), before, Nat.sub_self,
    List.getElem?_cons_zero]

theorem State.withEntry_running (s : State) (e : Entry) : (s.withEntry e).Running := by
  refine ⟨?_, rfl⟩
  rw [State.withEntry_phase]
  cases s.phase <;> exact ⟨_, _, rfl⟩

theorem State.withEntry_entryAt (s : State) (e : Entry) : (s.withEntry e).entryAt = some e :=
  putEntry_getElem? _ _ _

theorem decode_of_decodeTableWord {nbits w : Nat} (h : decodeTableWord nbits w = some i) :
    decode .gcaddr .dispatch (entryOfTableWord nbits w) = .ok i := by
  rw [decodeTableWord] at h
  split at h
  · cases h; assumption
  · cases h

/-- Settles O5: the placed entry stands at IDX with nothing pending. -/
theorem placedWordIsTheNextInstruction : Obligations.PlacedWordIsTheNextInstruction := by
  intro s nbits w i basis h
  refine (s.withEntry_running _).step_of_decode (s.withEntry_entryAt _) rfl ?_
  rw [State.withEntry_cfg, basis]
  exact decode_of_decodeTableWord h

/-- Settles O3: the ten words are decoded by evaluation. -/
theorem wordsFromTheSpecDecode : Obligations.WordsFromTheSpecDecode := by
  unfold Obligations.WordsFromTheSpecDecode
  decide

/-! ## The end of the list -/

/-- At the end of the list the run succeeds. -/
theorem State.Running.step_of_listEnd (running : s.Running) (last : s.entryAt = none) :
    step s = .next (s.setResult .success) := by
  rw [State.entryAt] at last
  rw [running.step_eq_runStep, runStep, last]
  rfl

/-- Settles O19: neither SKIP nor PEND is looked at there. -/
theorem listEndIsSuccess : Obligations.ListEndIsSuccess :=
  fun _ running last => running.step_of_listEnd last

/-! ## Several steps -/

section Run

variable {M : Host.Core} {n : Nat} {x y : M.State}

theorem run_succ_of_next (h : M.step x = .next y) : M.run (n + 1) x = M.run n y := by
  rw [Host.Core.run, h]

theorem run_succ_of_fault {f : M.Fault} (h : M.step x = .fault f) :
    M.run (n + 1) x = .fault f := by
  rw [Host.Core.run, h]

theorem run_succ_eq_next : M.run (n + 1) x = .next y ↔
    ∃ z, M.step x = .next z ∧ M.run n z = .next y := by
  rw [Host.Core.run]
  cases M.step x <;> simp

/-- Runs put one after the other. -/
theorem run_add {m : Nat} (h : M.run n x = .next y) : M.run (n + m) x = M.run m y := by
  induction n generalizing x with
  | zero => cases h; rw [Nat.zero_add]
  | succ n ih =>
    obtain ⟨z, first, others⟩ := run_succ_eq_next.mp h
    rw [Nat.succ_add, run_succ_of_next first, ih others]

end Run

theorem run_succ_of_step {n : Nat} (h : step s = .next t) :
    Host.Core.run Sys2Proof.core (n + 1) s = Host.Core.run Sys2Proof.core n t :=
  run_succ_of_next (M := Sys2Proof.core) h

theorem run_one_of_step (h : step s = .next t) :
    Host.Core.run Sys2Proof.core 1 s = .next t :=
  run_succ_of_step h

/-! ## Skipped entries -/

theorem State.Running.advance (running : s.Running) : s.advance.Running := running

theorem State.entryAt_of_lt (h : s.idx < s.code.ops.length) : ∃ e, s.entryAt = some e :=
  ⟨_, List.getElem?_eq_getElem h⟩

theorem toInt_ofNat_pos {n : Nat} (pos : 0 < n) (small : n < 2 ^ 31) :
    0 < (BitVec.ofNat 32 n).toInt := by
  have value : (BitVec.ofNat 32 n).toNat = n := by rw [BitVec.toNat_ofNat]; omega
  rw [BitVec.toInt_eq_toNat_of_lt (by omega), value]
  exact Int.natCast_pos.mpr pos

/-- Settles O16: by induction on the entries to skip, each of which takes one off SKIP. -/
theorem skippedEntriesCountExactly : Obligations.SkippedEntriesCountExactly := by
  intro n
  induction n with
  | zero =>
    intro s _ _ skip _
    change (.next s : Out) = _
    rw [Nat.add_zero, show (0 : Word) = s.skip from skip.symm]
    rfl
  | succ n ih =>
    intro s running small skip room
    obtain ⟨e, entry⟩ := State.entryAt_of_lt (s := s) (by omega)
    have positive : 0 < s.skip.toInt := skip ▸ toInt_ofNat_pos n.succ_pos small
    have rest : s.skip - 1 = BitVec.ofNat 32 n := by
      rw [skip, BitVec.ofNat_add]
      exact BitVec.add_sub_cancel _ _
    have first := countedSkipHasNoOtherEffect s e running entry positive
    have others := ih { s with idx := s.idx + 1, skip := s.skip - 1 } running (by omega) rest
      (by dsimp only; omega)
    rw [run_succ_of_step first, others]
    simp only [Nat.add_assoc, Nat.add_comm 1 n]

/-- While the marker is sought, an entry that is not the marker is passed over. -/
theorem State.Running.step_of_not_marker (running : s.Running) (skip : s.skip = skipUntilEndif)
    (entry : s.entryAt = some e) (h : e ≠ endifMarker) : step s = .next s.advance := by
  rw [running.step_of_entryAt entry, entryStep_of_skipUntilEndif (s := s.advance) skip,
    runEntry_untilEndif_of_ne h]

theorem State.Running.step_of_marker (running : s.Running) (skip : s.skip = skipUntilEndif)
    (entry : s.entryAt = some endifMarker) : step s = .next (s.advance.setSkip 0) := by
  rw [running.step_of_entryAt entry, entryStep_of_skipUntilEndif (s := s.advance) skip,
    runEntry_untilEndif_marker]

/-- The first `n` entries of the search, none of them the marker, have no effect. -/
theorem State.Running.run_of_not_markers {n : Nat} (running : s.Running)
    (skip : s.skip = skipUntilEndif)
    (others : ∀ k < n, ∃ e, s.code.ops[s.idx + k]? = some e ∧ e ≠ ⟨0, 0x40000000⟩) :
    Host.Core.run Sys2Proof.core n s = .next { s with idx := s.idx + n } := by
  induction n generalizing s with
  | zero => rfl
  | succ n ih =>
    obtain ⟨e, entry, h⟩ := others 0 n.succ_pos
    have rest : ∀ k < n, ∃ e, s.advance.code.ops[s.advance.idx + k]? = some e ∧
        e ≠ ⟨0, 0x40000000⟩ := fun k hk => by
      have := others (k + 1) (by omega)
      rwa [Nat.add_comm k 1, ← Nat.add_assoc] at this
    rw [run_succ_of_step (running.step_of_not_marker skip entry h), ih running.advance skip rest]
    simp only [State.advance, Nat.add_assoc, Nat.add_comm 1 n]

/-- Settles O18: the search passes over the other entries and ends at the marker or at the end
of the list. -/
theorem skipUntilEndifEndsAtTheFirstMarker : Obligations.SkipUntilEndifEndsAtTheFirstMarker := by
  intro n s running skip others
  have search := running.run_of_not_markers skip others
  have still : State.Running { s with idx := s.idx + n } := running
  refine ⟨search, fun marker => ?_, fun last => ?_⟩
  · exact (run_add search).trans (run_one_of_step (still.step_of_marker skip marker))
  · exact (run_add search).trans (run_one_of_step (still.step_of_listEnd last))

/-! ## The guard and the follow-ups -/

/-- Settles O21: the guard comes first in dispatch, and SELFMOD fails with the entry it was cut
from. -/
theorem guardStopsDirectTargets : Obligations.GuardStopsDirectTargets := by
  intro s e running entry skip pend inPage
  have hit : selfModHit s.cfg.selfmodBasis e.cmd = true := by
    cases basis : s.cfg.selfmodBasis <;> rw [basis] at inPage <;> simpa [selfModHit] using inPage
  have decoded : decode s.cfg.selfmodBasis (pendContext s.pend) e =
      .ok (.selfmod (e.cmd.extractLsb' 25 7) (e.cmd.extractLsb' 0 12) e.value) := by
    rw [pend]
    exact congrArg Except.ok (decodeDispatch_of_hit hit)
  rw [running.step_of_decode entry skip decoded, exec, execSelfmod, raiseFailure,
    encode_selfmod_of_hit hit]
  rfl

end Sys2Proof.Machine
end

section
/-! PROOFS. What an instruction and a step of a run change and leave alone: the registers
(10_state.md R22 to R28), the frame of a step, the follow-ups (40_sequencer.md R125) and the
failures (60_exceptions.md R260 to R262). -/

namespace Sys2Proof.Machine

variable {s t : State} {e : Entry} {i : Instr}

/-! ## The registers an instruction writes -/

theorem Effect.skip_eq (h : Effect i s t) :
    t.skip = s.skip ∨ isConditional i = true ∨ (i = .endif ∧ t.skip = 0) := by
  cases h with
  | endif hi => exact .inr (.inr ⟨hi, rfl⟩)
  | compareFalse o hc ho => exact .inr (.inl hc)
  | _ => exact .inl rfl

theorem Effect.pend_eq (h : Effect i s t) :
    t.pend = s.pend ∨ isSelector i = true ∨ (isFollowUp i = true ∧ t.pend = .none) := by
  cases h with
  | fillSlide hs hz hc => exact .inr (.inl hs)
  | memCopy hs hz hc => exact .inr (.inl hs)
  | composite m hf hm => exact .inr (.inr ⟨hf, rfl⟩)
  | badSize hf hs => exact .inr (.inr ⟨by rw [isFollowUp, hf]; rfl, rfl⟩)
  | badCount hf => exact .inr (.inr ⟨by rw [isFollowUp, hf]; rfl, rfl⟩)
  | _ => exact .inl rfl

theorem Effect.vlast_eq (h : Effect i s t) : t.vlast = s.vlast ∨ isSelector i = true := by
  cases h with
  | fillSlide hs hz hc => exact .inr hs
  | memCopy hs hz hc => exact .inr hs
  | _ => exact .inl rfl

theorem Raises.mayEndRun {k : FailKind} {v : Word} (h : Raises i k v) : mayEndRun i = true := by
  cases h <;> rfl

/-- FSDATA is the one instruction of its context. -/
theorem mayEndRun_of_fillSlide (h : i.context = .fillSlide) : mayEndRun i = true := by
  cases i with
  | fsdata val vi wn ai => rfl
  | _ => cases h

theorem mayEndRun_of_memCopy (h : i.context = .memCopy) : mayEndRun i = true := by
  cases i with
  | mcdata top src p c b n => rfl
  | _ => cases h

theorem Effect.result_eq (h : Effect i s t) : t.result = s.result ∨ mayEndRun i = true := by
  cases h with
  | success low hi => subst hi; exact .inr rfl
  | failure k v hr => exact .inr hr.mayEndRun
  | badSize hf hs => exact .inr (mayEndRun_of_fillSlide hf)
  | badCount hf => exact .inr (mayEndRun_of_memCopy hf)
  | _ => exact .inl rfl

theorem writesMemory_of_isFollowUp (h : isFollowUp i = true) : writesMemory i = true := by
  cases i with
  | fsdata val vi wn ai => rfl
  | mcdata top src p c b n => rfl
  | _ => cases h

theorem Effect.mem_eq (h : Effect i s t) : t.mem = s.mem ∨ writesMemory i = true := by
  cases h with
  | store m hw hc hm => exact .inr hw
  | floatAdd g d m n hi hm => subst hi; exact .inr rfl
  | composite m hf hm => exact .inr (writesMemory_of_isFollowUp hf)
  | _ => exact .inl rfl

theorem Effect.nanDraws_eq (h : Effect i s t) :
    t.nanDraws = s.nanDraws ∨ ∃ g d, i = .addf32 g d := by
  cases h with
  | floatAdd g d m n hi hm => exact .inr ⟨g, d, hi⟩
  | _ => exact .inl rfl

/-- Settles O46: each register's line of the effects. -/
theorem registersAreWrittenByTheirInstructionsAlone :
    Obligations.RegistersAreWrittenByTheirInstructionsAlone := by
  intro i s t h
  have effect := exec_effect h
  exact ⟨effect.skip_eq.resolve_left, effect.pend_eq.resolve_left, effect.vlast_eq.resolve_left,
    effect.result_eq.resolve_left, effect.mem_eq.resolve_left, effect.nanDraws_eq.resolve_left⟩

theorem Effect.idx_eq (h : Effect i s t) : t.idx = s.idx := by
  obtain ⟨-, idx, -⟩ := h.frame
  exact idx

/-! ## What a step of a run can be -/

/-- The next states of the step of an entry, said once: the skips, and the effects of the
instruction that the entry is in the context of PEND. -/
inductive EntryEffect (e : Entry) (s : State) : State → Prop where
  | counted (h : 0 < s.skip.toInt) : EntryEffect e s (s.setSkip (s.skip - 1))
  | all (h : s.skip = skipAll) : EntryEffect e s (s.setResult .success)
  | passed (h : s.skip = skipUntilEndif) : EntryEffect e s s
  | marker (h : s.skip = skipUntilEndif) : EntryEffect e s (s.setSkip 0)
  | executed (t : State) (i : Instr)
      (notSkipped : ¬ 0 < s.skip.toInt ∧ s.skip ≠ skipAll ∧ s.skip ≠ skipUntilEndif)
      (he : encode i = e) (hc : i.context = pendContext s.pend) (h : Effect i s t) :
      EntryEffect e s t

theorem entryStep_effect (h : entryStep e s = .next t) : EntryEffect e s t := by
  rw [entryStep] at h
  split_ifs at h with positive all marker
  · cases h; exact .counted positive
  · cases h; exact .all all
  · by_cases he : e = endifMarker
    · rw [he, runEntry_untilEndif_marker] at h
      cases h; exact .marker marker
    · rw [runEntry_untilEndif_of_ne he] at h
      cases h; exact .passed marker
  · obtain ⟨i, decoded⟩ := decodingIsTotalOutsideTheMarkerSearch.1 s.cfg.selfmodBasis
      (pendContext s.pend) e (.inl (by cases s.pend <;> decide))
    rw [runEntry_of_decode decoded] at h
    exact .executed t i ⟨positive, all, marker⟩ (encode_of_decode decoded)
      (wf_of_decode decoded).2 (exec_effect h)

theorem EntryEffect.frame (h : EntryEffect e s t) :
    t.cfg = s.cfg ∧ t.idx = s.idx ∧ t.code = s.code ∧ t.active = s.active ∧ t.phase = s.phase ∧
    t.cheatsEnabled = s.cheatsEnabled ∧ t.useInternalLog = s.useInternalLog ∧
    t.logLatch = s.logLatch ∧ t.selfLog = s.selfLog ∧ t.reports = s.reports ∧
    t.inputs = s.inputs ∧ t.logFlagMoved = s.logFlagMoved ∧ t.logDraws = s.logDraws := by
  cases h with
  | executed t i _ _ _ h => exact h.frame
  | _ => simp

/-- A step of a run that answers: at the end of the list RESULT alone is set, elsewhere the entry at
IDX has its effect after IDX has advanced. -/
theorem State.Running.step_cases (running : s.Running) (h : step s = .next t) :
    (s.entryAt = none ∧ t = s.setResult .success) ∨
      ∃ e, s.entryAt = some e ∧ EntryEffect e s.advance t := by
  cases entry : s.entryAt with
  | none =>
    rw [running.step_of_listEnd entry] at h
    cases h; exact .inl ⟨rfl, rfl⟩
  | some e =>
    rw [running.step_of_entryAt entry] at h
    exact .inr ⟨e, rfl, entryStep_effect h⟩

/-- Settles O47: the frame of the entry's effect, and IDX from the advance. -/
theorem runsLeaveTheHostAndTheCodeAlone : Obligations.RunsLeaveTheHostAndTheCodeAlone := by
  intro s t running h
  obtain ⟨last, rfl⟩ | ⟨e, entry, effect⟩ := running.step_cases h
  · simp [last]
  · obtain ⟨cfg, idx, code, active, phase, cheats, useLog, latch, log, reports, inputs, moved,
      draws⟩ := effect.frame
    refine ⟨code, active, phase, cfg, cheats, useLog, latch, log, moved, draws, reports, inputs, ?_⟩
    rw [idx, entry, if_neg (Option.some_ne_none e)]
    rfl

/-! ## Contexts -/

theorem context_of_isConditional (h : isConditional i = true) : i.context = .dispatch := by
  cases i
  case ceq | cne | clts | cgts | cltu | cgtu | cand => rfl
  all_goals cases h

theorem context_of_isSelector (h : isSelector i = true) : i.context = .dispatch := by
  cases i
  case zfs8 | zfs16 | zfs32 | zmcpy => rfl
  all_goals cases h

theorem Raises.context {k : FailKind} {v : Word} (h : Raises i k v) : i.context = .dispatch := by
  cases h <;> rfl

theorem not_isFollowUp_of_dispatch (h : i.context = .dispatch) : isFollowUp i = false := by
  rw [isFollowUp, h]
  rfl

theorem isFollowUp_of_pendContext (hc : i.context = pendContext s.pend) (pend : s.pend ≠ .none) :
    isFollowUp i = true := by
  rw [isFollowUp, hc]
  cases hp : s.pend with
  | none => exact absurd hp pend
  | fillSlide => rfl
  | memCopy => rfl

theorem pend_none_of_dispatch (hc : i.context = pendContext s.pend) (h : i.context = .dispatch) :
    s.pend = .none := by
  by_contra pend
  have := isFollowUp_of_pendContext hc pend
  rw [not_isFollowUp_of_dispatch h] at this
  cases this

/-! ## Follow-ups -/

/-- A follow-up clears PEND and leaves SKIP and VLAST. -/
theorem Effect.of_isFollowUp (h : Effect i s t) (hf : isFollowUp i = true) :
    t.pend = .none ∧ t.skip = s.skip ∧ t.vlast = s.vlast := by
  have notDispatch : i.context ≠ .dispatch := fun hd => by
    rw [not_isFollowUp_of_dispatch hd] at hf
    cases hf
  cases h with
  | composite m hf hm => exact ⟨rfl, rfl, rfl⟩
  | badSize hc hs => exact ⟨rfl, rfl, rfl⟩
  | badCount hc => exact ⟨rfl, rfl, rfl⟩
  | znorm low hi => subst hi; cases hf
  | success low hi => subst hi; cases hf
  | endif hi => subst hi; cases hf
  | floatAdd g d m n hi hm => subst hi; cases hf
  | failure k v hr => exact absurd hr.context notDispatch
  | compareTrue hc => exact absurd (context_of_isConditional hc) notDispatch
  | compareFalse o hc ho => exact absurd (context_of_isConditional hc) notDispatch
  | fillSlide hs hz hc => exact absurd (context_of_isSelector hs) notDispatch
  | memCopy hs hz hc => exact absurd (context_of_isSelector hs) notDispatch
  | store m hw hc hm => rw [hf] at hc; cases hc

/-- With SKIP 0 the entry is executed. -/
theorem EntryEffect.executed_of_skip_zero (h : EntryEffect e s t) (skip : s.skip = 0) :
    ∃ i, encode i = e ∧ i.context = pendContext s.pend ∧ Effect i s t := by
  cases h with
  | executed t i _ he hc h => exact ⟨i, he, hc, h⟩
  | counted positive => rw [skip] at positive; exact absurd positive (by decide)
  | all all => rw [skip] at all; exact absurd all (by decide)
  | passed marker => rw [skip] at marker; exact absurd marker (by decide)
  | marker marker => rw [skip] at marker; exact absurd marker (by decide)

/-- Settles O20: PEND alone gives the context, and a follow-up's effect clears it. -/
theorem followUpIsConsumedAsOperands : Obligations.FollowUpIsConsumedAsOperands := by
  intro s e running entry skip
  refine ⟨fun pend => ?_, fun pend => ?_, fun pend t h => ?_⟩
  · exact running.step_of_decode entry skip (by rw [pend]; rfl)
  · exact running.step_of_decode entry skip (by rw [pend]; rfl)
  · obtain ⟨last, -⟩ | ⟨e', -, entryEffect⟩ := running.step_cases h
    · rw [entry] at last; cases last
    · obtain ⟨i, -, hc, effect⟩ := entryEffect.executed_of_skip_zero (s := s.advance) skip
      obtain ⟨pend', skip', vlast'⟩ :=
        effect.of_isFollowUp (isFollowUp_of_pendContext (s := s.advance) hc pend)
      exact ⟨pend', skip'.trans skip, vlast', effect.idx_eq⟩

/-! ## Failures -/

/-- The failures an instruction can end with: those of `Raises`, and the two of the follow-ups. -/
theorem Effect.failure_cases {k : FailKind} {info : FailInfo} (h : Effect i s t)
    (running : s.result = .running) (failed : t.result = .failure k info) :
    info.index = s.idx - 1 ∧ info.entry = encode i ∧ t.mem = s.mem ∧ t.vlast = s.vlast ∧
      (Raises i k info.value ∨ (k = .invalidSize ∧ i.context = .fillSlide ∧ cmdSize s.vlast = 3) ∨
        (k = .memcpyBadValue ∧ info.value = (encode i).value &&& 0x00FF0000)) := by
  cases h
  case success => cases failed
  case failure hr => cases failed; exact ⟨rfl, rfl, rfl, rfl, .inl hr⟩
  case badSize hc hs => cases failed; exact ⟨rfl, rfl, rfl, rfl, .inr (.inl ⟨rfl, hc, hs⟩)⟩
  case badCount => cases failed; exact ⟨rfl, rfl, rfl, rfl, .inr (.inr ⟨rfl, rfl⟩)⟩
  all_goals exact absurd (running.symm.trans failed) (by simp)

/-- A failing step executed the entry at IDX. -/
theorem State.Running.failure_cases {k : FailKind} {info : FailInfo} (running : s.Running)
    (h : step s = .next t) (failed : t.result = .failure k info) :
    ∃ i, s.entryAt = some (encode i) ∧ i.context = pendContext s.pend ∧ Effect i s.advance t := by
  obtain ⟨-, rfl⟩ | ⟨e, entry, effect⟩ := running.step_cases h
  · cases failed
  · cases effect with
    | executed _ i _ he hc h => exact ⟨i, he ▸ entry, hc, h⟩
    | all => cases failed
    | _ => exact absurd (running.2.symm.trans failed) (by simp)

/-- The zcode of a zero-code's value word. -/
theorem zeroEntry_value_shift (z : BitVec 3) (low : BitVec 29) :
    (zeroEntry z low).value >>> 29 = z.setWidth 32 := by
  apply BitVec.eq_of_toNat_eq
  have := low.isLt
  have := z.isLt
  rw [zeroEntry, BitVec.toNat_ushiftRight, BitVec.toNat_append, BitVec.toNat_setWidth,
    ← Nat.shiftLeft_add_eq_or_of_lt low.isLt, Nat.shiftLeft_eq, Nat.shiftRight_eq_div_pow]
  omega

/-- Size 3 of fill-and-slide is no failure of these. -/
theorem Raises.ne_invalidSize {k : FailKind} {v : Word} (h : Raises i k v) : k ≠ .invalidSize := by
  cases h <;> simp

/-- The offending value of each kind (60_exceptions.md R260). -/
theorem Raises.value {k : FailKind} {v : Word} (h : Raises i k v) :
    (k = .selfModify ∨ k = .masterCode → v = (encode i).cmd) ∧
    (k = .unsupportedRow → v = 3) ∧ (k = .unknownZcode → v = (encode i).value >>> 29) ∧
    k ≠ .memcpyBadValue := by
  cases h with
  | zrow low => simp
  | selfmod top low v => simp
  | master z g v => simp
  | zunk1 low => simp [encode, zeroEntry_value_shift]
  | zunk5 low => simp [encode, zeroEntry_value_shift]
  | zunk6 low => simp [encode, zeroEntry_value_shift]
  | zunk7 low => simp [encode, zeroEntry_value_shift]

/-- Settles O48: the entry executed is the encoding of what failed. -/
theorem failuresArePrecise : Obligations.FailuresArePrecise := by
  intro s t k info running h failed
  obtain ⟨i, entry, -, effect⟩ := running.failure_cases h failed
  obtain ⟨index, words, mem, vlast, kinds⟩ := effect.failure_cases running.2 failed
  refine ⟨index.trans (Nat.add_sub_cancel s.idx 1), words ▸ entry, mem, vlast, effect.idx_eq, ?_⟩
  rw [words]
  rcases kinds with raised | ⟨rfl, -, -⟩ | ⟨rfl, value⟩
  · obtain ⟨command, row, zcode, notCopy⟩ := raised.value
    exact ⟨command, row, zcode, fun hk => absurd hk notCopy⟩
  · simp
  · simp [value]

end Sys2Proof.Machine
end

section
/-! PROOFS. The machine's invariant (10_state.md section 3): one lemma per state operation, then the
step of a run and the steps of the host. -/

namespace Sys2Proof.Machine

variable {s t : State} {e : Entry} {i : Instr} {v : Word}

/-! ## One lemma per operation -/

theorem State.Inv.advance (h : s.Inv) (room : s.idx < s.code.ops.length) : s.advance.Inv :=
  { h with idx_le := room }

theorem State.Inv.setMem (h : s.Inv) {m : Memory} (wf : Memory.wf m = true) : (s.setMem m).Inv :=
  { h with mem_wf := wf }

theorem State.Inv.setNanDraws (h : s.Inv) (n : Nat) : (s.setNanDraws n).Inv := { h with }

theorem State.Inv.setSkip (h : s.Inv) (legal : SkipLegal v) (pend : s.pend ≠ .none → v = 0) :
    (s.setSkip v).Inv :=
  { h with skip_legal := legal, pend_skip := pend }

theorem State.Inv.setSuccess (h : s.Inv) : (s.setResult .success).Inv :=
  { h with failure_named := fun _ _ failed => by cases failed }

theorem State.Inv.setFailure (h : s.Inv) {k : FailKind} {info : FailInfo} (hk : k ≠ .invalidSize)
    (named : s.code.ops[info.index]? = some info.entry) :
    (s.setResult (.failure k info)).Inv :=
  { h with failure_named := fun _ _ failed => by cases failed; exact ⟨hk, named⟩ }

theorem State.Inv.clearPend (h : s.Inv) : s.clearPend.Inv :=
  { h with
    pend_skip := fun pend => absurd rfl pend
    pend_selector := fun pend => absurd rfl pend
    fill_size := fun pend => by cases pend
    copy_size := fun pend => by cases pend }

theorem State.Inv.setFillSlide (h : s.Inv) (skip : s.skip = 0) (selector : v.extractLsb' 29 3 = 4)
    (size : cmdSize v ≠ 3) : (s.setPending .fillSlide v).Inv :=
  { h with
    pend_skip := fun _ => skip
    pend_selector := fun _ => selector
    fill_size := fun _ => size
    copy_size := fun pend => by cases pend }

theorem State.Inv.setMemCopy (h : s.Inv) (skip : s.skip = 0) (selector : v.extractLsb' 29 3 = 4)
    (size : cmdSize v = 3) : (s.setPending .memCopy v).Inv :=
  { h with
    pend_skip := fun _ => skip
    pend_selector := fun _ => selector
    fill_size := fun pend => by cases pend
    copy_size := fun _ => size }

theorem State.Inv.freshRun (h : s.Inv) (c : Code) : (s.freshRun c).Inv where
  mem_wf := h.mem_wf
  skip_legal := .inr (.inr (.inl rfl))
  pend_skip := fun _ => rfl
  pend_selector := fun pend => absurd rfl pend
  fill_size := fun pend => by cases pend
  copy_size := fun pend => by cases pend
  idx_le := Nat.zero_le _
  failure_named := fun _ _ failed => by cases failed

/-! ## The step of a run -/

theorem skipLegal_zero : SkipLegal 0 := .inr (.inr (.inl rfl))

theorem skipLegal_onFalseSkip (o : OnFalse) : SkipLegal (onFalseSkip o) := by
  cases o <;> simp [SkipLegal, onFalseSkip]

/-- Counting down from a legal positive SKIP ends at 0 through 1. -/
theorem skipLegal_sub_one (legal : SkipLegal v) (positive : 0 < v.toInt) : SkipLegal (v - 1) := by
  rcases legal with rfl | rfl | rfl | rfl | rfl
  · exact absurd positive (by decide)
  · exact absurd positive (by decide)
  · exact absurd positive (by decide)
  · exact .inr (.inr (.inl rfl))
  · exact .inr (.inr (.inr (.inl rfl)))

theorem State.Inv.skip_zero_of_not_skipped (h : s.Inv)
    (notSkipped : ¬ 0 < s.skip.toInt ∧ s.skip ≠ skipAll ∧ s.skip ≠ skipUntilEndif) :
    s.skip = 0 := by
  obtain ⟨notPositive, notAll, notMarker⟩ := notSkipped
  rcases h.skip_legal with all | marker | zero | one | two
  · exact absurd all notAll
  · exact absurd marker notMarker
  · exact zero
  · exact absurd (by rw [one]; decide) notPositive
  · exact absurd (by rw [two]; decide) notPositive

theorem pend_fillSlide_of_context (hc : i.context = pendContext s.pend)
    (hf : i.context = .fillSlide) : s.pend = .fillSlide := by
  rw [hf] at hc
  cases hp : s.pend with
  | fillSlide => rfl
  | none => rw [hp] at hc; cases hc
  | memCopy => rw [hp] at hc; cases hc

/-- An instruction executed in the context of PEND, whose entry stands before IDX, keeps the
invariant. -/
theorem State.Inv.effect (h : s.Inv) (skip : s.skip = 0) (hc : i.context = pendContext s.pend)
    (named : s.code.ops[s.idx - 1]? = some (encode i)) (effect : Effect i s t) : t.Inv := by
  cases effect with
  | znorm low hi => exact h
  | success low hi => exact h.setSuccess
  | failure k v raised => exact h.setFailure raised.ne_invalidSize named
  | endif hi => exact h.setSkip skipLegal_zero fun _ => rfl
  | compareTrue hi => exact h
  | compareFalse o hi ho =>
    exact h.setSkip (skipLegal_onFalseSkip o) fun pend =>
      absurd (pend_none_of_dispatch hc (context_of_isConditional hi)) pend
  | fillSlide hi hz hs => exact h.setFillSlide skip hz hs
  | memCopy hi hz hs => exact h.setMemCopy skip hz hs
  | store m hw hn hm => exact h.setMem (hm h.mem_wf)
  | floatAdd g d m n hi hm => exact (h.setNanDraws n).setMem (hm h.mem_wf)
  | composite m hf hm => exact h.clearPend.setMem (hm h.mem_wf)
  | badSize hf hs => exact absurd hs (h.fill_size (pend_fillSlide_of_context hc hf))
  | badCount hf => exact h.clearPend.setFailure (by simp) named

theorem State.Inv.entryEffect (h : s.Inv) (named : s.code.ops[s.idx - 1]? = some e)
    (effect : EntryEffect e s t) : t.Inv := by
  cases effect with
  | counted positive =>
    refine h.setSkip (skipLegal_sub_one h.skip_legal positive) fun pend => ?_
    rw [h.pend_skip pend] at positive
    exact absurd positive (by decide)
  | all _ => exact h.setSuccess
  | passed _ => exact h
  | marker _ => exact h.setSkip skipLegal_zero fun _ => rfl
  | executed t i notSkipped he hc effect =>
    exact h.effect (h.skip_zero_of_not_skipped notSkipped) hc (he ▸ named) effect

theorem State.Inv.runningStep (h : s.Inv) (running : s.Running) (hstep : step s = .next t) :
    t.Inv := by
  obtain ⟨-, rfl⟩ | ⟨e, entry, effect⟩ := running.step_cases hstep
  · exact h.setSuccess
  · obtain ⟨room, -⟩ := List.getElem?_eq_some_iff.mp entry
    exact (h.advance room).entryEffect entry effect

/-! ## The steps of the host -/

theorem State.Inv.nextCode (h : s.Inv) (todo survivors : List Code) :
    (nextCode todo survivors s).Inv := by
  cases todo with
  | nil => exact { h.freshRun Code.empty with }
  | cons c rest => exact { h.freshRun c with }

theorem State.Inv.retireRun (h : s.Inv) (todo survivors : List Code) :
    (retireRun todo survivors s).Inv := by
  have logged : s.logRun.Inv := { h with }
  rw [Machine.retireRun]
  split
  · exact State.Inv.nextCode (s := s.logRun.emitReport _ _) { logged with } _ _
  · exact logged.nextCode _ _
  · exact h

theorem State.Inv.hostOp (h : s.Inv) (op : HostOp) : (hostOp op s).Inv := by
  cases op with
  | applyCodes l => rw [Machine.hostOp, applyCodes]; split <;> exact { h with }
  | addCode c => rw [Machine.hostOp, addCode]; split <;> exact { h with }
  | runAllActive =>
    rw [Machine.hostOp, runAllActive]
    split
    · exact h.nextCode _ _
    · exact h
  | setCheatsEnabled on => exact { h with }
  | enableSelfLogging on => rw [Machine.hostOp, enableSelfLogging]; split <;> exact { h with }
  | getSelfLog => exact h
  | clearSelfLog => rw [Machine.hostOp, clearSelfLog]; split <;> exact { h with }
  | guestWrite a b => exact h.setMem (Memory.set_wf a b h.mem_wf)

theorem State.Inv.hostStep (h : s.Inv) : (hostStep s).Inv := by
  rw [Machine.hostStep]
  split
  · exact h
  · rename_i op rest _
    have taken : State.Inv { s with inputs := rest } := { h with }
    exact taken.hostOp op

/-- Where a step comes from: the host between passes, a run taking entries, or the hand-over of a
run that has ended. -/
theorem step_cases (h : step s = .next t) :
    (s.phase = .idle ∧ t = hostStep s) ∨ s.Running ∨
      ∃ todo survivors, s.phase = .inPass todo survivors ∧ s.result ≠ .running ∧
        t = retireRun todo survivors s := by
  cases phase : s.phase with
  | idle =>
    simp only [step, phase] at h
    cases h; exact .inl ⟨rfl, rfl⟩
  | inPass todo survivors =>
    by_cases running : s.result = .running
    · exact .inr (.inl ⟨⟨todo, survivors, phase⟩, running⟩)
    · refine .inr (.inr ⟨todo, survivors, rfl, running, ?_⟩)
      simp only [step, phase, passStep] at h
      split at h
      · exact absurd ‹_› running
      · cases h; rfl
      · cases h; rfl

/-- Settles O49: each kind of step keeps it. -/
theorem stepKeepsTheInvariant : Obligations.StepKeepsTheInvariant := by
  intro s t h hstep
  obtain ⟨-, rfl⟩ | running | ⟨todo, survivors, -, -, rfl⟩ := step_cases hstep
  · exact h.hostStep
  · exact h.runningStep running hstep
  · exact h.retireRun todo survivors

/-- Settles O2: after reset nothing is listed, skipped, pending or failed, and no pass runs. -/
theorem resetMeetsTheInvariants : Obligations.ResetMeetsTheInvariants := by
  refine ⟨?_, fun todo survivors phase => by cases phase⟩
  exact {
    mem_wf := rfl
    skip_legal := skipLegal_zero
    pend_skip := fun _ => rfl
    pend_selector := fun pend => absurd rfl pend
    fill_size := fun pend => by cases pend
    copy_size := fun pend => by cases pend
    idx_le := Nat.le_refl 0
    failure_named := fun _ _ failed => by cases failed }

/-- Settles O1: the fields of the reset state. -/
theorem resetIsTheStateAfterProcessStart : Obligations.ResetIsTheStateAfterProcessStart :=
  ⟨rfl, rfl, rfl, rfl, rfl, rfl, rfl, rfl, rfl, rfl, rfl⟩

end Sys2Proof.Machine
end

section
/-! PROOFS. The memory port (20_memory.md R51 to R55): what loads and stores answer, where an
instruction can fault, and that memory changes by accessible writes alone. -/

namespace Sys2Proof.Machine

variable {s t : State} {i : Instr} {cfg : Config} {m m' : Memory} {a v x : Word} {w : Width}

/-! ## Loads and stores -/

theorem accessible_iff {n : Nat} : accessible cfg a n = true ↔
    (0x80000000 ≤ a.toNat ∧ a.toNat + n ≤ cfg.ramEnd.toNat) ∨ cfg.oowPolicy = .flat := by
  simp [accessible, inWindow]

/-- The bytes of a half-word that is zero-extended. -/
theorem extract_half (p q : Byte) :
    ((p ++ q).setWidth 32 : Word).extractLsb' 8 8 = p ∧
    ((p ++ q).setWidth 32 : Word).extractLsb' 0 8 = q := by
  rw [BitVec.extractLsb'_setWidth_of_le (by decide), BitVec.extractLsb'_setWidth_of_le (by decide)]
  exact ⟨BitVec.extractLsb'_append_eq_left, BitVec.extractLsb'_append_eq_right⟩

/-- The bytes of a word. -/
theorem extract_word (p q r u : Byte) :
    (p ++ q ++ r ++ u : Word).extractLsb' 24 8 = p ∧
    (p ++ q ++ r ++ u : Word).extractLsb' 16 8 = q ∧
    (p ++ q ++ r ++ u : Word).extractLsb' 8 8 = r ∧
    (p ++ q ++ r ++ u : Word).extractLsb' 0 8 = u := by
  refine ⟨?_, ?_, ?_, BitVec.extractLsb'_append_eq_right⟩
  · rw [BitVec.extractLsb'_append_eq_of_le (by decide),
      BitVec.extractLsb'_append_eq_of_le (by decide), BitVec.extractLsb'_append_eq_left]
  · rw [BitVec.extractLsb'_append_eq_of_le (by decide),
      BitVec.extractLsb'_append_eq_of_le (by decide), BitVec.extractLsb'_append_eq_right]
  · rw [BitVec.extractLsb'_append_eq_of_le (by decide), BitVec.extractLsb'_append_eq_right]

/-- A half-word load is its two bytes, the one at the lower address first. -/
theorem loadBE_half (m : Memory) (a : Word) :
    loadBE m a 2 = (Memory.byteAt m a ++ Memory.byteAt m (a + 1)).setWidth 32 := by
  obtain ⟨high, low⟩ := extract_half (Memory.byteAt m a) (Memory.byteAt m (a + 1))
  have holds : Holds m a .half ((Memory.byteAt m a ++ Memory.byteAt m (a + 1)).setWidth 32) := by
    intro k hk
    match k, hk with
    | 0, _ => rw [BitVec.add_zero]; exact high.symm
    | 1, _ => exact low.symm
  refine (loadBE_of_holds holds).trans (BitVec.eq_of_toNat_eq ?_)
  have := (Memory.byteAt m a ++ Memory.byteAt m (a + 1)).isLt
  rw [maskTo_toNat, BitVec.toNat_setWidth]
  simp only [Width.bytes]
  omega

/-- A word load is its four bytes, the one at the lowest address first. -/
theorem loadBE_word (m : Memory) (a : Word) :
    loadBE m a 4 = Memory.byteAt m a ++ Memory.byteAt m (a + 1) ++ Memory.byteAt m (a + 2) ++
      Memory.byteAt m (a + 3) := by
  obtain ⟨byte0, byte1, byte2, byte3⟩ := extract_word (Memory.byteAt m a)
    (Memory.byteAt m (a + 1)) (Memory.byteAt m (a + 2)) (Memory.byteAt m (a + 3))
  refine loadBE_of_holds (w := .word) fun k hk => ?_
  match k, hk with
  | 0, _ => rw [BitVec.add_zero]; exact byte0.symm
  | 1, _ => exact byte1.symm
  | 2, _ => exact byte2.symm
  | 3, _ => exact byte3.symm

/-- Settles O9: the load of each width, byte by byte. -/
theorem loadsAreBigEndian : Obligations.LoadsAreBigEndian := by
  refine fun cfg m a w => ⟨accessible_iff, fun ha => memRead_eq_error.mpr ⟨ha, rfl⟩, fun ha => ?_⟩
  rw [memRead_of_accessible ha]
  cases w with
  | byte => exact congrArg _ (loadBE_byte m a)
  | half => exact congrArg _ (loadBE_half m a)
  | word => exact congrArg _ (loadBE_word m a)

/-- Settles O10: the store of each width, byte by byte. -/
theorem storesAreBigEndian : Obligations.StoresAreBigEndian :=
  fun _ _ _ _ _ hm => ⟨fun ha => memWrite_eq_error.mpr ⟨ha, rfl⟩, fun ha =>
    have written := memWrite_of_accessible ha
    ⟨_, written, memWrite_spec written hm⟩⟩

/-- Settles O11: the bytes written hold the value, and bytes that hold it read back as it. -/
theorem loadAfterStoreReadsTheValue : Obligations.LoadAfterStoreReadsTheValue := by
  intro cfg m m' a v w hm written
  obtain ⟨-, holds, frame⟩ := memWrite_spec written hm
  refine ⟨?_, maskTo_toNat w v, fun x hx => ?_⟩
  · rw [memRead_of_accessible (memWrite_eq_ok.mp written).1, loadBE_of_holds holds]
  · rw [loadBE_byte, loadBE_byte, frame x hx]

/-! ## Faults -/

/-- The fault of an access that has no meaning under `cfg`. -/
def IsBadAccess (cfg : Config) (f : Fault) : Prop :=
  ∃ (a : Word) (m : Memory) (w : Width), f = .outOfWindow a m ∧ accessible cfg a w.bytes = false

variable {f : Fault}

theorem isBadAccess_of_memRead (h : memRead cfg m a w = .error f) : IsBadAccess cfg f :=
  have ⟨ha, hf⟩ := memRead_eq_error.mp h
  ⟨a, m, w, hf, ha⟩

theorem isBadAccess_of_memWrite (h : memWrite cfg m a w v = .error f) : IsBadAccess cfg f :=
  have ⟨ha, hf⟩ := memWrite_eq_error.mp h
  ⟨a, m, w, hf, ha⟩

theorem isBadAccess_of_slide {n : Nat} {cur dcur val dval : Word}
    (h : slide cfg w dcur dval n cur val m = .error f) : IsBadAccess cfg f :=
  have ⟨_, m1, _, _, ha, hf⟩ := slide_error h
  ⟨_, m1, w, hf, ha⟩

theorem isBadAccess_of_copyBytes {n : Nat} {src dest : Word}
    (h : copyBytes cfg n src dest m = .error f) : IsBadAccess cfg f :=
  have ⟨x, m1, ha, hf⟩ := copyBytes_error h
  ⟨x, m1, .byte, hf, ha⟩

theorem isBadAccess_of_pointerWrite {e off : Word} (h : pointerWrite w e off v s = .fault f) :
    IsBadAccess s.cfg f := by
  rw [pointerWrite] at h
  split at h
  · cases h; exact isBadAccess_of_memRead ‹_›
  · exact isBadAccess_of_memWrite (putMem_eq_fault.mp h)

theorem isBadAccess_of_addInPlace {e d : Word} (h : addInPlace w e d s = .fault f) :
    IsBadAccess s.cfg f := by
  rw [addInPlace] at h
  split at h
  · cases h; exact isBadAccess_of_memRead ‹_›
  · exact isBadAccess_of_memWrite (putMem_eq_fault.mp h)

theorem isBadAccess_of_conditional {cmp : Config → Width → Word → Word → Bool} {o : OnFalse}
    {z : Size} {e d : Word} (h : conditional cmp o z e d s = .fault f) : IsBadAccess s.cfg f := by
  rw [conditional] at h
  split at h
  · cases h; exact isBadAccess_of_memRead ‹_›
  · split at h <;> cases h

theorem isBadAccess_of_memoryCopy {p : Bool} {dest src : Word} {n : Nat}
    (h : memoryCopy p dest src n s = .fault f) : IsBadAccess s.cfg f := by
  rw [memoryCopy] at h
  split at h
  · split at h
    · cases h; exact isBadAccess_of_memRead ‹_›
    · split at h
      · cases h; exact isBadAccess_of_memRead ‹_›
      · exact isBadAccess_of_copyBytes (putMem_eq_fault.mp h)
  · exact isBadAccess_of_copyBytes (putMem_eq_fault.mp h)

theorem isBadAccess_of_fillAndSlide {val : Word} {vi wn : Byte} {ai : BitVec 16}
    (h : fillAndSlide val vi wn ai s = .fault f) : IsBadAccess s.cfg f := by
  rw [fillAndSlide] at h
  split at h
  case h_4 => cases h
  all_goals exact isBadAccess_of_slide (putMem_eq_fault.mp h)

/-- An instruction that faults met an access that has no meaning. -/
theorem isBadAccess_of_exec (h : exec i s = .fault f) : IsBadAccess s.cfg f := by
  cases i
  case wr8 | wr16 => exact isBadAccess_of_slide (putMem_eq_fault.mp h)
  case wr32 | wrf32 => exact isBadAccess_of_memWrite (putMem_eq_fault.mp h)
  case pwr8 | pwr16 | pwr32 | pwrf32 => exact isBadAccess_of_pointerWrite h
  case add8 | add16 | add32 => exact isBadAccess_of_addInPlace h
  case addf32 =>
    rw [exec, execAddf32] at h
    split at h
    · cases h; exact isBadAccess_of_memRead ‹_›
    · exact isBadAccess_of_memWrite (cfg := s.cfg) (putMem_eq_fault.mp h)
  case ceq | cne | clts | cgts | cltu | cgtu | cand => exact isBadAccess_of_conditional h
  case fsdata => exact isBadAccess_of_fillAndSlide (s := s.clearPend) h
  case mcdata =>
    rw [exec, execMcdata] at h
    split at h
    · cases h
    · exact isBadAccess_of_memoryCopy (s := s.clearPend) h
  all_goals cases h

/-- Settles O12: an access without a meaning leaves the window under model_fault. -/
theorem faultsAreOutOfWindowAccesses : Obligations.FaultsAreOutOfWindowAccesses := by
  intro i s f h
  obtain ⟨a, m, w, rfl, ha⟩ := isBadAccess_of_exec h
  obtain ⟨outside, policy⟩ := accessible_eq_false_iff.mp ha
  refine ⟨policy, a, m, w.bytes, rfl, ?_, outside⟩
  cases w <;> simp [Width.bytes]

theorem fillAndSlide_ne_refused {val : Word} {vi wn : Byte} {ai : BitVec 16} {q : Refusal} :
    fillAndSlide val vi wn ai s ≠ .refused q := by
  rw [fillAndSlide]
  split
  case h_4 => simp [raiseFailure]
  all_goals exact putMem_ne_refused

theorem exec_ne_refused (i : Instr) (s : State) (q : Refusal) : exec i s ≠ .refused q := by
  cases i
  case wr8 | wr16 | wr32 | wrf32 => exact putMem_ne_refused
  case pwr8 | pwr16 | pwr32 | pwrf32 => exact pointerWrite_ne_refused
  case add8 | add16 | add32 => exact addInPlace_ne_refused
  case addf32 =>
    rw [exec, execAddf32]
    split
    · simp
    · exact putMem_ne_refused
  case ceq | cne | clts | cgts | cltu | cgtu | cand => exact conditional_ne_refused
  case fsdata => exact fillAndSlide_ne_refused
  case mcdata =>
    rw [exec, execMcdata]
    split
    · simp [raiseFailure]
    · exact memoryCopy_ne_refused
  all_goals exact nofun

/-- Settles O13: under flat every access has a meaning, and an access is all that can fault. -/
theorem everyInstructionRunsUnderFlat : Obligations.EveryInstructionRunsUnderFlat := by
  refine ⟨exec_ne_refused, fun i s flat => ?_⟩
  cases h : exec i s with
  | next t => exact ⟨t, rfl⟩
  | fault f =>
    obtain ⟨a, m, w, -, ha⟩ := isBadAccess_of_exec h
    rw [accessible_of_flat flat] at ha
    cases ha
  | refused q => exact absurd h (exec_ne_refused i s q)

/-! ## Memory changes by writes alone -/

/-- One accessible write. -/
def IsWrite (cfg : Config) (m m' : Memory) : Prop :=
  ∃ a w v, memWrite cfg m a w v = .ok m'

/-- Accessible writes, one after the other. -/
def IsWrites (cfg : Config) : Memory → Memory → Prop := Relation.ReflTransGen (IsWrite cfg)

theorem isWrites_of_memWrite (h : memWrite cfg m a w v = .ok m') : IsWrites cfg m m' :=
  .single ⟨a, w, v, h⟩

theorem isWrites_of_slide {n : Nat} {cur dcur val dval : Word}
    (h : slide cfg w dcur dval n cur val m = .ok m') : IsWrites cfg m m' := by
  induction n generalizing cur val m with
  | zero => cases h; exact .refl
  | succ n ih =>
    rw [slide] at h
    split at h
    · exact (ih h).head ⟨_, _, _, ‹_›⟩
    · cases h

theorem isWrites_of_copyBytes {n : Nat} {src dest : Word}
    (h : copyBytes cfg n src dest m = .ok m') : IsWrites cfg m m' := by
  induction n generalizing src dest m with
  | zero => cases h; exact .refl
  | succ n ih =>
    rw [copyBytes] at h
    split at h
    · cases h
    · split at h
      · cases h
      · exact (ih h).head ⟨_, _, _, ‹_›⟩

theorem isWrites_of_pointerWrite {e off : Word} (h : pointerWrite w e off v s = .next t) :
    IsWrites s.cfg s.mem t.mem := by
  obtain ⟨-, m, written, rfl⟩ := pointerWrite_eq_next.mp h
  exact isWrites_of_memWrite written

theorem isWrites_of_addInPlace {e d : Word} (h : addInPlace w e d s = .next t) :
    IsWrites s.cfg s.mem t.mem := by
  obtain ⟨m, written, rfl⟩ := addInPlace_eq_next.mp h
  exact isWrites_of_memWrite written

theorem isWrites_of_fillAndSlide {val : Word} {vi wn : Byte} {ai : BitVec 16}
    (h : fillAndSlide val vi wn ai s = .next t) : IsWrites s.cfg s.mem t.mem := by
  rw [fillAndSlide] at h
  split at h
  case h_4 => cases h; exact .refl
  all_goals
    obtain ⟨m, run, rfl⟩ := putMem_eq_next.mp h
    exact isWrites_of_slide run

/-- Whatever an instruction does to memory is accessible writes. -/
theorem isWrites_of_exec (h : exec i s = .next t) : IsWrites s.cfg s.mem t.mem := by
  cases i
  case wr8 | wr16 =>
    obtain ⟨m, run, rfl⟩ := putMem_eq_next.mp h
    exact isWrites_of_slide run
  case wr32 | wrf32 =>
    obtain ⟨m, run, rfl⟩ := putMem_eq_next.mp h
    exact isWrites_of_memWrite run
  case pwr8 | pwr16 | pwr32 | pwrf32 => exact isWrites_of_pointerWrite h
  case add8 | add16 | add32 => exact isWrites_of_addInPlace h
  case addf32 =>
    rw [exec, execAddf32] at h
    split at h
    · cases h
    · obtain ⟨m, run, rfl⟩ := putMem_eq_next.mp h
      exact isWrites_of_memWrite run
  case fsdata => exact isWrites_of_fillAndSlide (s := s.clearPend) h
  case mcdata =>
    rw [exec, execMcdata] at h
    split at h
    · cases h; exact .refl
    · obtain ⟨-, m, run, rfl⟩ := memoryCopy_eq_next.mp h
      exact isWrites_of_copyBytes run
  all_goals
    rw [(exec_effect h).mem_eq.resolve_right Bool.false_ne_true]
    exact .refl

/-- A byte of an access inside the window is inside the window. -/
theorem inWindow_of_inBytes {n : Nat} (h : inWindow cfg a n = true) (hx : InBytes a n x) :
    inWindow cfg x 1 = true := by
  obtain ⟨k, hk, rfl⟩ := hx
  simp only [inWindow, Bool.and_eq_true, decide_eq_true_eq] at h ⊢
  have := cfg.ramEnd.isLt
  have value : (a + BitVec.ofNat 32 k).toNat = a.toNat + k := by
    rw [BitVec.toNat_add, BitVec.toNat_ofNat]
    omega
  omega

/-- Under model_fault, writes keep memory's form and every byte outside the window. -/
theorem IsWrites.outside (h : IsWrites cfg m m') (policy : cfg.oowPolicy = .modelFault)
    (hm : Memory.wf m = true) : Memory.wf m' = true ∧
      ∀ x, inWindow cfg x 1 = false → Memory.byteAt m' x = Memory.byteAt m x := by
  induction h with
  | refl => exact ⟨hm, fun _ _ => rfl⟩
  | tail _ last ih =>
    obtain ⟨a, w, v, written⟩ := last
    obtain ⟨wf, same⟩ := ih
    obtain ⟨wf', -, frame⟩ := memWrite_spec written wf
    refine ⟨wf', fun x outside => (frame x fun hx => ?_).trans (same x outside)⟩
    have window : inWindow cfg a w.bytes = true := by
      simpa [accessible, policy] using (memWrite_eq_ok.mp written).1
    rw [inWindow_of_inBytes window hx] at outside
    cases outside

theorem isWrites_of_runEntry {c : Context} {e : Entry} (h : runEntry c e s = .next t) :
    IsWrites s.cfg s.mem t.mem := by
  rw [runEntry] at h
  split at h
  · exact isWrites_of_exec h
  · cases h; exact .refl

theorem isWrites_of_entryStep {e : Entry} (h : entryStep e s = .next t) :
    IsWrites s.cfg s.mem t.mem := by
  rw [entryStep] at h
  split_ifs at h
  · cases h; exact .refl
  · cases h; exact .refl
  · exact isWrites_of_runEntry h
  · exact isWrites_of_runEntry h

/-- Settles O14: a step of a run changes memory by writes inside the window alone. -/
theorem outOfWindowBytesNeverChange : Obligations.OutOfWindowBytesNeverChange := by
  intro s t running hm policy h
  suffices writes : IsWrites s.cfg s.mem t.mem from (writes.outside policy hm).2
  cases entry : s.entryAt with
  | none =>
    rw [running.step_of_listEnd entry] at h
    cases h; exact .refl
  | some e =>
    rw [running.step_of_entryAt entry] at h
    exact isWrites_of_entryStep (s := s.advance) h

end Sys2Proof.Machine
end

section
/-! PROOFS. The host around the runs (60_exceptions.md R270 to R277): host operations, the hand-over
of a finished run, the order of a pass and its end. -/

namespace Sys2Proof.Machine

variable {s t : State}

/-! ## Host operations -/

/-- Between passes the step performs the next operation of the tape. -/
theorem step_of_input {op : HostOp} {rest : List HostOp} (idle : s.phase = .idle)
    (tape : s.inputs = op :: rest) : step s = .next (hostOp op { s with inputs := rest }) := by
  simp only [step, idle, hostStep, tape]

/-- Settles O55: with the gate open the call starts the first code, or ends the pass at once. -/
theorem tickStartsTheFirstActiveCode : Obligations.TickStartsTheFirstActiveCode := by
  intro s rest idle tape gate
  have called : step s = .next (nextCode s.active [] { s with inputs := rest }) := by
    rw [step_of_input idle tape, hostOp, runAllActive, if_pos gate]
  refine ⟨fun c cs active => ?_, fun active => ?_⟩
  · rw [called, active]
    rfl
  · rw [active] at called
    exact ⟨_, called, rfl, rfl, rfl, rfl, rfl⟩

/-- Settles O56: each of the five looks at the gate first. -/
theorem closedGateStopsTheHost : Obligations.ClosedGateStopsTheHost := by
  intro s op rest idle tape gate gated
  have closed : ¬ s.cheatsEnabled = true := by rw [gate]; decide
  rw [step_of_input idle tape]
  rcases gated with rfl | ⟨l, rfl⟩ | ⟨c, rfl⟩ | ⟨b, rfl⟩ | rfl
  · rw [hostOp, runAllActive, if_neg closed]
  · rw [hostOp, applyCodes, if_neg closed]
  · rw [hostOp, addCode, gate, Bool.false_and, if_neg Bool.false_ne_true]
  · rw [hostOp, enableSelfLogging, if_neg closed]
  · rw [hostOp, clearSelfLog, if_neg closed]

/-- Settles O57: a filter keeps the order and counts what it keeps. -/
theorem applyCodesReplacesTheActiveSet : Obligations.ApplyCodesReplacesTheActiveSet := by
  intro s l rest idle tape gate
  refine ⟨l.filter (·.active), ?_, List.filter_sublist, List.countP_eq_length_filter.symm,
    fun c hc => (List.mem_filter.mp hc).2⟩
  rw [step_of_input idle tape, hostOp, applyCodes, if_pos gate]

/-- Settles O58: the gate and the code's own flag are looked at together. -/
theorem addCodeAppendsAnActiveCode : Obligations.AddCodeAppendsAnActiveCode := by
  intro s c rest idle tape
  rw [step_of_input idle tape, hostOp, addCode]
  refine ⟨fun gate active => ?_, fun closed => ?_⟩
  · rw [if_pos (Bool.and_eq_true_iff.mpr ⟨gate, active⟩)]
  · have off : (s.cheatsEnabled && c.active) = false :=
      Bool.and_eq_false_iff.mpr closed
    rw [if_neg (by rw [off]; decide)]

/-- Settles O59: a guest write is the write of one byte. -/
theorem guestWritesOneByte : Obligations.GuestWritesOneByte := by
  intro s a b rest idle tape hm
  refine ⟨Memory.set s.mem a.toNat b, step_of_input idle tape, Memory.set_wf a b hm, ?_,
    fun x hx => ?_⟩
  · rw [Memory.byteAt_set a b a hm, if_pos rfl]
  · rw [Memory.byteAt_set a b x hm, if_neg hx]

/-! ## The hand-over of a finished run -/

section HandOver

variable {todo survivors : List Code}

theorem step_of_ended (phase : s.phase = .inPass todo survivors) (ended : s.result ≠ .running) :
    step s = .next (retireRun todo survivors s) := by
  simp only [step, phase, passStep]
  split
  · exact absurd ‹_› ended
  · rfl
  · rfl

theorem retireRun_of_success (h : s.result = .success) :
    retireRun todo survivors s = nextCode todo (survivors ++ [s.code]) s.logRun := by
  rw [retireRun, h]

theorem retireRun_of_failure {k : FailKind} {info : FailInfo} (h : s.result = .failure k info) :
    retireRun todo survivors s = nextCode todo survivors (s.logRun.emitReport k info) := by
  rw [retireRun, h]

theorem nextCode_mem (todo survivors : List Code) (s : State) :
    (nextCode todo survivors s).mem = s.mem := by
  cases todo <;> rfl

theorem retireRun_mem (todo survivors : List Code) (s : State) :
    (retireRun todo survivors s).mem = s.mem := by
  rw [retireRun]
  split
  · exact nextCode_mem _ _ _
  · exact nextCode_mem _ _ _
  · rfl

/-- A run that reads the flag as it has been since reset, off, adds no line. -/
theorem State.logLines_eq_nil (off : s.useInternalLog = false) (still : s.logFlagMoved = false) :
    s.logLines = [] :=
  State.logLines_of_read_off ((State.readLogFlag_of_not_moved still).trans off)

end HandOver

/-- Settles O53: success and failure differ in the survivors and the report alone. -/
theorem finishedRunsHandOverToTheNextCode : Obligations.FinishedRunsHandOverToTheNextCode := by
  intro s c rest survivors phase ended
  have handOver := step_of_ended phase ended
  cases result : s.result with
  | running => exact absurd result ended
  | success =>
    rw [retireRun_of_success result] at handOver
    exact ⟨_, handOver, rfl, rfl, rfl, rfl, rfl, rfl, rfl, rfl, rfl, rfl,
      ⟨s.logLines, rfl, State.logLines_eq_nil⟩, fun _ => ⟨rfl, rfl⟩,
      fun _ _ failed => by cases failed⟩
  | failure k info =>
    rw [retireRun_of_failure result] at handOver
    exact ⟨_, handOver, rfl, rfl, rfl, rfl, rfl, rfl, rfl, rfl, rfl, rfl,
      ⟨s.logLines, rfl, State.logLines_eq_nil⟩, fun succeeded => (by cases succeeded),
      fun _ _ failed => by cases failed; exact ⟨rfl, rfl⟩⟩

/-- Settles O54: with no code left the hand-over ends the pass. -/
theorem passEndKeepsTheSurvivors : Obligations.PassEndKeepsTheSurvivors := by
  intro s survivors phase ended
  have handOver := step_of_ended phase ended
  cases result : s.result with
  | running => exact absurd result ended
  | success =>
    rw [retireRun_of_success result] at handOver
    exact ⟨_, handOver, rfl, rfl, rfl, rfl, rfl, ⟨s.logLines, rfl, State.logLines_eq_nil⟩,
      fun _ => ⟨rfl, rfl⟩, fun _ _ failed => by cases failed⟩
  | failure k info =>
    rw [retireRun_of_failure result] at handOver
    exact ⟨_, handOver, rfl, rfl, rfl, rfl, rfl, ⟨s.logLines, rfl, State.logLines_eq_nil⟩,
      fun succeeded => (by cases succeeded), fun _ _ failed => by cases failed; exact ⟨rfl, rfl⟩⟩

/-- A run that has just succeeded is handed over next, with memory as it is. -/
theorem mem_of_run_two {u : State} (running : s.Running) (first : step s = .next t)
    (phase : t.phase = s.phase) (success : t.result = .success)
    (h : Host.Core.run Sys2Proof.core 2 s = .next u) : u.mem = t.mem := by
  obtain ⟨⟨todo, survivors, inPass⟩, -⟩ := running
  have second := step_of_ended (phase.trans inPass) (by rw [success]; exact nofun)
  have both := (run_succ_of_step (n := 1) first).trans (run_one_of_step second)
  have : u = retireRun todo survivors t := by
    have := h.symm.trans both
    injection this
  rw [this, retireRun_mem]

/-- Settles O17: the entry only ends the run, and the hand-over leaves memory alone. -/
theorem skipAllEndsTheRun : Obligations.SkipAllEndsTheRun := by
  intro s running skip
  have atEntry (e : Entry) (entry : s.entryAt = some e) :
      step s = .next (s.advance.setResult .success) := by
    rw [running.step_of_entryAt entry, entryStep_of_skipAll (s := s.advance) skip]
    rfl
  refine ⟨atEntry, running.step_of_listEnd, fun t h => ?_⟩
  cases entry : s.entryAt with
  | none =>
    exact mem_of_run_two (t := s.setResult .success) running (running.step_of_listEnd entry) rfl
      rfl h
  | some e =>
    exact mem_of_run_two (t := s.advance.setResult .success) running (atEntry e entry) rfl rfl h

/-! ## The order of a pass -/

section Order

variable {todo survivors done : List Code}

/-- The pass goes on in order where the codes not yet run are the end of ACTIVE. -/
theorem nextCode_passInv (active : s.active = done ++ todo) (kept : survivors.Sublist done) :
    (nextCode todo survivors s).PassInv := by
  intro todo' survivors' phase
  cases todo with
  | nil => cases phase
  | cons c rest => cases phase; exact ⟨done, active, kept⟩

theorem nextCode_active_sublist (active : s.active = done ++ todo)
    (kept : survivors.Sublist done) (ended : (nextCode todo survivors s).phase = .idle) :
    (nextCode todo survivors s).active.Sublist s.active := by
  cases todo with
  | nil => rw [active, List.append_nil]; exact kept
  | cons c rest => cases ended

theorem State.PassInv.of_idle (idle : s.phase = .idle) : s.PassInv := fun _ _ phase => by
  rw [idle] at phase
  cases phase

theorem hostOp_passInv (op : HostOp) (idle : s.phase = .idle) : (hostOp op s).PassInv := by
  cases op with
  | runAllActive =>
    rw [hostOp, runAllActive]
    split
    · exact nextCode_passInv (done := []) rfl (List.Sublist.refl [])
    · exact .of_idle idle
  | applyCodes l => rw [hostOp, applyCodes]; split <;> exact .of_idle idle
  | addCode c => rw [hostOp, addCode]; split <;> exact .of_idle idle
  | enableSelfLogging on => rw [hostOp, enableSelfLogging]; split <;> exact .of_idle idle
  | clearSelfLog => rw [hostOp, clearSelfLog]; split <;> exact .of_idle idle
  | setCheatsEnabled on => exact .of_idle idle
  | getSelfLog => exact .of_idle idle
  | guestWrite a b => exact .of_idle idle

theorem hostStep_passInv (idle : s.phase = .idle) : (hostStep s).PassInv := by
  rw [hostStep]
  split
  · exact .of_idle idle
  · exact hostOp_passInv _ idle

/-- The hand-over of a finished run moves its code to those already run. -/
theorem retireRun_order (h : s.PassInv) (phase : s.phase = .inPass todo survivors)
    (ended : s.result ≠ .running) :
    (retireRun todo survivors s).PassInv ∧ ((retireRun todo survivors s).phase = .idle →
      (retireRun todo survivors s).active.Sublist s.active) := by
  obtain ⟨done, order, kept⟩ := h todo survivors phase
  have moved : s.active = (done ++ [s.code]) ++ todo := by
    rw [order, List.append_assoc, List.singleton_append]
  cases result : s.result with
  | running => exact absurd result ended
  | success =>
    have keptNow : (survivors ++ [s.code]).Sublist (done ++ [s.code]) :=
      kept.append (List.Sublist.refl _)
    rw [retireRun_of_success result]
    exact ⟨nextCode_passInv (s := s.logRun) moved keptNow,
      nextCode_active_sublist (s := s.logRun) moved keptNow⟩
  | failure k info =>
    have keptNow : survivors.Sublist (done ++ [s.code]) :=
      kept.trans (List.sublist_append_left _ _)
    rw [retireRun_of_failure result]
    exact ⟨nextCode_passInv (s := s.logRun.emitReport k info) moved keptNow,
      nextCode_active_sublist (s := s.logRun.emitReport k info) moved keptNow⟩

end Order

/-- Settles O50: the host starts a pass in order, a run's step leaves it alone, a hand-over moves
one code. -/
theorem passKeepsTheOrderOfSurvivors : Obligations.PassKeepsTheOrderOfSurvivors := by
  intro s t h hstep
  obtain ⟨idle, rfl⟩ | running | ⟨todo, survivors, phase, ended, rfl⟩ := step_cases hstep
  · exact ⟨hostStep_passInv idle, fun busy => absurd idle busy⟩
  · obtain ⟨code, active, phase, -⟩ := runsLeaveTheHostAndTheCodeAlone s t running hstep
    refine ⟨fun todo survivors inPass => ?_, fun busy idle => absurd (phase ▸ idle) busy⟩
    rw [active, code]
    exact h todo survivors (phase ▸ inPass)
  · obtain ⟨order, sublist⟩ := retireRun_order h phase ended
    exact ⟨order, fun _ => sublist⟩

/-! ## Every pass ends -/

/-- Steps that a pass can still take: those of the running code, if it is still running, and its
hand-over, and the same for every code still to run. -/
def stepsLeft (s : State) (todo : List Code) : Nat :=
  (if s.result = .running then s.code.ops.length - s.idx + 2 else 1) +
    (todo.map fun c => c.ops.length + 2).sum

theorem stepsLeft_le_passBound (s : State) (todo : List Code) :
    stepsLeft s todo ≤ passBound s todo := by
  rw [stepsLeft, passBound]
  split <;> omega

theorem stepsLeft_pos (s : State) (todo : List Code) : 0 < stepsLeft s todo := by
  rw [stepsLeft]
  split <;> omega

/-- A step of a run uses up one of them. -/
theorem State.Running.stepsLeft_lt (running : s.Running) (h : step s = .next t) (todo : List Code) :
    stepsLeft t todo < stepsLeft s todo := by
  obtain ⟨code, -, -, -, -, -, -, -, -, -, -, -, idx⟩ :=
    runsLeaveTheHostAndTheCodeAlone s t running h
  rw [stepsLeft, stepsLeft, if_pos running.2, code]
  cases entry : s.entryAt with
  | none =>
    rw [running.step_of_listEnd entry] at h
    cases h
    simp
  | some e =>
    obtain ⟨room, -⟩ := List.getElem?_eq_some_iff.mp entry
    rw [idx, entry, if_neg (Option.some_ne_none e)]
    split <;> omega

/-- A hand-over ends the pass or uses up one of them. -/
theorem retireRun_stepsLeft_lt {todo survivors : List Code} (ended : s.result ≠ .running) :
    (retireRun todo survivors s).phase = .idle ∨ ∃ rest survivors',
      (retireRun todo survivors s).phase = .inPass rest survivors' ∧
      stepsLeft (retireRun todo survivors s) rest < stepsLeft s todo := by
  have next (survivors' : List Code) (s' : State) :
      (nextCode todo survivors' s').phase = .idle ∨ ∃ rest survivors'',
        (nextCode todo survivors' s').phase = .inPass rest survivors'' ∧
        stepsLeft (nextCode todo survivors' s') rest < stepsLeft s todo := by
    cases todo with
    | nil => exact .inl rfl
    | cons c rest =>
      refine .inr ⟨rest, survivors', rfl, ?_⟩
      have fresh : stepsLeft (nextCode (c :: rest) survivors' s') rest =
          c.ops.length + 2 + (rest.map fun c => c.ops.length + 2).sum := rfl
      rw [fresh, stepsLeft, if_neg ended, List.map_cons, List.sum_cons]
      omega
  cases result : s.result with
  | running => exact absurd result ended
  | success => rw [retireRun_of_success result]; exact next _ _
  | failure k info => rw [retireRun_of_failure result]; exact next _ _

theorem entryStep_ne_refused (e : Entry) (s : State) (q : Refusal) :
    entryStep e s ≠ .refused q := by
  have entry (c : Context) : runEntry c e s ≠ .refused q := by
    rw [runEntry]
    split
    · exact exec_ne_refused _ _ _
    · exact nofun
  rw [entryStep]
  split_ifs
  · exact nofun
  · exact nofun
  · exact entry _
  · exact entry _

theorem step_ne_refused (s : State) (q : Refusal) : step s ≠ .refused q := by
  rw [step]
  split
  · exact nofun
  · rw [passStep]
    split
    · rw [runStep]
      split
      · exact nofun
      · exact entryStep_ne_refused _ _ _
    · exact nofun
    · exact nofun

/-- Within `n` steps the machine is out of the pass, or an access faults. -/
def PassEndsWithin (n : Nat) (s : State) : Prop :=
  ∃ m ≤ n, (∃ t : State, Host.Core.run Sys2Proof.core m s = .next t ∧ t.phase = .idle) ∨
    (∃ f : Fault, Host.Core.run Sys2Proof.core m s = .fault f)

theorem PassEndsWithin.of_idle {n : Nat} (idle : s.phase = .idle) : PassEndsWithin n s :=
  ⟨0, Nat.zero_le n, .inl ⟨s, rfl, idle⟩⟩

theorem PassEndsWithin.of_step {n : Nat} (h : step s = .next t) (rest : PassEndsWithin n t) :
    PassEndsWithin (n + 1) s := by
  obtain ⟨m, hm, ends⟩ := rest
  refine ⟨m + 1, Nat.succ_le_succ hm, ?_⟩
  rw [run_succ_of_step h]
  exact ends

theorem PassEndsWithin.of_fault {n : Nat} {f : Fault} (h : step s = .fault f) :
    PassEndsWithin (n + 1) s :=
  ⟨1, Nat.succ_le_succ n.zero_le, .inr ⟨f, run_succ_of_fault (M := Sys2Proof.core) h⟩⟩

/-- A pass ends within the steps left to it, or meets a fault. -/
theorem passEndsWithin_of_stepsLeft_le {n : Nat} {todo survivors : List Code}
    (phase : s.phase = .inPass todo survivors) (bound : stepsLeft s todo ≤ n) :
    PassEndsWithin n s := by
  induction n generalizing s todo survivors with
  | zero => exact absurd (stepsLeft_pos s todo) (by omega)
  | succ n ih =>
    cases hstep : step s with
    | refused q => exact absurd hstep (step_ne_refused s q)
    | fault f => exact .of_fault hstep
    | next t =>
      refine .of_step hstep ?_
      by_cases result : s.result = .running
      · have running : s.Running := ⟨⟨todo, survivors, phase⟩, result⟩
        obtain ⟨-, -, phase', -⟩ := runsLeaveTheHostAndTheCodeAlone s t running hstep
        have := running.stepsLeft_lt hstep todo
        exact ih (phase'.trans phase) (by omega)
      · rw [step_of_ended phase result] at hstep
        cases hstep
        obtain idle | ⟨rest, survivors', phase', less⟩ :=
          retireRun_stepsLeft_lt (s := s) (todo := todo) (survivors := survivors) result
        · exact .of_idle idle
        · exact ih phase' (by omega)

/-- Settles O51: the bound counts at least the steps left. -/
theorem everyPassEnds : Obligations.EveryPassEnds := fun s todo _ phase =>
  passEndsWithin_of_stepsLeft_le phase (stepsLeft_le_passBound s todo)

end Sys2Proof.Machine
end

section
/-! PROOFS. The logging state influences nothing but itself (60_exceptions.md R276): a step commutes
with erasing it. -/

namespace Sys2Proof.Machine

variable {s t : State}

/-- An outcome with the logging state of its next state erased. -/
def eraseOutcome : Out → Out
  | .next t => .next t.eraseLog
  | .fault f => .fault f
  | .refused q => .refused q

/-! ## The shared operations -/

theorem putMem_eraseLog (s : State) (r : Except Fault Memory) :
    putMem s.eraseLog r = eraseOutcome (putMem s r) := by
  cases r <;> rfl

theorem pointerWrite_eraseLog (w : Width) (e off v : Word) (s : State) :
    pointerWrite w e off v s.eraseLog = eraseOutcome (pointerWrite w e off v s) := by
  rw [pointerWrite, pointerWrite, State.eraseLog_cfg, State.eraseLog_mem]
  cases memRead s.cfg s.mem e .word with
  | error f => rfl
  | ok p => exact putMem_eraseLog s _

theorem addInPlace_eraseLog (w : Width) (e d : Word) (s : State) :
    addInPlace w e d s.eraseLog = eraseOutcome (addInPlace w e d s) := by
  rw [addInPlace, addInPlace, State.eraseLog_cfg, State.eraseLog_mem]
  cases memRead s.cfg s.mem e w with
  | error f => rfl
  | ok v => exact putMem_eraseLog s _

theorem conditional_eraseLog (cmp : Config → Width → Word → Word → Bool) (o : OnFalse) (z : Size)
    (e d : Word) (s : State) :
    conditional cmp o z e d s.eraseLog = eraseOutcome (conditional cmp o z e d s) := by
  rw [conditional, conditional, State.eraseLog_cfg, State.eraseLog_mem]
  cases memRead s.cfg s.mem e (sizeWidth z) with
  | error f => rfl
  | ok x =>
    dsimp only
    split <;> rfl

theorem memoryCopy_eraseLog (p : Bool) (dest src : Word) (n : Nat) (s : State) :
    memoryCopy p dest src n s.eraseLog = eraseOutcome (memoryCopy p dest src n s) := by
  rw [memoryCopy, memoryCopy, State.eraseLog_cfg, State.eraseLog_mem]
  cases p with
  | false => exact putMem_eraseLog s _
  | true =>
    simp only [if_true]
    cases memRead s.cfg s.mem dest .word with
    | error f => rfl
    | ok q =>
      cases memRead s.cfg s.mem src .word with
      | error f => rfl
      | ok p => exact putMem_eraseLog s _

theorem fillAndSlide_eraseLog (val : Word) (vi wn : Byte) (ai : BitVec 16) (s : State) :
    fillAndSlide val vi wn ai s.eraseLog = eraseOutcome (fillAndSlide val vi wn ai s) := by
  rw [fillAndSlide, fillAndSlide, State.eraseLog_vlast]
  cases Size.ofBits (cmdSize s.vlast) with
  | f32 => rfl
  | _ => exact putMem_eraseLog s _

/-! ## Instructions -/

/-- No instruction reads the logging state or writes it. -/
theorem exec_eraseLog (i : Instr) (s : State) : exec i s.eraseLog = eraseOutcome (exec i s) := by
  cases i
  case wr8 | wr16 | wr32 | wrf32 => exact putMem_eraseLog s _
  case pwr8 | pwr16 | pwr32 | pwrf32 => exact pointerWrite_eraseLog _ _ _ _ s
  case add8 | add16 | add32 => exact addInPlace_eraseLog _ _ _ s
  case addf32 g d =>
    rw [exec, exec, execAddf32, execAddf32, State.eraseLog_cfg, State.eraseLog_mem,
      State.eraseLog_nanDraws]
    cases memRead s.cfg s.mem (ea g) .word with
    | error f => rfl
    | ok m => exact putMem_eraseLog (s.setNanDraws _) _
  case ceq | cne | clts | cgts | cltu | cgtu | cand => exact conditional_eraseLog _ _ _ _ _ s
  case fsdata => exact fillAndSlide_eraseLog _ _ _ _ s.clearPend
  case mcdata =>
    rw [exec, exec, execMcdata, execMcdata]
    split
    · rfl
    · exact memoryCopy_eraseLog _ _ _ _ s.clearPend
  all_goals rfl

/-! ## Steps -/

theorem runEntry_eraseLog (c : Context) (e : Entry) (s : State) :
    runEntry c e s.eraseLog = eraseOutcome (runEntry c e s) := by
  rw [runEntry, runEntry, State.eraseLog_cfg]
  split
  · exact exec_eraseLog _ s
  · rfl

theorem entryStep_eraseLog (e : Entry) (s : State) :
    entryStep e s.eraseLog = eraseOutcome (entryStep e s) := by
  rw [entryStep, entryStep, State.eraseLog_skip, State.eraseLog_pend]
  split_ifs
  · rfl
  · rfl
  · exact runEntry_eraseLog _ e s
  · exact runEntry_eraseLog _ e s

theorem runStep_eraseLog (s : State) : runStep s.eraseLog = eraseOutcome (runStep s) := by
  rw [runStep, runStep, State.eraseLog_code, State.eraseLog_idx]
  cases s.code.ops[s.idx]? with
  | none => rfl
  | some e => exact entryStep_eraseLog e s.advance

/-- A code's start and a pass's end set the logging state without reading it. -/
theorem nextCode_eraseLog {s' : State} (todo survivors : List Code) (h : s.eraseLog = s'.eraseLog) :
    (nextCode todo survivors s).eraseLog = (nextCode todo survivors s').eraseLog := by
  cases todo with
  | nil =>
    have same := congrArg (fun u => (endPass survivors u).eraseLog) h
    exact same
  | cons c rest =>
    have same := congrArg (fun u => (startRun c rest survivors u).eraseLog) h
    exact same

theorem retireRun_eraseLog (todo survivors : List Code) (s : State) :
    (retireRun todo survivors s.eraseLog).eraseLog = (retireRun todo survivors s).eraseLog := by
  rw [retireRun, retireRun, State.eraseLog_result]
  cases s.result with
  | running => rfl
  | success => exact nextCode_eraseLog _ _ rfl
  | failure k info => exact nextCode_eraseLog _ _ rfl

theorem hostOp_eraseLog (op : HostOp) (s : State) :
    (hostOp op s.eraseLog).eraseLog = (hostOp op s).eraseLog := by
  cases op with
  | runAllActive =>
    rw [hostOp, hostOp, runAllActive, runAllActive, State.eraseLog_cheatsEnabled]
    split
    · exact nextCode_eraseLog _ _ rfl
    · rfl
  | applyCodes l =>
    rw [hostOp, hostOp, applyCodes, applyCodes, State.eraseLog_cheatsEnabled]
    split <;> rfl
  | addCode c =>
    rw [hostOp, hostOp, addCode, addCode, State.eraseLog_cheatsEnabled]
    split <;> rfl
  | enableSelfLogging on =>
    rw [hostOp, hostOp, enableSelfLogging, enableSelfLogging, State.eraseLog_cheatsEnabled]
    split <;> rfl
  | clearSelfLog =>
    rw [hostOp, hostOp, clearSelfLog, clearSelfLog, State.eraseLog_cheatsEnabled]
    split <;> rfl
  | setCheatsEnabled on => rfl
  | getSelfLog => rfl
  | guestWrite a b => rfl

theorem hostStep_eraseLog (s : State) : (hostStep s.eraseLog).eraseLog = (hostStep s).eraseLog := by
  rw [hostStep, hostStep, State.eraseLog_inputs]
  cases s.inputs with
  | nil => rfl
  | cons op rest => exact hostOp_eraseLog op { s with inputs := rest }

/-- With the logging state erased before it or not, a step answers alike but for that state. -/
theorem step_eraseLog (s : State) : eraseOutcome (step s.eraseLog) = eraseOutcome (step s) := by
  rw [step, step, State.eraseLog_phase]
  cases s.phase with
  | idle => exact congrArg Host.Outcome.next (hostStep_eraseLog s)
  | inPass todo survivors =>
    dsimp only
    rw [passStep, passStep, State.eraseLog_result]
    have handOver := congrArg (Host.Outcome.next (φ := Fault) (ρ := Refusal))
      (retireRun_eraseLog todo survivors s)
    cases s.result with
    | success => exact handOver
    | failure k info => exact handOver
    | running =>
      dsimp only
      rw [runStep_eraseLog]
      cases runStep s <;> rfl

theorem eraseOutcome_eq_fault {o : Out} {f : Fault} :
    eraseOutcome o = .fault f ↔ o = .fault f := by
  cases o <;> simp [eraseOutcome]

theorem eraseOutcome_eq_next {o : Out} {u : State} :
    eraseOutcome o = .next u ↔ ∃ t, o = .next t ∧ t.eraseLog = u := by
  cases o <;> simp [eraseOutcome]

/-- Settles O52: a step commutes with erasing the logging state. -/
theorem loggingHasNoArchitecturalEffect : Obligations.LoggingHasNoArchitecturalEffect := by
  refine fun s => ⟨fun t h => ?_, fun f => ?_⟩
  · exact eraseOutcome_eq_next.mp ((step_eraseLog s).trans (congrArg eraseOutcome h))
  · rw [← eraseOutcome_eq_fault, ← step_eraseLog, eraseOutcome_eq_fault]

end Sys2Proof.Machine
end

section
/-! PROOFS. The zero-codes (41_zero_codes.md), the guards' rows, the signed compares
(44_conditionals.md R234 to R239) and the composites' follow-ups (43_composites.md R200 to R212). -/

namespace Sys2Proof.Machine

variable {s : State} {cfg : Config} {m m' : Memory} {w : Width}

/-! ## Zero-codes, SELFMOD and MASTER -/

/-- Settles O22: by the meanings of the three. -/
theorem endNormAndEndifComplete : Obligations.EndNormAndEndifComplete :=
  fun _ _ => ⟨rfl, rfl, rfl⟩

/-- Settles O23: by the meanings of the two. -/
theorem selfmodAndMasterCodeFail : Obligations.SelfmodAndMasterCodeFail :=
  ⟨fun _ _ _ _ => rfl, fun _ _ _ _ => rfl⟩

/-- Settles O24: by the meanings of the five. -/
theorem unsupportedZeroCodesFail : Obligations.UnsupportedZeroCodesFail :=
  fun _ _ => ⟨rfl, rfl, rfl, rfl, rfl⟩

/-- Settles O25: VLAST is the selector's own value word. -/
theorem selectorsSetThePendingComposite : Obligations.SelectorsSetThePendingComposite := by
  intro t2 addr s
  have fields (sel : BitVec 2) := selector_fields sel t2 addr
  have rest (sel : BitVec 2) :
      (selectorEntry sel t2 addr).value.extractLsb' 29 3 = 4 ∧
      (selectorEntry sel t2 addr).value.extractLsb' 27 2 = t2 ∧
      (selectorEntry sel t2 addr).value.extractLsb' 0 25 = addr :=
    ⟨(fields sel).1, selectorEntry_t2 sel t2 addr, selectorEntry_addr sel t2 addr⟩
  refine ⟨_, _, _, _, rfl, rfl, rfl, rfl, (fields 0).2, (fields 1).2, (fields 2).2, (fields 3).2,
    ?_⟩
  rintro v (rfl | rfl | rfl | rfl)
  · exact rest 0
  · exact rest 1
  · exact rest 2
  · exact rest 3

/-! ## Signed compares -/

/-- Settles O39: at the full width neither the mask nor SIGNED_NARROW plays a part. -/
theorem signedComparesAtFullWidth : Obligations.SignedComparesAtFullWidth := by
  rintro o z g v s (rfl | rfl)
  · exact ⟨compares_clts o .s32 g v s, compares_cgts o .s32 g v s⟩
  · exact ⟨compares_clts o .f32 g v s, compares_cgts o .f32 g v s⟩

theorem condOperand_s8 (s : State) (g : GcAddr) :
    (condOperand s .s8 g).setWidth 8 = Memory.byteAt s.mem (ea g) := by
  rw [condOperand, sizeWidth, Width.bytes, loadBE_byte,
    BitVec.setWidth_setWidth_of_le _ (by decide), BitVec.setWidth_eq]

theorem condOperand_s16 (s : State) (g : GcAddr) :
    (condOperand s .s16 g).setWidth 16 =
      Memory.byteAt s.mem (ea g) ++ Memory.byteAt s.mem (ea g + 1) := by
  rw [condOperand, sizeWidth, Width.bytes, loadBE_half,
    BitVec.setWidth_setWidth_of_le _ (by decide), BitVec.setWidth_eq]

theorem maskTo_byte_setWidth (v : Word) : (maskTo .byte v).setWidth 8 = v.extractLsb' 0 8 := by
  apply BitVec.eq_of_toNat_eq
  rw [BitVec.toNat_setWidth, maskTo_toNat, BitVec.extractLsb'_toNat]
  simp only [Width.bytes, Nat.shiftRight_zero]
  omega

theorem maskTo_half_setWidth (v : Word) : (maskTo .half v).setWidth 16 = v.extractLsb' 0 16 := by
  apply BitVec.eq_of_toNat_eq
  rw [BitVec.toNat_setWidth, maskTo_toNat, BitVec.extractLsb'_toNat]
  simp only [Width.bytes, Nat.shiftRight_zero]
  omega

/-- The compares of a byte, where SIGNED_NARROW reads a byte as `f`. -/
theorem compares_signed_s8 {f : Byte → Int}
    (view : ∀ x, signedView s.cfg .byte x = f (x.setWidth 8)) (o : OnFalse) (g : GcAddr)
    (v : Word) :
    Compares (.clts o .s8 g v) o .s8 g
      (f (Memory.byteAt s.mem (ea g)) < f (v.extractLsb' 0 8)) s ∧
    Compares (.cgts o .s8 g v) o .s8 g
      (f (Memory.byteAt s.mem (ea g)) > f (v.extractLsb' 0 8)) s := by
  rw [← condOperand_s8, ← maskTo_byte_setWidth, ← view, ← view]
  exact ⟨compares_clts o .s8 g v s, compares_cgts o .s8 g v s⟩

/-- The compares of a half-word, where SIGNED_NARROW reads a half-word as `f`. -/
theorem compares_signed_s16 {f : BitVec 16 → Int}
    (view : ∀ x, signedView s.cfg .half x = f (x.setWidth 16)) (o : OnFalse) (g : GcAddr)
    (v : Word) :
    Compares (.clts o .s16 g v) o .s16 g
      (f (Memory.byteAt s.mem (ea g) ++ Memory.byteAt s.mem (ea g + 1)) <
        f (v.extractLsb' 0 16)) s ∧
    Compares (.cgts o .s16 g v) o .s16 g
      (f (Memory.byteAt s.mem (ea g) ++ Memory.byteAt s.mem (ea g + 1)) >
        f (v.extractLsb' 0 16)) s := by
  rw [← condOperand_s16, ← maskTo_half_setWidth, ← view, ← view]
  exact ⟨compares_clts o .s16 g v s, compares_cgts o .s16 g v s⟩

/-- Settles O40: SIGNED_NARROW says how the operand's bytes and the value's low bytes are read. -/
theorem signedComparesAtNarrowWidths : Obligations.SignedComparesAtNarrowWidths := by
  intro o g v s
  refine ⟨fun setting => ?_, fun setting => ?_⟩
  · obtain ⟨lt8, gt8⟩ := compares_signed_s8 (s := s) (f := BitVec.toInt)
      (fun x => by simp only [signedView, setting]) o g v
    obtain ⟨lt16, gt16⟩ := compares_signed_s16 (s := s) (f := BitVec.toInt)
      (fun x => by simp only [signedView, setting]) o g v
    exact ⟨lt8, gt8, lt16, gt16⟩
  · obtain ⟨lt8, gt8⟩ := compares_signed_s8 (s := s) (f := fun x => x.toNat)
      (fun x => by simp only [signedView, setting]) o g v
    obtain ⟨lt16, gt16⟩ := compares_signed_s16 (s := s) (f := fun x => x.toNat)
      (fun x => by simp only [signedView, setting]) o g v
    simp only [gt_iff_lt, Nat.cast_lt] at lt8 gt8 lt16 gt16
    exact ⟨lt8, gt8, lt16, gt16⟩

/-! ## Fill-and-slide -/

theorem cursorStep_toInt (w : Width) (ai : BitVec 16) :
    (cursorStep w ai).toInt = w.bytes * ai.toInt := by
  have := ai.toInt_lt
  have := ai.le_toInt
  have scale : (BitVec.ofNat 32 w.bytes).toInt = w.bytes := by cases w <;> rfl
  rw [cursorStep, BitVec.toInt_mul, BitVec.toInt_signExtend_of_le (by decide), scale]
  have := w.bytes_pos
  have := w.bytes_le
  cases w <;> simp only [Width.bytes] <;> exact Int.bmod_eq_of_le (by omega) (by omega)

/-- Clearing bits 25 and 26 keeps every other bit. -/
theorem getLsbD_copyDest (v : Word) (j : Nat) :
    (copyDest v).getLsbD j = (v.getLsbD j && j != 25 && j != 26) := by
  rcases Nat.lt_or_ge j 32 with below | above
  · rw [copyDest, BitVec.getLsbD_and]
    interval_cases j <;> simp
  · rw [BitVec.getLsbD_of_ge _ _ above, BitVec.getLsbD_of_ge _ _ above]
    rfl

/-- Settles O41: the products and extensions stay within 32 bits. -/
theorem slideStepsAreSignExtended : Obligations.SlideStepsAreSignExtended :=
  ⟨cursorStep_toInt, fun _ => BitVec.toInt_signExtend_of_le (by decide), getLsbD_copyDest⟩

/-- With a size of 0, 1 or 2 in VLAST the follow-up is the one loop of that width. -/
theorem exec_fsdata_of_size {val : Word} {vi wn : Byte} {ai : BitVec 16}
    (size : cmdSize s.vlast ≠ 3) : exec (.fsdata val vi wn ai) s =
      slideFrom (sizeWidth (Size.ofBits (cmdSize s.vlast))) val vi wn ai s.clearPend := by
  rw [exec, execFsdata, fillAndSlide, State.clearPend_vlast]
  cases hz : Size.ofBits (cmdSize s.vlast) with
  | f32 => exact absurd (cmdSize_of_ofBits hz) size
  | _ => rfl

/-- What a slide that runs to its end leaves. -/
theorem slide_series {n : Nat} {cur dcur val dval : Word}
    (run : slide cfg w dcur dval n cur val m = .ok m') (hm : Memory.wf m = true) :
    Memory.wf m' = true ∧ SlideHolds m' cur dcur w val dval n ∧
      SameOutside (SlideBytes cur dcur w n) m m' := by
  obtain ⟨wf, frame⟩ := slide_spec run hm
  exact ⟨wf, fun i hi k hk last => slide_byteAt run hm hi hk fun j hij hj => last j hj hij,
    fun x hx => frame x fun i hi hin => hx ⟨i, hi, hin⟩⟩

/-- Settles O42: the series of the loop, up to its end or its first inaccessible write. -/
theorem fillAndSlideWritesItsSeries : Obligations.FillAndSlideWritesItsSeries := by
  rintro val vi wn ai s w hm size rfl
  rw [exec_fsdata_of_size size]
  refine ⟨fun all => ?_, fun j hj before bad => ?_⟩
  · obtain ⟨m, run⟩ := slide_ok (m := s.mem) (val := val) (dval := valueStep vi) all
    exact ⟨m, putMem_eq_next.mpr ⟨m, run, rfl⟩, slide_series run hm⟩
  · obtain ⟨m, made, run⟩ := slide_eq_error_at (m := s.mem) (v := val) (dval := valueStep vi) hj
      before bad
    exact ⟨m, putMem_eq_fault.mpr run, (slide_series made hm).2⟩

/-! ## Memory copy -/

/-- Settles O43: the check comes first, and the offending value is the value word's own bits. -/
theorem memoryCopyChecksItsCountWord : Obligations.MemoryCopyChecksItsCountWord := by
  intro top src ptr check b n s nonzero e
  have value : e.value &&& (0x00FF0000 : Word) = check.setWidth 32 <<< 16 := mcdata_check_value ..
  rw [value, exec, execMcdata, if_pos nonzero]
  rfl

section Copy

variable {src dest : Word} {n j : Nat}

/-- A later byte of a copy does not stand at the address of its first. -/
theorem ne_later_byte {k : Nat} (short : k < 2 ^ 32 - 2) :
    dest ≠ dest + 1#32 + BitVec.ofNat 32 k := fun same =>
  not_inBytes_next (n := k + 1) (by omega) ⟨k, Nat.lt_succ_self k, same⟩

/-- What a copy that runs to its end leaves, by induction on its bytes. -/
theorem bytesCopied_of_copyBytes (run : copyBytes cfg n src dest m = .ok m')
    (hm : Memory.wf m = true) (short : n < 2 ^ 32) : BytesCopied m m' src dest n := by
  refine ⟨(copyBytes_spec run hm).2, ?_⟩
  induction n generalizing src dest m with
  | zero => exact fun i hi => absurd hi i.not_lt_zero
  | succ n ih =>
    obtain ⟨-, -, rest⟩ := copyBytes_succ run
    have hm1 := Memory.set_wf dest (Memory.byteAt m src) hm
    have get1 (x : Word) := Memory.byteAt_set dest (Memory.byteAt m src) x hm
    have first : Memory.byteAt m' dest = Memory.byteAt m src := by
      rw [(copyBytes_spec rest hm1).2 dest (not_inBytes_next (by omega)), get1, if_pos rfl]
    have later := ih rest hm1 (by omega)
    intro i hi
    cases i with
    | zero =>
      refine ⟨fun _ => ?_, fun j hj => absurd hj j.not_lt_zero⟩
      rw [BitVec.add_zero, BitVec.add_zero, first]
    | succ k =>
      obtain ⟨fresh, copied⟩ := later k (by omega)
      rw [addr_succ src k, addr_succ dest k]
      refine ⟨fun apart => ?_, fun j hj same => ?_⟩
      · have notFirst : src + 1#32 + BitVec.ofNat 32 k ≠ dest := by
          simpa using apart 0 (by omega)
        rw [fresh fun j hj => by rw [← addr_succ dest j]; exact apart (j + 1) (by omega), get1,
          if_neg notFirst]
      · cases j with
        | zero =>
          rw [BitVec.add_zero] at same ⊢
          rw [fresh fun j hj => by rw [same]; exact ne_later_byte (by omega), same, get1,
            if_pos rfl, first]
        | succ j =>
          rw [addr_succ dest j] at same ⊢
          exact copied j (by omega) same

/-- A copy faults at its first byte that cannot be read, or else be written, after the bytes before
it. -/
theorem copyBytes_eq_error_at (hj : j < n) (before : ∀ i < j, CopyAccessible cfg src dest i)
    (bad : ¬ CopyAccessible cfg src dest j) :
    ∃ m', copyBytes cfg j src dest m = .ok m' ∧
      copyBytes cfg n src dest m = .error (.outOfWindow
        (if accessible cfg (src + BitVec.ofNat 32 j) 1 then dest + BitVec.ofNat 32 j
         else src + BitVec.ofNat 32 j) m') := by
  induction j generalizing n src dest m with
  | zero =>
    obtain ⟨n, rfl⟩ := Nat.exists_eq_succ_of_ne_zero (Nat.ne_of_gt hj)
    refine ⟨m, rfl, ?_⟩
    rw [CopyAccessible] at bad
    rw [BitVec.add_zero, BitVec.add_zero] at bad ⊢
    rw [copyBytes]
    by_cases hs : accessible cfg src 1 = true
    · have hd : accessible cfg dest 1 = false := by simpa [hs] using bad
      rw [memRead_of_accessible (w := .byte) hs, if_pos hs]
      simp only [memWrite_eq_error (w := .byte) |>.mpr ⟨hd, rfl⟩]
    · rw [memRead_eq_error (w := .byte) |>.mpr ⟨Bool.eq_false_iff.mpr hs, rfl⟩, if_neg hs]
  | succ j ih =>
    obtain ⟨n, rfl⟩ := Nat.exists_eq_succ_of_ne_zero (Nat.ne_of_gt (Nat.zero_lt_of_lt hj))
    obtain ⟨hs, hd⟩ := before 0 (by omega)
    rw [BitVec.add_zero] at hs hd
    have shift (i : Nat) : CopyAccessible cfg (src + 1#32) (dest + 1#32) i ↔
        CopyAccessible cfg src dest (i + 1) := by
      rw [CopyAccessible, CopyAccessible, addr_succ src i, addr_succ dest i]
    rw [addr_succ src j, addr_succ dest j, copyBytes, copyBytes,
      memRead_of_accessible (w := .byte) hs]
    simp only [memWrite_of_accessible (w := .byte) hd]
    exact ih (by omega) (fun i hi => (shift i).mpr (before (i + 1) (by omega)))
      (fun h => bad ((shift j).mp h))

/-- The outcome of the copy of a follow-up, to its end or to its first inaccessible byte. -/
theorem copyOutcome_of_copyBytes (hm : Memory.wf s.mem = true) (short : n < 2 ^ 32) :
    CopyOutcome s (putMem s.clearPend (copyBytes s.cfg n src dest s.mem)) src dest n := by
  refine ⟨fun all => ?_, fun j hj before bad => ?_⟩
  · obtain ⟨m, run⟩ := copyBytes_ok (m := s.mem) all
    exact ⟨m, putMem_eq_next.mpr ⟨m, run, rfl⟩, (copyBytes_spec run hm).1,
      bytesCopied_of_copyBytes run hm short⟩
  · obtain ⟨m, made, run⟩ := copyBytes_eq_error_at (m := s.mem) hj before bad
    exact ⟨m, bytesCopied_of_copyBytes made hm (by omega), putMem_eq_fault.mpr run⟩

theorem numBytes_lt (n : BitVec 15) : n.toNat < 2 ^ 32 := n.isLt.trans (by decide)

/-- Settles O44: in direct mode the copy starts at once. -/
theorem memoryCopyDirectMovesBytes : Obligations.MemoryCopyDirectMovesBytes :=
  fun _ _ _ n _ hm => copyOutcome_of_copyBytes hm (numBytes_lt n)

/-- In pointer mode the destination pointer is read first, then the source pointer. -/
theorem exec_mcdata_pointer {top : BitVec 7} {g : GcAddr} {ptr : Byte} {b : BitVec 1}
    {n : BitVec 15} (hp : ptr ≠ 0) : exec (.mcdata top g ptr 0 b n) s =
      memoryCopy true (copyDest s.vlast) (ea g) n.toNat s.clearPend := by
  rw [exec, execMcdata, if_neg (by decide), decide_eq_true hp]

/-- Settles O45: each pointer's load is the first or the second access. -/
theorem memoryCopyPointerModeChasesBothPointers :
    Obligations.MemoryCopyPointerModeChasesBothPointers := by
  intro top g ptr b n s hm hp
  rw [exec_mcdata_pointer hp, memoryCopy, if_pos rfl, State.clearPend_cfg, State.clearPend_mem]
  refine ⟨fun hd hs => ?_, fun hd => ?_, fun hd hs => ?_⟩
  · rw [memRead_of_accessible (w := .word) hd, memRead_of_accessible (w := .word) hs]
    exact copyOutcome_of_copyBytes hm (numBytes_lt n)
  · rw [memRead_eq_error (w := .word) |>.mpr ⟨hd, rfl⟩]
  · rw [memRead_of_accessible (w := .word) hd, memRead_eq_error (w := .word) |>.mpr ⟨hs, rfl⟩]

end Copy

end Sys2Proof.Machine
end

section
/-! PROOFS. ADDF32 (42_normal_codes.md R185): how words are read as binary32, the rounding, and what
the add stores. A magnitude's bits from 2^23 on are written `k * 2^23 + q` with `q` between 2^23 and
2^24, which stands for `q * 2^k` units. -/

namespace Sys2Proof.Machine

variable {s : State} {u k q b : Nat}

/-! ## Magnitudes -/

/-- `q = 2^24` is the carry into the next exponent. -/
theorem f32Units_scaled (low : 2 ^ 23 ≤ q) (high : q ≤ 2 ^ 24) :
    f32Units (k * 2 ^ 23 + q) = q * 2 ^ k := by
  rw [f32Units, if_neg (by omega)]
  rcases Nat.lt_or_eq_of_le high with lt | rfl
  · have frac : 2 ^ 23 + (k * 2 ^ 23 + q) % 2 ^ 23 = q := by omega
    have exp : (k * 2 ^ 23 + q) / 2 ^ 23 - 1 = k := by omega
    rw [frac, exp]
  · have frac : 2 ^ 23 + (k * 2 ^ 23 + 2 ^ 24) % 2 ^ 23 = 2 ^ 23 := by omega
    have exp : (k * 2 ^ 23 + 2 ^ 24) / 2 ^ 23 - 1 = k + 1 := by omega
    rw [frac, exp, Nat.pow_succ 2 k]
    ring

/-- Below 2^24 a magnitude's bits are its units. -/
theorem f32Units_of_lt (h : b < 2 ^ 24) : f32Units b = b := by
  rcases Nat.lt_or_ge b (2 ^ 23) with small | large
  · exact if_pos small
  · simpa using f32Units_scaled (k := 0) large h.le

theorem exists_scaled (h : 2 ^ 23 ≤ b) : ∃ k q, 2 ^ 23 ≤ q ∧ q < 2 ^ 24 ∧ b = k * 2 ^ 23 + q :=
  ⟨b / 2 ^ 23 - 1, 2 ^ 23 + b % 2 ^ 23, by omega, by omega, by omega⟩

theorem f32Units_strictMono : StrictMono f32Units := by
  refine strictMono_nat_of_lt_succ fun b => ?_
  rcases Nat.lt_or_ge b (2 ^ 23) with small | large
  · rw [f32Units_of_lt (by omega), f32Units_of_lt (by omega)]
    exact Nat.lt_succ_self b
  · obtain ⟨k, q, low, high, rfl⟩ := exists_scaled large
    rw [Nat.add_assoc, f32Units_scaled low high.le, f32Units_scaled (by omega) high]
    exact Nat.mul_lt_mul_of_pos_right (Nat.lt_succ_self q) (Nat.two_pow_pos k)

/-! ## The rounding -/

/-- How a magnitude of 2^24 units or more is rounded: `q` is its 24 significant bits, `r` what
stands below them, and `up` is 1 when `r` is past the tie, or at it with `q` odd. -/
structure Rounding (u k q r up : Nat) : Prop where
  low : 2 ^ 23 ≤ q
  high : q < 2 ^ 24
  split : u = q * 2 ^ k + r
  rest : r < 2 ^ k
  up_le : up ≤ 1
  up_iff : up = 1 ↔ 2 * r > 2 ^ k ∨ (2 * r = 2 ^ k ∧ q % 2 = 1)
  round : f32Round u = min (k * 2 ^ 23 + q + up) f32Infinity

theorem f32Round_of_lt (h : u < 2 ^ 24) : f32Round u = u := if_pos h

theorem exists_rounding (h : 2 ^ 24 ≤ u) : ∃ k q r up, Rounding u k q r up := by
  have nonzero : u ≠ 0 := by omega
  have exp : 24 ≤ u.log2 := (Nat.le_log2 nonzero).mpr h
  have powLe : 2 ^ 23 * 2 ^ (u.log2 - 23) ≤ u := by
    rw [← Nat.pow_add, Nat.add_sub_cancel' (by omega)]
    exact (Nat.le_log2 nonzero).mp (Nat.le_refl _)
  have ltPow : u < 2 ^ 24 * 2 ^ (u.log2 - 23) := by
    rw [← Nat.pow_add, show 24 + (u.log2 - 23) = u.log2 + 1 by omega]
    exact Nat.lt_log2_self
  have pos := Nat.two_pow_pos (u.log2 - 23)
  refine ⟨u.log2 - 23, u / 2 ^ (u.log2 - 23), u % 2 ^ (u.log2 - 23), _,
    (Nat.le_div_iff_mul_le pos).mpr powLe, (Nat.div_lt_iff_lt_mul pos).mpr ltPow,
    (Nat.div_add_mod' _ _).symm, Nat.mod_lt _ pos, ?_, ?_, if_neg (Nat.not_lt.mpr h)⟩
  · split <;> omega
  · split <;> simp [*]

section

variable {r up : Nat}

/-- The magnitude below `u` that has its leading bits. -/
theorem Rounding.units_below (h : Rounding u k q r up) :
    f32Units (k * 2 ^ 23 + q) = q * 2 ^ k :=
  f32Units_scaled h.low h.high.le

/-- The next magnitude above it. -/
theorem Rounding.units_above (h : Rounding u k q r up) :
    f32Units (k * 2 ^ 23 + q + 1) = q * 2 ^ k + 2 ^ k := by
  have := h.low
  rw [Nat.add_assoc, f32Units_scaled (by omega) h.high, Nat.succ_mul]

theorem Rounding.le_below (h : Rounding u k q r up) (hb : b ≤ k * 2 ^ 23 + q) :
    f32Units b ≤ q * 2 ^ k :=
  h.units_below ▸ f32Units_strictMono.monotone hb

theorem Rounding.above_le (h : Rounding u k q r up) (hb : k * 2 ^ 23 + q + 1 ≤ b) :
    q * 2 ^ k + 2 ^ k ≤ f32Units b :=
  h.units_above ▸ f32Units_strictMono.monotone hb

end

/-- A magnitude of binary32 is rounded to itself: nothing stands below its leading bits. -/
theorem f32Round_f32Units (finite : b < f32Infinity) : f32Round (f32Units b) = b := by
  rcases Nat.lt_or_ge (f32Units b) (2 ^ 24) with small | large
  · rw [f32Round_of_lt small]
    exact f32Units_strictMono.injective (f32Units_of_lt small)
  · obtain ⟨k, q, r, up, rounding⟩ := exists_rounding large
    have split := rounding.split
    have rest := rounding.rest
    have exact : b = k * 2 ^ 23 + q := by
      rcases Nat.lt_trichotomy b (k * 2 ^ 23 + q) with lt | eq | gt
      · have := f32Units_strictMono lt
        have := rounding.units_below
        omega
      · exact eq
      · have := rounding.above_le gt
        omega
    have none : up = 0 := by
      have noRest : r = 0 := by
        have := rounding.units_below
        rw [← exact] at this
        omega
      have := rounding.up_le
      have := rounding.up_iff
      omega
    rw [rounding.round, none, Nat.add_zero, ← exact, Nat.min_eq_left finite.le]

/-- Nearest, ties to even: compared with any other magnitude, which is at most the one below `u` or
at least the one above it. -/
theorem f32Round_nearest (finite : f32Round u < f32Infinity) (b : Nat) :
    ((f32Units (f32Round u) : Int) - u).natAbs ≤ ((f32Units b : Int) - u).natAbs ∧
    (b ≠ f32Round u →
      ((f32Units (f32Round u) : Int) - u).natAbs = ((f32Units b : Int) - u).natAbs →
      f32Round u % 2 = 0) := by
  rcases Nat.lt_or_ge u (2 ^ 24) with small | large
  · have exact : f32Units (f32Round u) = u := by
      rw [f32Round_of_lt small, f32Units_of_lt small]
    rw [exact]
    refine ⟨by omega, fun other tie => absurd ?_ other⟩
    refine f32Units_strictMono.injective (exact.symm ▸ ?_)
    omega
  · obtain ⟨k, q, r, up, rounding⟩ := exists_rounding large
    have split := rounding.split
    have rest := rounding.rest
    have below := rounding.units_below
    have above := rounding.units_above
    have upIff := rounding.up_iff
    have rounded : f32Round u = k * 2 ^ 23 + q + up := by
      have := rounding.round
      omega
    rw [rounded]
    rcases Nat.le_one_iff_eq_zero_or_eq_one.mp rounding.up_le with rfl | rfl
    · rw [Nat.add_zero, below]
      rcases Nat.lt_trichotomy b (k * 2 ^ 23 + q) with lt | rfl | gt
      · have := f32Units_strictMono lt
        omega
      · omega
      · have := rounding.above_le gt
        omega
    · rw [above]
      rcases Nat.lt_trichotomy b (k * 2 ^ 23 + q + 1) with lt | rfl | gt
      · have := rounding.le_below (Nat.le_of_lt_succ lt)
        omega
      · omega
      · have := f32Units_strictMono gt
        omega

/-- A magnitude is rounded to infinity from half a unit past the largest finite one on. -/
theorem f32Round_eq_infinity_iff (u : Nat) :
    f32Round u = f32Infinity ↔ (2 ^ 25 - 1) * 2 ^ 252 ≤ u := by
  rcases Nat.lt_or_ge u (2 ^ 24) with small | large
  · rw [f32Round_of_lt small, f32Infinity]
    omega
  · obtain ⟨k, q, r, up, rounding⟩ := exists_rounding large
    obtain ⟨low, high, split, rest, upLe, upIff, round⟩ := rounding
    rw [round, min_eq_right_iff, f32Infinity]
    rcases Nat.lt_trichotomy k 253 with lt | rfl | gt
    · have pow : 2 ^ k ≤ 2 ^ 252 := Nat.pow_le_pow_right (by decide) (Nat.le_of_lt_succ lt)
      have : (q + 1) * 2 ^ k ≤ 2 ^ 24 * 2 ^ 252 := Nat.mul_le_mul high pow
      rw [Nat.succ_mul] at this
      omega
    · omega
    · have pow : 2 ^ 254 ≤ 2 ^ k := Nat.pow_le_pow_right (by decide) gt
      have : 2 ^ 23 * 2 ^ 254 ≤ q * 2 ^ k := Nat.mul_le_mul low pow
      omega

/-- Settles O34: exact on the magnitudes, nearest between them, and the threshold of infinity. -/
theorem floatRoundingIsNearestTiesToEven : Obligations.FloatRoundingIsNearestTiesToEven :=
  ⟨fun _ finite => f32Round_f32Units finite, fun _ b finite _ => f32Round_nearest finite b,
    f32Round_eq_infinity_iff⟩

/-! ## Fields of a word, and the addend -/

theorem isNaN_iff (m : Word) : isNaN m = true ↔
    (m.extractLsb' 23 8).toNat = 255 ∧ (m.extractLsb' 0 23).toNat ≠ 0 := by
  simp only [isNaN, and_7FFFFFFF, f32Infinity, decide_eq_true_eq, BitVec.extractLsb'_toNat,
    Nat.shiftRight_eq_div_pow]
  omega

theorem isInf_iff (m : Word) : isInf m = true ↔
    (m.extractLsb' 23 8).toNat = 255 ∧ (m.extractLsb' 0 23).toNat = 0 := by
  simp only [isInf, and_7FFFFFFF, f32Infinity, decide_eq_true_eq, BitVec.extractLsb'_toNat,
    Nat.shiftRight_eq_div_pow]
  omega

/-- The magnitude of a word by its exponent and fraction. -/
theorem f32Units_of_fields (m : Word) : f32Units (m.toNat % 2 ^ 31) =
    if (m.extractLsb' 23 8).toNat = 0 then (m.extractLsb' 0 23).toNat
    else (2 ^ 23 + (m.extractLsb' 0 23).toNat) * 2 ^ ((m.extractLsb' 23 8).toNat - 1) := by
  have exp : (m.extractLsb' 23 8).toNat = m.toNat % 2 ^ 31 / 2 ^ 23 := by
    simp only [BitVec.extractLsb'_toNat, Nat.shiftRight_eq_div_pow]
    omega
  have frac : (m.extractLsb' 0 23).toNat = m.toNat % 2 ^ 31 % 2 ^ 23 := by
    simp only [BitVec.extractLsb'_toNat, Nat.shiftRight_zero]
    omega
  rw [exp, frac, f32Units]
  split_ifs
  · omega
  · omega
  · omega
  · rfl

theorem f32Value_eq (m : Word) :
    f32Value m = (if m.msb then -1 else 1) * (f32Units (m.toNat % 2 ^ 31) : Int) := by
  rw [f32Value, and_7FFFFFFF]
  split <;> simp

theorem f32OfU32_lt_infinity (d : Word) : (f32OfU32 d).toNat < f32Infinity := by
  rw [f32OfU32_toNat]
  have le := f32Round_le (d.toNat * 2 ^ 149)
  have ne := (f32Round_eq_infinity_iff (d.toNat * 2 ^ 149)).not.mpr (by have := d.isLt; omega)
  omega

theorem f32OfU32_msb (d : Word) : (f32OfU32 d).msb = false := by
  have := f32OfU32_lt_infinity d
  rw [f32Infinity] at this
  rw [BitVec.msb_eq_decide, decide_eq_false_iff_not]
  omega

/-- An integer of at most 24 bits, in units, is a magnitude of binary32. -/
theorem exists_f32Units_eq {n : Nat} (h : n ≤ 2 ^ 24) :
    ∃ b < f32Infinity, f32Units b = n * 2 ^ 149 := by
  rcases Nat.eq_zero_or_pos n with rfl | pos
  · exact ⟨0, by decide, by decide⟩
  rcases Nat.lt_or_eq_of_le h with lt | rfl
  · have exp : n.log2 < 24 := (Nat.log2_lt pos.ne').mpr lt
    have low : 2 ^ 23 ≤ n * 2 ^ (23 - n.log2) := calc
      2 ^ 23 = 2 ^ n.log2 * 2 ^ (23 - n.log2) := by rw [← Nat.pow_add]; congr 1; omega
      _ ≤ n * 2 ^ (23 - n.log2) := Nat.mul_le_mul_right _ (Nat.log2_self_le pos.ne')
    have high : n * 2 ^ (23 - n.log2) < 2 ^ 24 := calc
      n * 2 ^ (23 - n.log2) < 2 ^ (n.log2 + 1) * 2 ^ (23 - n.log2) :=
        Nat.mul_lt_mul_of_pos_right Nat.lt_log2_self (Nat.two_pow_pos _)
      _ = 2 ^ 24 := by rw [← Nat.pow_add]; congr 1; omega
    refine ⟨(126 + n.log2) * 2 ^ 23 + n * 2 ^ (23 - n.log2), by rw [f32Infinity]; omega, ?_⟩
    rw [f32Units_scaled low high.le, Nat.mul_assoc, ← Nat.pow_add,
      show 23 - n.log2 + (126 + n.log2) = 149 by omega]
  · exact ⟨149 * 2 ^ 23 + 2 ^ 24, by decide, f32Units_scaled (by decide) (Nat.le_refl _)⟩

/-- An addend of at most 24 bits is converted exactly. -/
theorem f32Value_f32OfU32 (d : Word) (h : d.toNat ≤ 2 ^ 24) :
    f32Value (f32OfU32 d) = d.toNat * 2 ^ 149 := by
  obtain ⟨b, finite, units⟩ := exists_f32Units_eq h
  have bits : (f32OfU32 d).toNat = b := by
    rw [f32OfU32_toNat, ← units, f32Round_f32Units finite]
  rw [f32Infinity] at finite
  rw [f32Value_eq, f32OfU32_msb, if_neg Bool.false_ne_true, bits, Nat.mod_eq_of_lt (by omega),
    units, one_mul]
  norm_cast

/-- Settles O60: the fields of a word, and the addend as a magnitude without a sign. -/
theorem floatWordsAreReadByTheirFields : Obligations.FloatWordsAreReadByTheirFields := by
  refine ⟨fun m => ⟨isNaN_iff m, isInf_iff m, fun _ => ⟨f32Units_of_fields m, f32Value_eq m⟩⟩,
    fun d => ?_⟩
  have below := f32OfU32_lt_infinity d
  obtain ⟨notNaN, notInf⟩ := (finite_iff (f32OfU32 d)).mpr (by rw [f32Infinity] at *; omega)
  exact ⟨f32OfU32_toNat d, f32OfU32_msb d, notNaN, notInf, f32Value_f32OfU32 d⟩

/-! ## The add -/

theorem isNaN_nanBits (n : Nat) : isNaN (nanBits n) = true := by
  rw [nanBits]
  split
  · assumption
  · decide

/-- Where the word is accessible, the sum is stored at `E` and the draw count set. -/
theorem exec_addf32_storesAt {g : GcAddr} {d : Word} (hm : Memory.wf s.mem = true)
    (ha : accessible s.cfg (ea g) 4 = true) {r : Word} {n : Nat}
    (sum : f32AddU32 s.cfg s.nanDraws (loadBE s.mem (ea g) 4) d = (r, n)) :
    StoresAt (s.setNanDraws n) (exec (.addf32 g d) s) (ea g) .word r := by
  rw [exec, execAddf32, memRead_of_accessible (w := .word) ha]
  simp only [Width.bytes, sum]
  exact putMem_memWrite_storesAt (s := s.setNanDraws n) (w := .word) hm ha

/-- Settles O33: each reading's result is what the store puts at `E`. -/
theorem floatAddStoresTheSum : Obligations.FloatAddStoresTheSum := by
  intro g d s hm x v
  refine ⟨fun ha => ⟨fun reading number => ?_, fun reading nan => ?_, fun reading => ?_⟩,
    fun ha => ?_⟩
  · refine ⟨f32AddFinite x d, exec_addf32_storesAt (n := s.nanDraws) hm ha ?_, fun inf => ?_,
      fun finite => ?_⟩
    · simp only [f32AddU32, reading]
      exact if_neg (by rw [number]; decide)
    · rw [f32AddFinite, if_pos inf]
    · rw [f32AddFinite, finite, if_neg Bool.false_ne_true]
      refine ⟨f32OfValue_toNat v, fun zero => ?_⟩
      rw [show f32Value x + f32Value (f32OfU32 d) = 0 from zero]
      decide
  · refine ⟨nanBits s.nanDraws, isNaN_nanBits _, exec_addf32_storesAt hm ha ?_⟩
    simp only [f32AddU32, reading]
    exact if_pos nan
  · refine exec_addf32_storesAt (n := s.nanDraws) hm ha ?_
    simp only [f32AddU32, reading]
    rfl
  · rw [exec, execAddf32, memRead_eq_error (w := .word) |>.mpr ⟨ha, rfl⟩]

end Sys2Proof.Machine
end
